-- ==== Sys2Proof/Word.lean ====
section
/-! DEFINITION. The words of the CORE: general register width, address width and command width are 32 bits
(spec/00_scope.md R9), memory is bytes, and a register field selects one of sixteen registers (R31). -/

namespace Sys2Proof

/-- A general register, an address or a command word: 32 bits (00_scope.md R9). -/
abbrev Word := BitVec 32

/-- One byte of the shared memory (20_memory.md R60). -/
abbrev Byte := BitVec 8

/-- The number of a general register, 0 to 15 (10_state.md R31). -/
abbrev Reg := Fin 16

end Sys2Proof
end

