-- ==== Sys2Proof/Config.lean ====
section
/-! DEFINITION. What the hardware build and the platform fix (the OPEN parameters of spec/92_eei_decisions.md) and the free
values that the spec leaves open. The parameters are plain data, so that State can carry them and a statement about every
state is a statement about every value of the parameters (log entry 1). The free values are opaque constants. -/

namespace Sys2Proof

/-- A run of `len` byte addresses from `base`. -/
structure Span where
  base : Nat
  len : Nat
deriving DecidableEq, Repr

/-- Which function the magnitude datapath computes (00_scope.md R6, U6): the reference instance isqrt(x² + y²), or some other
instance, numbered so that two of them may differ. Of the others nothing is known but MAG_TOL (log entry 3). -/
inductive MagInstance where
  | reference
  | tuned (n : Nat)
deriving DecidableEq, Repr

/-- The OPEN parameters: MAX_FFT_LOG2 (R5), the addresses for which `mem_valid` holds (R7), CORE_BASE (R8) and `mag_fn` (R6).
Any `mem_valid : word32 → Bool` is a list of spans, since there are finitely many addresses. -/
structure Config where
  maxFftLog2 : Nat
  memMap : List Span
  coreBase : Nat
  mag : MagInstance
deriving DecidableEq, Repr

/-- The constraints of 92_eei_decisions.md's table of OPEN parameters: 2 ≤ MAX_FFT_LOG2 ≤ 28, CORE_BASE 256-byte aligned. -/
abbrev Config.wf (c : Config) : Prop :=
  2 ≤ c.maxFftLog2 ∧ c.maxFftLog2 ≤ 28 ∧ c.coreBase % 256 = 0

/-- The parameters at State.reset: those of 95_test_vectors.md's conventions (NMAX = 16, `mem_valid` for the addresses below
0x10000, the reference `mag_fn`). DESIGN CHOICE (log entry 1), unsafe: the spec leaves them to the platform. -/
def Config.reference : Config :=
  { maxFftLog2 := 4, memMap := [⟨0, 0x10000⟩], coreBase := 0, mag := .reference }

/-- The free 32-bit value number `n`: a host read of PC, VL or X0 … X15 while RUN (10_state.md R52, U7). No body: nothing can
prove what it is (log entry 5). -/
opaque Config.freeWord (n : Nat) : Word

/-- The free byte number `n`: what a host load of a raced byte returns (20_memory.md R78, U9). No body (log entries 5, 6). -/
opaque Config.freeByte (n : Nat) : Byte

/-- What the command whose free values start at number `n` reads, in its read number `k`, from a raced byte at address `a`
(20_memory.md R78, U9): two reads of one byte may differ, within one command too (R61). No body (log entries 5, 6). -/
opaque Config.racedByte (n k a : Nat) : Byte

/-- The free choice number `n` among several bytes: the content of a byte that host and CORE both wrote (20_memory.md R78), and of one
that an abandoned command would write (70_reset_and_hazards.md R250, U10). No body (log entries 5, 6, 8). -/
opaque Config.freeChoice (n : Nat) : Nat

/-- The free number `n`: how many commands more than 2^64 a run is followed alone for the races that are still to come (20_memory.md R78,
U9). No body (log entries 5, 6). -/
opaque Config.freeSight (n : Nat) : Nat

/-- Where, within MAG_TOL, instance `n` of the magnitude function lies at (x, y): 0, 1 or 2 stands for isqrt(x² + y²) − 1, + 0
or + 1. No body (log entry 3). -/
opaque Config.magDeviation (n : Nat) (x y : Int) : Fin 3

end Sys2Proof
end

