-- ==== Sys2Proof/Syntax.lean ====
section
/-! DEFINITION. The commands of CORE-CMD version 1: one constructor for each row of spec/opcode_table.json, with the operand
fields the row has (spec/30_encoding.md R86, R91). A row is a mnemonic and an element type. -/

namespace Sys2Proof

/-- The element types of 00_scope.md R14, which the 2-bit field ty selects. -/
inductive ElemTy where
  | s16 | s32 | c16 | c32
deriving DecidableEq, Repr

/-- A CORE command. A field is named as in 30_encoding.md R86: d, a, b, c, s, t select registers, imm16 and imm20 are the
immediates before extension (R87). -/
inductive Instr where
  /-- HALT (R111). -/
  | halt
  /-- LUI (R112). -/
  | lui (d : Reg) (imm20 : BitVec 20)
  /-- ADDI (R113). -/
  | addi (d a : Reg) (imm16 : BitVec 16)
  /-- ADD (R114). -/
  | add (d a b : Reg)
  /-- SUB (R115). -/
  | sub (d a b : Reg)
  /-- LW (R116). -/
  | lw (d a : Reg) (imm16 : BitVec 16)
  /-- SW (R117). -/
  | sw (d a : Reg) (imm16 : BitVec 16)
  /-- BEQ (R118). -/
  | beq (d a : Reg) (imm16 : BitVec 16)
  /-- BNE (R119). -/
  | bne (d a : Reg) (imm16 : BitVec 16)
  /-- SETVL (R121). -/
  | setvl (a : Reg)
  /-- HRS.s16 (R122). -/
  | hrsS16 (d a : Reg)
  /-- HRS.s32 (R122). -/
  | hrsS32 (d a : Reg)
  /-- CALC.ADD.s16 (R136). -/
  | calcAddS16 (d b c s t : Reg)
  /-- CALC.ADD.s32 (R136). -/
  | calcAddS32 (d b c s t : Reg)
  /-- CALC.ADD.c16 (R136). -/
  | calcAddC16 (d b c s t : Reg)
  /-- CALC.ADD.c32 (R136). -/
  | calcAddC32 (d b c s t : Reg)
  /-- CALC.MUL.s16 (R138). -/
  | calcMulS16 (d b c s t : Reg)
  /-- CALC.MUL.s32 (R138). -/
  | calcMulS32 (d b c s t : Reg)
  /-- CALC.CMUL.c16 (R139). -/
  | calcCmulC16 (d b c s t : Reg)
  /-- CALC.CMUL.c32 (R139). -/
  | calcCmulC32 (d b c s t : Reg)
  /-- CALC.SCALE.s16 (R140). -/
  | calcScaleS16 (d b c s t : Reg)
  /-- CALC.SCALE.s32 (R140). -/
  | calcScaleS32 (d b c s t : Reg)
  /-- CALC.SCALE.c16 (R140). -/
  | calcScaleC16 (d b c s t : Reg)
  /-- CALC.SCALE.c32 (R140). -/
  | calcScaleC32 (d b c s t : Reg)
  /-- CALC.MAG.c16 (R141). -/
  | calcMagC16 (d b s : Reg)
  /-- CALC.MAG.c32 (R141). -/
  | calcMagC32 (d b s : Reg)
  /-- CALC.SQMAG.c16 (R142). -/
  | calcSqmagC16 (d b s : Reg)
  /-- CALC.SQMAG.c32 (R142). -/
  | calcSqmagC32 (d b s : Reg)
  /-- VSHL.s16 (R162). -/
  | vshlS16 (d a b s : Reg)
  /-- VSHL.s32 (R162). -/
  | vshlS32 (d a b s : Reg)
  /-- VSHL.c16 (R162). -/
  | vshlC16 (d a b s : Reg)
  /-- VSHL.c32 (R162). -/
  | vshlC32 (d a b s : Reg)
  /-- VADD.s16 (R163). -/
  | vaddS16 (d a b c s t : Reg)
  /-- VADD.s32 (R163). -/
  | vaddS32 (d a b c s t : Reg)
  /-- VADD.c16 (R163). -/
  | vaddC16 (d a b c s t : Reg)
  /-- VADD.c32 (R163). -/
  | vaddC32 (d a b c s t : Reg)
  /-- VSUB.s16 (R164). -/
  | vsubS16 (d a b c s t : Reg)
  /-- VSUB.s32 (R164). -/
  | vsubS32 (d a b c s t : Reg)
  /-- VSUB.c16 (R164). -/
  | vsubC16 (d a b c s t : Reg)
  /-- VSUB.c32 (R164). -/
  | vsubC32 (d a b c s t : Reg)
  /-- VMUL.s16 (R165). -/
  | vmulS16 (d a b c s : Reg)
  /-- VMUL.s32 (R165). -/
  | vmulS32 (d a b c s : Reg)
  /-- VCMUL.c16 (R166). -/
  | vcmulC16 (d a b c s : Reg)
  /-- VCMUL.c32 (R166). -/
  | vcmulC32 (d a b c s : Reg)
  /-- VCMULC.c16 (R167). -/
  | vcmulcC16 (d a b c s : Reg)
  /-- VCMULC.c32 (R167). -/
  | vcmulcC32 (d a b c s : Reg)
  /-- VSCALE.s16 (R168). -/
  | vscaleS16 (d a b c s : Reg)
  /-- VSCALE.s32 (R168). -/
  | vscaleS32 (d a b c s : Reg)
  /-- VSCALE.c16 (R168). -/
  | vscaleC16 (d a b c s : Reg)
  /-- VSCALE.c32 (R168). -/
  | vscaleC32 (d a b c s : Reg)
  /-- VMAG.c16 (R169). -/
  | vmagC16 (d a b s : Reg)
  /-- VMAG.c32 (R169). -/
  | vmagC32 (d a b s : Reg)
  /-- VSQMAG.c16 (R170). -/
  | vsqmagC16 (d a b s : Reg)
  /-- VSQMAG.c32 (R170). -/
  | vsqmagC32 (d a b s : Reg)
  /-- VHR.s16 (R171). -/
  | vhrS16 (d b : Reg)
  /-- VHR.s32 (R171). -/
  | vhrS32 (d b : Reg)
  /-- VHR.c16 (R171). -/
  | vhrC16 (d b : Reg)
  /-- VHR.c32 (R171). -/
  | vhrC32 (d b : Reg)
  /-- VBITREV.c32 (R197). -/
  | vbitrevC32 (a : Reg)
  /-- FFTF.c32 (R200). -/
  | fftfC32 (d a b : Reg)
  /-- FFTI.c32 (R201). -/
  | fftiC32 (d a b : Reg)
deriving DecidableEq, Repr

end Sys2Proof
end

