-- ==== Sys2Proof/Machine/Arith.lean ====
section
/-! DEFINITION. The arithmetic of spec/00_scope.md §5 on mathematical integers: saturation, signed shift, headroom, integer square
root, bit reversal, and the magnitude parameter. Registers and memory hold bit patterns; these functions see their values. -/

namespace Sys2Proof.Machine

/-- BITS(ty) (00_scope.md R14). -/
def bits : ElemTy → Nat
  | .s16 | .c16 => 16
  | .s32 | .c32 => 32

/-- cplx(ty) (00_scope.md R14). -/
def isComplex : ElemTy → Bool
  | .s16 | .s32 => false
  | .c16 | .c32 => true

/-- The real type of the same width: the output type of VMAG and VSQMAG (42_kernels.md R160). -/
def realType : ElemTy → ElemTy
  | .s16 | .c16 => .s16
  | .s32 | .c32 => .s32

/-- MINB = −2^(B−1) (00_scope.md R15). -/
def minB (B : Nat) : Int := -2 ^ (B - 1)

/-- MAXB = 2^(B−1) − 1 (00_scope.md R15). -/
def maxB (B : Nat) : Int := 2 ^ (B - 1) - 1

/-- sat_B (00_scope.md R15). -/
def sat (B : Nat) (v : Int) : Int :=
  if v < minB B then minB B else if maxB B < v then maxB B else v

/-- shr(v, s): floor(v / 2^s) for s ≥ 0, v × 2^(−s) for s < 0 (00_scope.md R16). The shift of an `Int` to the right is floor
division by the power of two, whatever the amount. -/
def shr (v s : Int) : Int :=
  if 0 ≤ s then v >>> s.toNat else v * 2 ^ (-s).toNat

/-- s32(w): the two's-complement value of a pattern (00_scope.md R12). -/
def s32 (w : Word) : Int := w.toInt

/-- u32(w) (00_scope.md R12). -/
def u32 (w : Word) : Nat := w.toNat

/-- wrap32(v): the pattern written when an integer is stored into 32 bits (00_scope.md R12). -/
def wrap32 (v : Int) : Word := BitVec.ofInt 32 v

/-- sext_N of the low N bits of a pattern (00_scope.md R12). -/
def sext (N : Nat) (w : Word) : Int := (BitVec.ofNat N w.toNat).toInt

/-- How many of the bits k−1, k−2, … of `u`, counting down without a gap, equal `b`. -/
def runLength (u : Nat) (b : Bool) : Nat → Nat
  | 0 => 0
  | k + 1 => if u.testBit k == b then runLength u b k + 1 else 0

/-- cls_B(m): the bits of the B-bit pattern of m, from bit B−1 down, that equal bit B−1, the sign bit included (00_scope.md R17). -/
def cls (B : Nat) (m : Int) : Nat :=
  let u := (BitVec.ofInt B m).toNat
  runLength u (u.testBit (B - 1)) B

/-- hr_B(m) = cls_B(m) − 1 (00_scope.md R17; conflict C1). -/
def hr (B : Nat) (m : Int) : Nat := cls B m - 1

/-- The greatest r' in [r, r + 2^k) with p r', for a p that holds at r and, once false, stays false: one bit at a time. -/
def bitSearch (p : Nat → Bool) : Nat → Nat → Nat
  | 0, r => r
  | k + 1, r => if p (r + 2 ^ k) then bitSearch p k (r + 2 ^ k) else bitSearch p k r

/-- isqrt(n): the greatest r ≥ 0 with r² ≤ n (00_scope.md R19). -/
def isqrt (n : Nat) : Nat := bitSearch (fun r => decide (r * r ≤ n)) (n.log2 / 2 + 1) 0

/-- log2(N), used for N a power of two (00_scope.md R19). -/
def log2 (N : Nat) : Nat := N.log2

/-- N is a power of two (43_fft.md R195). -/
def isPow2 (N : Nat) : Bool := N == 2 ^ N.log2

/-- rev_L(i): bit j of the result is bit L−1−j of i (00_scope.md R19). -/
def rev : Nat → Nat → Nat
  | 0, _ => 0
  | L + 1, i => (i % 2) * 2 ^ L + rev L (i / 2)

/-- isqrt(x² + y²), the reference instance of mag_fn (00_scope.md R6). -/
def magReference (x y : Int) : Nat := isqrt (x.natAbs * x.natAbs + y.natAbs * y.natAbs)

/-- mag_fn (00_scope.md R6): the reference instance, or an instance that is off by at most one and never negative (MAG_TOL) and of
which nothing else is known (log entry 3). -/
def magFn (m : MagInstance) (x y : Int) : Int :=
  match m with
  | .reference => magReference x y
  | .tuned n => max 0 ((magReference x y : Int) + (Config.magDeviation n x y).val - 1)

end Sys2Proof.Machine
end

