-- ==== Sys2Proof/Machine/State.lean ====
section
/-! DEFINITION. The state of the CORE (spec/10_state.md R55), the shared memory, the parameters of the build and the platform, and
what the model adds for the host's side; the state after reset (R54); the reasons a step can stop without a next state. -/

namespace Sys2Proof.Machine

/-- The sequencer's run state (10_state.md R35). -/
inductive RunState where
  | idle
  | run
deriving DecidableEq, Repr

/-- What STATUS.CAUSE holds (60_exceptions.md R221); `none` is code 0. The codes 9 to 15 are never produced (U16). -/
inductive Cause where
  | none
  | fetchAlign
  | fetchBus
  | illegal
  | badLength
  | dataAlign
  | dataBus
  | expOverflow
  | aborted
deriving DecidableEq, Repr

/-- A fault about to be raised: its cause and the FINFO information of its row in 60_exceptions.md R221. -/
structure Trap where
  cause : Cause
  info : Word
deriving DecidableEq, Repr

/-- One move of the host or the platform (10_state.md R30; log entry 4). `pass` lets the sequencer move; `write` and `read` are
32-bit accesses at a host address (R40, R50); `store` and `load` access one byte of the shared memory (20_memory.md R60); `reset`
is the reset input (70_reset_and_hazards.md R250). `foretell` is the model's own word: it names a byte that host and CORE may race for
(20_memory.md R78) only because one of them reads any value there (log entry 6). -/
inductive HostAct where
  | pass
  | write (addr : Nat) (v : Word)
  | read (addr : Nat)
  | store (addr : Word) (b : Byte)
  | load (addr : Word)
  | reset
  | foretell (addr : Word)
deriving DecidableEq, Repr

/-- The shared memory: the listed bytes, addresses strictly rising, no entry equal to what an unlisted address reads as
(`Memory.unlisted`). It covers all 2^32 addresses of 20_memory.md R60. -/
abbrev Memory := List Host.Cell

/-- What the present run and the host have accessed, by which their races are known (20_memory.md R78; log entry 6). -/
structure Race where
  /-- Bytes that the host's moves named (`HostAct.foretell`). -/
  named : List Nat
  /-- Bytes that the run and the host will race for. -/
  foretold : List Nat
  /-- The races of the present run have been looked for. -/
  foreseen : Bool
  /-- Bytes the host stored to during the run. -/
  hostStored : List Nat
  /-- Bytes the host loaded during the run. -/
  hostLoaded : List Nat
  /-- What the run has read, its command words included. -/
  runRead : List Span
  /-- What the run has written. -/
  runWrote : List Span
deriving DecidableEq, Repr

/-- No access yet, and none foretold. -/
def Race.none : Race :=
  { named := [], foretold := [], foreseen := false, hostStored := [], hostLoaded := [], runRead := [], runWrote := [] }

/-- The machine. The fields down to `abortReq` are the record of 10_state.md R55; `mem` is the shared memory (20_memory.md);
`cfg` holds the parameters, which no step changes (log entry 1). The last four are the model's own: the host's pending moves
(log entry 4), what its last read returned (log entry 4), the accesses of the present run and of the host during it (log entry 6),
and how many free values have been drawn (log entry 5). -/
structure State where
  /-- x[1] … x[15] (R31); x[0] has no storage. -/
  regs : Vector Word 15
  /-- The program counter (R33). -/
  pc : Word
  /-- The vector length (R34). -/
  vl : Word
  /-- The run state, STATUS.BUSY (R35). -/
  run : RunState
  /-- CTRL.ALLOW_SAT (R41). -/
  allowSat : Bool
  /-- CTRL.IRQ_EN (R41). -/
  irqEn : Bool
  /-- STATUS.DONE (R42). -/
  doneBit : Bool
  /-- STATUS.FAULT (R42). -/
  faultBit : Bool
  /-- STATUS.CAUSE (R42). -/
  cause : Cause
  /-- EPC (R47). -/
  epc : Word
  /-- FINFO (R48). -/
  finfo : Word
  /-- The hidden abort request (R37). -/
  abortReq : Bool
  mem : Memory
  cfg : Config
  hostQueue : List HostAct
  hostData : Word
  race : Race
  freeCount : Nat
deriving DecidableEq, Repr

/-- Why the machine stops with a fault: it never does. Every fault the spec describes is a precise stop of the sequencer that the
host can see and restart (60_exceptions.md R222, R225), which is a next state. -/
inductive Fault where
deriving DecidableEq, Repr

/-- Why a step has no meaning. -/
inductive Refusal where
  /-- Raised by an arm of `exec` for a command that has no meaning yet. Safe: nothing can be proved of it. -/
  | notModelled (mnemonic : String)
  /-- Raised by a host window access that is misaligned or outside the 256-byte window: the host must not make one, and a model
  gives it no move (10_state.md R50, 93_implementation_defined.md U8). Safe. -/
  | hostAccess
deriving DecidableEq, Repr

/-- The CORE after reset, every field as 10_state.md R54 says, with parameters `c` and shared memory `m`, which reset does not
touch. The model's own fields are empty (log entries 4 to 6). -/
def State.afterReset (c : Config) (m : Memory) : State :=
  { regs := Vector.replicate 15 0#32, pc := 0#32, vl := 0#32, run := .idle, allowSat := false, irqEn := false,
    doneBit := false, faultBit := false, cause := .none, epc := 0#32, finfo := 0#32, abortReq := false,
    mem := m, cfg := c, hostQueue := [], hostData := 0#32, race := .none, freeCount := 0 }

/-- The machine right after reset (R54), with the parameters of 95_test_vectors.md and nothing listed in memory (log entries
1 and 2). -/
def State.reset : State := State.afterReset Config.reference []

end Sys2Proof.Machine
end

