-- ==== Sys2Proof/Machine/Ops.lean ====
section
/-! DEFINITION. The operations every command is built from: the shared memory and its reachable ranges (spec/20_memory.md), the
register file (10_state.md R31), fault entry, abort, halt and restart (60_exceptions.md R222-R226, 40_sequencer.md R111), and the
values that races and resets leave open (20_memory.md R78, 70_reset_and_hazards.md R250). -/

namespace Sys2Proof.Machine

/-! ### Memory -/

/-- What an address that is not listed reads as. DESIGN CHOICE (log entry 2), unsafe: the launch contents are the platform's. -/
def Memory.unlisted : Byte := 0#8

/-- Mem[a]: one byte (20_memory.md R60). -/
def Memory.read : Memory → Nat → Byte
  | [], _ => Memory.unlisted
  | (k, b) :: rest, a => if k = a then b else Memory.read rest a

/-- The memory without an entry for `a`. -/
def Memory.drop (m : Memory) (a : Nat) : Memory := m.filter (fun c => c.1 != a)

/-- A new entry, before the first greater address. -/
def Memory.insert : Memory → Nat → Byte → Memory
  | [], a, b => [(a, b)]
  | (k, c) :: rest, a, b => if a < k then (a, b) :: (k, c) :: rest else (k, c) :: Memory.insert rest a b

/-- Mem[a] <- b, in canonical form: a byte that reads as an unlisted one is not listed. -/
def Memory.write (m : Memory) (a : Nat) (b : Byte) : Memory :=
  if b = Memory.unlisted then m.drop a else (m.drop a).insert a b

/-- The canonical form: addresses strictly rising and within the 2^32 of 20_memory.md R60, no entry that reads as an unlisted
address does. -/
abbrev Memory.wf (m : Memory) : Prop :=
  m.Pairwise (fun x y => x.1 < y.1) ∧ ∀ c ∈ m, c.2 ≠ Memory.unlisted ∧ c.1 < 2 ^ 32

/-- MemRead(a, n): n bytes, little-endian (20_memory.md R62). -/
def Memory.readLE (m : Memory) (a : Nat) : Nat → Nat
  | 0 => 0
  | n + 1 => (m.read a).toNat + 2 ^ 8 * Memory.readLE m (a + 1) n

/-- MemWrite(a, n, v): the low n bytes of v, little-endian, the lowest address first (20_memory.md R62). -/
def Memory.writeLE (m : Memory) (a : Nat) : Nat → Nat → Memory
  | 0, _ => m
  | n + 1, v => Memory.writeLE (m.write a (BitVec.ofNat 8 v)) (a + 1) n (v / 2 ^ 8)

/-- The 32-bit word at `a` (20_memory.md R62). -/
def Memory.readWord (m : Memory) (a : Nat) : Word := BitVec.ofNat 32 (m.readLE a 4)

/-- The address lies in one of the spans. -/
def inSpans (sp : List Span) (a : Nat) : Bool := sp.any (fun p => decide (p.base ≤ a ∧ a < p.base + p.len))

/-- mem_valid(a) (00_scope.md R7). -/
def memValid (c : Config) (a : Nat) : Bool := inSpans c.memMap a

/-- Every address of [lo, hi) lies in one of the spans: what the first span leaves over, below and above it, lies in the rest. -/
def covered : List Span → Nat → Nat → Bool
  | [], lo, hi => decide (hi ≤ lo)
  | p :: rest, lo, hi =>
    decide (hi ≤ lo) || (covered rest lo (min hi p.base) && covered rest (max lo (p.base + p.len)) hi)

/-- The range [start, start + len) is valid: it is empty, or ends at or below 2^32 with `mem_valid` for every address in it
(20_memory.md R67). -/
def rangeValid (c : Config) (start len : Nat) : Bool :=
  len == 0 || (decide (start + len ≤ 2 ^ 32) && covered c.memMap start (start + len))

/-! ### Registers -/

/-- x[n]; x[0] reads 0 (10_state.md R31). -/
def State.reg (s : State) (n : Reg) : Word :=
  if h : n.val = 0 then 0#32 else s.regs[n.val - 1]'(by omega)

/-- x[n] <- v; a write to x[0] has no effect (10_state.md R31, 00_scope.md R13). -/
def State.setReg (s : State) (n : Reg) (v : Word) : State :=
  if h : n.val = 0 then s else { s with regs := s.regs.set (n.val - 1) v (by omega) }

/-- x[d], x[d+1], … <- the results in order (30_encoding.md R89). -/
def State.setGroup (s : State) (d : Reg) : List Word → State
  | [] => s
  | v :: rest => State.setGroup (s.setReg d v) (d + 1) rest

/-- The shared memory replaced. -/
def State.setMem (s : State) (m : Memory) : State := { s with mem := m }

/-- next PC <- wrap32(pc + 4), the default end of a command (40_sequencer.md R110). -/
def State.advance (s : State) : State := { s with pc := s.pc + 4#32 }

/-- next PC <- wrap32(pc + 4 × sext_16(imm16)) (40_sequencer.md R118; 30_encoding.md R87). -/
def State.branch (s : State) (imm16 : BitVec 16) : State := { s with pc := s.pc + wrap32 (4 * imm16.toInt) }

/-! ### Faults, abort, halt and restart -/

/-- STATUS.CAUSE's code (60_exceptions.md R221). -/
def Cause.code : Cause → BitVec 4
  | .none => 0#4
  | .fetchAlign => 1#4
  | .fetchBus => 2#4
  | .illegal => 3#4
  | .badLength => 4#4
  | .dataAlign => 5#4
  | .dataBus => 6#4
  | .expOverflow => 7#4
  | .aborted => 8#4

/-- Fault entry (60_exceptions.md R222): EPC, FINFO, CAUSE and FAULT are written, the run ends, a pending abort is dropped; PC and
everything else stay. -/
def State.raise (s : State) (t : Trap) : State :=
  { s with epc := s.pc, finfo := t.info, cause := t.cause, faultBit := true, run := .idle, abortReq := false }

/-- The abort taken at a command boundary (60_exceptions.md R226): EPC is the address of the next command, FINFO is 0. -/
def State.abort (s : State) : State :=
  { s with epc := s.pc, finfo := 0#32, cause := .aborted, faultBit := true, run := .idle, abortReq := false }

/-- HALT's effect (40_sequencer.md R111). -/
def State.halt (s : State) : State :=
  { s with pc := s.pc + 4#32, run := .idle, doneBit := true, abortReq := false }

/-- The start sequence of CTRL.START while IDLE (10_state.md R41), which is also the restart after a fault (60_exceptions.md R225):
nothing but the status bits changes, and the run goes on at PC. -/
def State.start (s : State) : State :=
  { s with doneBit := false, faultBit := false, cause := .none, abortReq := false, run := .run }

/-- A command that may fault: the fault's entry, or else its effect. -/
def orTrap (t : Option Trap) (s : State) (effect : State) : Host.Outcome State Fault Refusal :=
  match t with
  | some t => .next (s.raise t)
  | none => .next effect

/-! ### Values the spec leaves open -/

/-- The bytes that every command of the run reads as free values (20_memory.md R78; log entry 6): those that host and run will race for,
those the host stored to, and those it loaded and the run has written. -/
def State.clouded (s : State) : List Nat :=
  s.race.foretold ++ (s.race.hostStored ++ s.race.hostLoaded.filter (inSpans s.race.runWrote))

/-- Memory, to read from, with a free value at each of the addresses. -/
def cloud (n k : Nat) : List Nat → Memory → Memory
  | [], m => m
  | a :: rest, m => (a, Config.racedByte n k a) :: cloud n k rest m

/-- Memory as the CORE's read number `k` of the present command sees it: every CORE read of a raced byte returns any value
(20_memory.md R78), and of another what memory holds. -/
def State.view (s : State) (m : Memory) (k : Nat) : Memory := cloud s.freeCount k s.clouded m

/-- One of the bytes, freely. -/
def pick (n : Nat) (b : Byte) (bs : List Byte) : Byte := (b :: bs).getD (Config.freeChoice n % (bs.length + 1)) b

/-- Mem[a] <- one of the bytes, freely (log entries 6 and 8). -/
def State.oneByteAt (s : State) (a : Nat) (b : Byte) (bs : List Byte) : State :=
  { s with mem := s.mem.write a (pick s.freeCount b bs), freeCount := s.freeCount + 1 }

/-- The bytes that a list of byte writes puts at an address. -/
def bytesAt (log : List Host.Cell) (a : Nat) : List Byte := (log.filter (fun c => c.1 == a)).map Prod.snd

/-- At each of the addresses, the byte of `m` or one that a list of byte writes puts there, freely. -/
def State.oneOfWritesAt (s : State) (m : Memory) (log : List Host.Cell) : List Nat → State
  | [] => s
  | a :: rest => State.oneOfWritesAt (s.oneByteAt a (m.read a) (bytesAt log a)) m log rest

end Sys2Proof.Machine
end

