-- ==== Sys2Proof/Machine/Flags.lean ====
section
/-! DEFINITION. The CORE has no arithmetic flags (spec/10_state.md R36). Its flag bits are those of CTRL and STATUS; here are the
words the host reads, what a write to them does, and the interrupt output (R40-R44, R53). -/

namespace Sys2Proof.Machine

/-- ID: "BFP1" (10_state.md R44). -/
def idWord : Word := 0x42465031#32

/-- CFG: MAX_FFT_LOG2 in bits 4:0, the rest 0 (10_state.md R43). -/
def cfgWord (c : Config) : Word := (BitVec.ofNat 5 c.maxFftLog2).setWidth 32

/-- CTRL as read: START and ABORT read 0 (10_state.md R41). -/
def ctrlWord (s : State) : Word :=
  0#29 ++ BitVec.ofBool s.irqEn ++ BitVec.ofBool s.allowSat ++ 0#1

/-- STATUS as read (10_state.md R42). -/
def statusWord (s : State) : Word :=
  0#20 ++ s.cause.code ++ 0#5 ++ BitVec.ofBool s.faultBit ++ BitVec.ofBool s.doneBit ++ BitVec.ofBool (decide (s.run = .run))

/-- The interrupt output (10_state.md R53). -/
def irq (s : State) : Bool := s.irqEn && (s.doneBit || s.faultBit)

/-- A write to CTRL (10_state.md R41). While IDLE: ALLOW_SAT and IRQ_EN, then the start sequence where bit 0 is 1. While RUN: IRQ_EN,
then the abort request where bit 3 is 1. -/
def State.writeCtrl (s : State) (v : Word) : State :=
  match s.run with
  | .idle =>
    let s' := { s with allowSat := v.getLsbD 1, irqEn := v.getLsbD 2 }
    if v.getLsbD 0 then s'.start else s'
  | .run =>
    { s with irqEn := v.getLsbD 2, abortReq := v.getLsbD 3 || s.abortReq }

/-- A write to STATUS: 1 in bit 1 clears DONE, 1 in bit 2 clears FAULT and CAUSE (10_state.md R42). -/
def State.writeStatus (s : State) (v : Word) : State :=
  { s with
    doneBit := !v.getLsbD 1 && s.doneBit
    faultBit := !v.getLsbD 2 && s.faultBit
    cause := if v.getLsbD 2 then .none else s.cause }

end Sys2Proof.Machine
end

