-- ==== Sys2Proof/WellFormed.lean ====
section
/-! DEFINITION. Which commands are legal beyond their fields' widths: the two conditions of spec/30_encoding.md R92 that an
`Instr` can break (its items 4 and 5). Items 1 to 3 are about words and stand in Decode.lean. -/

namespace Sys2Proof

/-- A c16 vector operand names the register pair (x[n], x[n+1]) and n is even (30_encoding.md R88). -/
def Reg.pairEven (n : Reg) : Bool := n.val % 2 == 0

/-- A group of k results x[d] … x[d+k−1] stays within x[15] (30_encoding.md R89). -/
def Reg.groupFits (k : Nat) (d : Reg) : Bool := decide (d.val + k ≤ 16)

/-- Every c16 vector operand field is even (R92 item 4). The output of VMAG and VSQMAG is real and the c field of VSCALE is a
scalar, so neither has a parity rule (R91). -/
def Instr.pairsEven : Instr → Bool
  | .halt => true
  | .lui _ _ => true
  | .addi _ _ _ => true
  | .add _ _ _ => true
  | .sub _ _ _ => true
  | .lw _ _ _ => true
  | .sw _ _ _ => true
  | .beq _ _ _ => true
  | .bne _ _ _ => true
  | .setvl _ => true
  | .hrsS16 _ _ => true
  | .hrsS32 _ _ => true
  | .calcAddS16 _ _ _ _ _ => true
  | .calcAddS32 _ _ _ _ _ => true
  | .calcAddC16 _ _ _ _ _ => true
  | .calcAddC32 _ _ _ _ _ => true
  | .calcMulS16 _ _ _ _ _ => true
  | .calcMulS32 _ _ _ _ _ => true
  | .calcCmulC16 _ _ _ _ _ => true
  | .calcCmulC32 _ _ _ _ _ => true
  | .calcScaleS16 _ _ _ _ _ => true
  | .calcScaleS32 _ _ _ _ _ => true
  | .calcScaleC16 _ _ _ _ _ => true
  | .calcScaleC32 _ _ _ _ _ => true
  | .calcMagC16 _ _ _ => true
  | .calcMagC32 _ _ _ => true
  | .calcSqmagC16 _ _ _ => true
  | .calcSqmagC32 _ _ _ => true
  | .vshlS16 _ _ _ _ => true
  | .vshlS32 _ _ _ _ => true
  | .vshlC16 _ a b _ => Reg.pairEven a && Reg.pairEven b
  | .vshlC32 _ _ _ _ => true
  | .vaddS16 _ _ _ _ _ _ => true
  | .vaddS32 _ _ _ _ _ _ => true
  | .vaddC16 _ a b c _ _ => Reg.pairEven a && Reg.pairEven b && Reg.pairEven c
  | .vaddC32 _ _ _ _ _ _ => true
  | .vsubS16 _ _ _ _ _ _ => true
  | .vsubS32 _ _ _ _ _ _ => true
  | .vsubC16 _ a b c _ _ => Reg.pairEven a && Reg.pairEven b && Reg.pairEven c
  | .vsubC32 _ _ _ _ _ _ => true
  | .vmulS16 _ _ _ _ _ => true
  | .vmulS32 _ _ _ _ _ => true
  | .vcmulC16 _ a b c _ => Reg.pairEven a && Reg.pairEven b && Reg.pairEven c
  | .vcmulC32 _ _ _ _ _ => true
  | .vcmulcC16 _ a b c _ => Reg.pairEven a && Reg.pairEven b && Reg.pairEven c
  | .vcmulcC32 _ _ _ _ _ => true
  | .vscaleS16 _ _ _ _ _ => true
  | .vscaleS32 _ _ _ _ _ => true
  | .vscaleC16 _ a b _ _ => Reg.pairEven a && Reg.pairEven b
  | .vscaleC32 _ _ _ _ _ => true
  | .vmagC16 _ _ b _ => Reg.pairEven b
  | .vmagC32 _ _ _ _ => true
  | .vsqmagC16 _ _ b _ => Reg.pairEven b
  | .vsqmagC32 _ _ _ _ => true
  | .vhrS16 _ _ => true
  | .vhrS32 _ _ => true
  | .vhrC16 _ b => Reg.pairEven b
  | .vhrC32 _ _ => true
  | .vbitrevC32 _ => true
  | .fftfC32 _ _ _ => true
  | .fftiC32 _ _ _ => true

/-- The register group of a calculator, FFTF or FFTI passes no further than x[15] (R92 item 5). -/
def Instr.groupFits : Instr → Bool
  | .halt => true
  | .lui _ _ => true
  | .addi _ _ _ => true
  | .add _ _ _ => true
  | .sub _ _ _ => true
  | .lw _ _ _ => true
  | .sw _ _ _ => true
  | .beq _ _ _ => true
  | .bne _ _ _ => true
  | .setvl _ => true
  | .hrsS16 _ _ => true
  | .hrsS32 _ _ => true
  | .calcAddS16 d _ _ _ _ => Reg.groupFits 3 d
  | .calcAddS32 d _ _ _ _ => Reg.groupFits 3 d
  | .calcAddC16 d _ _ _ _ => Reg.groupFits 3 d
  | .calcAddC32 d _ _ _ _ => Reg.groupFits 3 d
  | .calcMulS16 d _ _ _ _ => Reg.groupFits 2 d
  | .calcMulS32 d _ _ _ _ => Reg.groupFits 2 d
  | .calcCmulC16 d _ _ _ _ => Reg.groupFits 2 d
  | .calcCmulC32 d _ _ _ _ => Reg.groupFits 2 d
  | .calcScaleS16 d _ _ _ _ => Reg.groupFits 2 d
  | .calcScaleS32 d _ _ _ _ => Reg.groupFits 2 d
  | .calcScaleC16 d _ _ _ _ => Reg.groupFits 2 d
  | .calcScaleC32 d _ _ _ _ => Reg.groupFits 2 d
  | .calcMagC16 d _ _ => Reg.groupFits 2 d
  | .calcMagC32 d _ _ => Reg.groupFits 2 d
  | .calcSqmagC16 d _ _ => Reg.groupFits 2 d
  | .calcSqmagC32 d _ _ => Reg.groupFits 2 d
  | .vshlS16 _ _ _ _ => true
  | .vshlS32 _ _ _ _ => true
  | .vshlC16 _ _ _ _ => true
  | .vshlC32 _ _ _ _ => true
  | .vaddS16 _ _ _ _ _ _ => true
  | .vaddS32 _ _ _ _ _ _ => true
  | .vaddC16 _ _ _ _ _ _ => true
  | .vaddC32 _ _ _ _ _ _ => true
  | .vsubS16 _ _ _ _ _ _ => true
  | .vsubS32 _ _ _ _ _ _ => true
  | .vsubC16 _ _ _ _ _ _ => true
  | .vsubC32 _ _ _ _ _ _ => true
  | .vmulS16 _ _ _ _ _ => true
  | .vmulS32 _ _ _ _ _ => true
  | .vcmulC16 _ _ _ _ _ => true
  | .vcmulC32 _ _ _ _ _ => true
  | .vcmulcC16 _ _ _ _ _ => true
  | .vcmulcC32 _ _ _ _ _ => true
  | .vscaleS16 _ _ _ _ _ => true
  | .vscaleS32 _ _ _ _ _ => true
  | .vscaleC16 _ _ _ _ _ => true
  | .vscaleC32 _ _ _ _ _ => true
  | .vmagC16 _ _ _ _ => true
  | .vmagC32 _ _ _ _ => true
  | .vsqmagC16 _ _ _ _ => true
  | .vsqmagC32 _ _ _ _ => true
  | .vhrS16 _ _ => true
  | .vhrS32 _ _ => true
  | .vhrC16 _ _ => true
  | .vhrC32 _ _ => true
  | .vbitrevC32 _ => true
  | .fftfC32 d _ _ => Reg.groupFits 2 d
  | .fftiC32 d _ _ => Reg.groupFits 2 d

/-- A legal command (30_encoding.md R92). -/
def Instr.wellFormed (i : Instr) : Bool := i.pairsEven && i.groupFits

end Sys2Proof
end

