-- ==== Sys2Proof/Decode.lean ====
section
/-! DEFINITION. From words to commands and back (spec/30_encoding.md). Decoding is total on every word and on every list of
bytes, and names the condition of R92 that fails; the encoder writes the word of a command from the same tables. -/

namespace Sys2Proof

/-- Why a word is ILLEGAL (30_encoding.md R92); `truncated` is a byte list shorter than one command (R85). Every reason has the
same effect, the fault ILLEGAL (60_exceptions.md R223). -/
inductive Illegal where
  | unallocatedOp
  | typeNotAdmitted
  | unusedField
  | oddPair
  | groupOverrun
  | truncated
deriving DecidableEq, Repr

/-- The bit fields of a command word (30_encoding.md R86, format R; the immediates are the low four or five of them). -/
structure Fields where
  op : BitVec 6
  ty : BitVec 2
  d : BitVec 4
  a : BitVec 4
  b : BitVec 4
  c : BitVec 4
  s : BitVec 4
  t : BitVec 4
deriving DecidableEq, Repr

/-- op = bits 31:26, ty = 25:24, d = 23:20, a = 19:16, b = 15:12, c = 11:8, s = 7:4, t = 3:0 (R86). -/
def fieldsOf (w : Word) : Fields :=
  { op := w.extractLsb' 26 6, ty := w.extractLsb' 24 2, d := w.extractLsb' 20 4, a := w.extractLsb' 16 4,
    b := w.extractLsb' 12 4, c := w.extractLsb' 8 4, s := w.extractLsb' 4 4, t := w.extractLsb' 0 4 }

/-- The word with these fields (R86). -/
def wordOf (f : Fields) : Word :=
  f.op ++ f.ty ++ f.d ++ f.a ++ f.b ++ f.c ++ f.s ++ f.t

/-- The register that a field selects (R88). -/
def Reg.ofField (f : BitVec 4) : Reg := f.toFin

/-- The field that selects a register (R88). -/
def Reg.toField (r : Reg) : BitVec 4 := BitVec.ofFin r

/-- imm16 = bits 15:0 (R86). -/
def Fields.imm16 (f : Fields) : BitVec 16 := f.b ++ f.c ++ f.s ++ f.t

/-- imm20 = bits 19:0 (R86). -/
def Fields.imm20 (f : Fields) : BitVec 20 := f.a ++ f.b ++ f.c ++ f.s ++ f.t

/-- The element type that ty selects (00_scope.md R14). -/
def ElemTy.ofField (ty : BitVec 2) : ElemTy :=
  match ty.toNat with
  | 0 => .s16
  | 1 => .s32
  | 2 => .c16
  | _ => .c32

/-- The ty field of an element type (R14). -/
def ElemTy.toField : ElemTy → BitVec 2
  | .s16 => 0#2
  | .s32 => 1#2
  | .c16 => 2#2
  | .c32 => 3#2

/-- The last conditions of R92: the fields that the format has and the command does not use are zero (item 3), then the parity
of c16 fields (item 4), then the register group (item 5). -/
def legalRow (unused : List (BitVec 4)) (i : Instr) : Except Illegal Instr :=
  if unused.any (· != 0#4) then .error .unusedField
  else if !i.pairsEven then .error .oddPair
  else if !i.groupFits then .error .groupOverrun
  else .ok i

/-- The opcode map of 30_encoding.md R91: the command of the fields, or the condition of R92 that fails. -/
def decodeFields (f : Fields) : Except Illegal Instr :=
  let d := Reg.ofField f.d
  let a := Reg.ofField f.a
  let b := Reg.ofField f.b
  let c := Reg.ofField f.c
  let s := Reg.ofField f.s
  let t := Reg.ofField f.t
  match f.op.toNat with
  | 0x00 =>
    match ElemTy.ofField f.ty with
    | .s16 => legalRow [f.d, f.a, f.b, f.c, f.s, f.t] .halt
    | _ => .error .typeNotAdmitted
  | 0x01 =>
    match ElemTy.ofField f.ty with
    | .s16 => legalRow [] (.lui d f.imm20)
    | _ => .error .typeNotAdmitted
  | 0x02 =>
    match ElemTy.ofField f.ty with
    | .s16 => legalRow [] (.addi d a f.imm16)
    | _ => .error .typeNotAdmitted
  | 0x03 =>
    match ElemTy.ofField f.ty with
    | .s16 => legalRow [f.c, f.s, f.t] (.add d a b)
    | _ => .error .typeNotAdmitted
  | 0x04 =>
    match ElemTy.ofField f.ty with
    | .s16 => legalRow [f.c, f.s, f.t] (.sub d a b)
    | _ => .error .typeNotAdmitted
  | 0x05 =>
    match ElemTy.ofField f.ty with
    | .s16 => legalRow [] (.lw d a f.imm16)
    | _ => .error .typeNotAdmitted
  | 0x06 =>
    match ElemTy.ofField f.ty with
    | .s16 => legalRow [] (.sw d a f.imm16)
    | _ => .error .typeNotAdmitted
  | 0x07 =>
    match ElemTy.ofField f.ty with
    | .s16 => legalRow [] (.beq d a f.imm16)
    | _ => .error .typeNotAdmitted
  | 0x08 =>
    match ElemTy.ofField f.ty with
    | .s16 => legalRow [] (.bne d a f.imm16)
    | _ => .error .typeNotAdmitted
  | 0x09 =>
    match ElemTy.ofField f.ty with
    | .s16 => legalRow [f.d, f.b, f.c, f.s, f.t] (.setvl a)
    | _ => .error .typeNotAdmitted
  | 0x0A =>
    match ElemTy.ofField f.ty with
    | .s16 => legalRow [f.b, f.c, f.s, f.t] (.hrsS16 d a)
    | .s32 => legalRow [f.b, f.c, f.s, f.t] (.hrsS32 d a)
    | _ => .error .typeNotAdmitted
  | 0x10 =>
    match ElemTy.ofField f.ty with
    | .s16 => legalRow [f.a] (.calcAddS16 d b c s t)
    | .s32 => legalRow [f.a] (.calcAddS32 d b c s t)
    | .c16 => legalRow [f.a] (.calcAddC16 d b c s t)
    | .c32 => legalRow [f.a] (.calcAddC32 d b c s t)
  | 0x11 =>
    match ElemTy.ofField f.ty with
    | .s16 => legalRow [f.a] (.calcMulS16 d b c s t)
    | .s32 => legalRow [f.a] (.calcMulS32 d b c s t)
    | _ => .error .typeNotAdmitted
  | 0x12 =>
    match ElemTy.ofField f.ty with
    | .c16 => legalRow [f.a] (.calcCmulC16 d b c s t)
    | .c32 => legalRow [f.a] (.calcCmulC32 d b c s t)
    | _ => .error .typeNotAdmitted
  | 0x13 =>
    match ElemTy.ofField f.ty with
    | .s16 => legalRow [f.a] (.calcScaleS16 d b c s t)
    | .s32 => legalRow [f.a] (.calcScaleS32 d b c s t)
    | .c16 => legalRow [f.a] (.calcScaleC16 d b c s t)
    | .c32 => legalRow [f.a] (.calcScaleC32 d b c s t)
  | 0x14 =>
    match ElemTy.ofField f.ty with
    | .c16 => legalRow [f.a, f.c, f.t] (.calcMagC16 d b s)
    | .c32 => legalRow [f.a, f.c, f.t] (.calcMagC32 d b s)
    | _ => .error .typeNotAdmitted
  | 0x15 =>
    match ElemTy.ofField f.ty with
    | .c16 => legalRow [f.a, f.c, f.t] (.calcSqmagC16 d b s)
    | .c32 => legalRow [f.a, f.c, f.t] (.calcSqmagC32 d b s)
    | _ => .error .typeNotAdmitted
  | 0x20 =>
    match ElemTy.ofField f.ty with
    | .s16 => legalRow [f.c, f.t] (.vshlS16 d a b s)
    | .s32 => legalRow [f.c, f.t] (.vshlS32 d a b s)
    | .c16 => legalRow [f.c, f.t] (.vshlC16 d a b s)
    | .c32 => legalRow [f.c, f.t] (.vshlC32 d a b s)
  | 0x21 =>
    match ElemTy.ofField f.ty with
    | .s16 => legalRow [] (.vaddS16 d a b c s t)
    | .s32 => legalRow [] (.vaddS32 d a b c s t)
    | .c16 => legalRow [] (.vaddC16 d a b c s t)
    | .c32 => legalRow [] (.vaddC32 d a b c s t)
  | 0x22 =>
    match ElemTy.ofField f.ty with
    | .s16 => legalRow [] (.vsubS16 d a b c s t)
    | .s32 => legalRow [] (.vsubS32 d a b c s t)
    | .c16 => legalRow [] (.vsubC16 d a b c s t)
    | .c32 => legalRow [] (.vsubC32 d a b c s t)
  | 0x23 =>
    match ElemTy.ofField f.ty with
    | .s16 => legalRow [f.t] (.vmulS16 d a b c s)
    | .s32 => legalRow [f.t] (.vmulS32 d a b c s)
    | _ => .error .typeNotAdmitted
  | 0x24 =>
    match ElemTy.ofField f.ty with
    | .c16 => legalRow [f.t] (.vcmulC16 d a b c s)
    | .c32 => legalRow [f.t] (.vcmulC32 d a b c s)
    | _ => .error .typeNotAdmitted
  | 0x25 =>
    match ElemTy.ofField f.ty with
    | .c16 => legalRow [f.t] (.vcmulcC16 d a b c s)
    | .c32 => legalRow [f.t] (.vcmulcC32 d a b c s)
    | _ => .error .typeNotAdmitted
  | 0x26 =>
    match ElemTy.ofField f.ty with
    | .s16 => legalRow [f.t] (.vscaleS16 d a b c s)
    | .s32 => legalRow [f.t] (.vscaleS32 d a b c s)
    | .c16 => legalRow [f.t] (.vscaleC16 d a b c s)
    | .c32 => legalRow [f.t] (.vscaleC32 d a b c s)
  | 0x27 =>
    match ElemTy.ofField f.ty with
    | .c16 => legalRow [f.c, f.t] (.vmagC16 d a b s)
    | .c32 => legalRow [f.c, f.t] (.vmagC32 d a b s)
    | _ => .error .typeNotAdmitted
  | 0x28 =>
    match ElemTy.ofField f.ty with
    | .c16 => legalRow [f.c, f.t] (.vsqmagC16 d a b s)
    | .c32 => legalRow [f.c, f.t] (.vsqmagC32 d a b s)
    | _ => .error .typeNotAdmitted
  | 0x29 =>
    match ElemTy.ofField f.ty with
    | .s16 => legalRow [f.a, f.c, f.s, f.t] (.vhrS16 d b)
    | .s32 => legalRow [f.a, f.c, f.s, f.t] (.vhrS32 d b)
    | .c16 => legalRow [f.a, f.c, f.s, f.t] (.vhrC16 d b)
    | .c32 => legalRow [f.a, f.c, f.s, f.t] (.vhrC32 d b)
  | 0x30 =>
    match ElemTy.ofField f.ty with
    | .c32 => legalRow [f.d, f.b, f.c, f.s, f.t] (.vbitrevC32 a)
    | _ => .error .typeNotAdmitted
  | 0x31 =>
    match ElemTy.ofField f.ty with
    | .c32 => legalRow [f.c, f.s, f.t] (.fftfC32 d a b)
    | _ => .error .typeNotAdmitted
  | 0x32 =>
    match ElemTy.ofField f.ty with
    | .c32 => legalRow [f.c, f.s, f.t] (.fftiC32 d a b)
    | _ => .error .typeNotAdmitted
  | _ => .error .unallocatedOp

/-- The decoder: total on all 2^32 words (30_encoding.md R93). -/
def decode (w : Word) : Except Illegal Instr := decodeFields (fieldsOf w)

/-- The decoder on bytes: one command is the four bytes of a word, least significant first (R85; 20_memory.md R62). -/
def decodeBytes : List Byte → Except Illegal Instr
  | b0 :: b1 :: b2 :: b3 :: _ => decode (b3 ++ b2 ++ b1 ++ b0)
  | _ => .error .truncated

/-- Fields of a format R command: those it does not use are zero (R92). -/
def Fields.rowR (op : BitVec 6) (ty : ElemTy) (d a b c s t : Reg) : Fields :=
  { op := op, ty := ty.toField, d := d.toField, a := a.toField, b := b.toField, c := c.toField, s := s.toField, t := t.toField }

/-- Fields of a format I command (R86). -/
def Fields.rowI (op : BitVec 6) (d a : Reg) (imm16 : BitVec 16) : Fields :=
  { op := op, ty := 0#2, d := d.toField, a := a.toField, b := imm16.extractLsb' 12 4, c := imm16.extractLsb' 8 4,
    s := imm16.extractLsb' 4 4, t := imm16.extractLsb' 0 4 }

/-- Fields of a format U command (R86). -/
def Fields.rowU (op : BitVec 6) (d : Reg) (imm20 : BitVec 20) : Fields :=
  { op := op, ty := 0#2, d := d.toField, a := imm20.extractLsb' 16 4, b := imm20.extractLsb' 12 4,
    c := imm20.extractLsb' 8 4, s := imm20.extractLsb' 4 4, t := imm20.extractLsb' 0 4 }

/-- The fields of a command (30_encoding.md R86, R91). -/
def encodeFields : Instr → Fields
  | .halt => .rowR 0x00#6 .s16 0 0 0 0 0 0
  | .lui d imm20 => .rowU 0x01#6 d imm20
  | .addi d a imm16 => .rowI 0x02#6 d a imm16
  | .add d a b => .rowR 0x03#6 .s16 d a b 0 0 0
  | .sub d a b => .rowR 0x04#6 .s16 d a b 0 0 0
  | .lw d a imm16 => .rowI 0x05#6 d a imm16
  | .sw d a imm16 => .rowI 0x06#6 d a imm16
  | .beq d a imm16 => .rowI 0x07#6 d a imm16
  | .bne d a imm16 => .rowI 0x08#6 d a imm16
  | .setvl a => .rowR 0x09#6 .s16 0 a 0 0 0 0
  | .hrsS16 d a => .rowR 0x0A#6 .s16 d a 0 0 0 0
  | .hrsS32 d a => .rowR 0x0A#6 .s32 d a 0 0 0 0
  | .calcAddS16 d b c s t => .rowR 0x10#6 .s16 d 0 b c s t
  | .calcAddS32 d b c s t => .rowR 0x10#6 .s32 d 0 b c s t
  | .calcAddC16 d b c s t => .rowR 0x10#6 .c16 d 0 b c s t
  | .calcAddC32 d b c s t => .rowR 0x10#6 .c32 d 0 b c s t
  | .calcMulS16 d b c s t => .rowR 0x11#6 .s16 d 0 b c s t
  | .calcMulS32 d b c s t => .rowR 0x11#6 .s32 d 0 b c s t
  | .calcCmulC16 d b c s t => .rowR 0x12#6 .c16 d 0 b c s t
  | .calcCmulC32 d b c s t => .rowR 0x12#6 .c32 d 0 b c s t
  | .calcScaleS16 d b c s t => .rowR 0x13#6 .s16 d 0 b c s t
  | .calcScaleS32 d b c s t => .rowR 0x13#6 .s32 d 0 b c s t
  | .calcScaleC16 d b c s t => .rowR 0x13#6 .c16 d 0 b c s t
  | .calcScaleC32 d b c s t => .rowR 0x13#6 .c32 d 0 b c s t
  | .calcMagC16 d b s => .rowR 0x14#6 .c16 d 0 b 0 s 0
  | .calcMagC32 d b s => .rowR 0x14#6 .c32 d 0 b 0 s 0
  | .calcSqmagC16 d b s => .rowR 0x15#6 .c16 d 0 b 0 s 0
  | .calcSqmagC32 d b s => .rowR 0x15#6 .c32 d 0 b 0 s 0
  | .vshlS16 d a b s => .rowR 0x20#6 .s16 d a b 0 s 0
  | .vshlS32 d a b s => .rowR 0x20#6 .s32 d a b 0 s 0
  | .vshlC16 d a b s => .rowR 0x20#6 .c16 d a b 0 s 0
  | .vshlC32 d a b s => .rowR 0x20#6 .c32 d a b 0 s 0
  | .vaddS16 d a b c s t => .rowR 0x21#6 .s16 d a b c s t
  | .vaddS32 d a b c s t => .rowR 0x21#6 .s32 d a b c s t
  | .vaddC16 d a b c s t => .rowR 0x21#6 .c16 d a b c s t
  | .vaddC32 d a b c s t => .rowR 0x21#6 .c32 d a b c s t
  | .vsubS16 d a b c s t => .rowR 0x22#6 .s16 d a b c s t
  | .vsubS32 d a b c s t => .rowR 0x22#6 .s32 d a b c s t
  | .vsubC16 d a b c s t => .rowR 0x22#6 .c16 d a b c s t
  | .vsubC32 d a b c s t => .rowR 0x22#6 .c32 d a b c s t
  | .vmulS16 d a b c s => .rowR 0x23#6 .s16 d a b c s 0
  | .vmulS32 d a b c s => .rowR 0x23#6 .s32 d a b c s 0
  | .vcmulC16 d a b c s => .rowR 0x24#6 .c16 d a b c s 0
  | .vcmulC32 d a b c s => .rowR 0x24#6 .c32 d a b c s 0
  | .vcmulcC16 d a b c s => .rowR 0x25#6 .c16 d a b c s 0
  | .vcmulcC32 d a b c s => .rowR 0x25#6 .c32 d a b c s 0
  | .vscaleS16 d a b c s => .rowR 0x26#6 .s16 d a b c s 0
  | .vscaleS32 d a b c s => .rowR 0x26#6 .s32 d a b c s 0
  | .vscaleC16 d a b c s => .rowR 0x26#6 .c16 d a b c s 0
  | .vscaleC32 d a b c s => .rowR 0x26#6 .c32 d a b c s 0
  | .vmagC16 d a b s => .rowR 0x27#6 .c16 d a b 0 s 0
  | .vmagC32 d a b s => .rowR 0x27#6 .c32 d a b 0 s 0
  | .vsqmagC16 d a b s => .rowR 0x28#6 .c16 d a b 0 s 0
  | .vsqmagC32 d a b s => .rowR 0x28#6 .c32 d a b 0 s 0
  | .vhrS16 d b => .rowR 0x29#6 .s16 d 0 b 0 0 0
  | .vhrS32 d b => .rowR 0x29#6 .s32 d 0 b 0 0 0
  | .vhrC16 d b => .rowR 0x29#6 .c16 d 0 b 0 0 0
  | .vhrC32 d b => .rowR 0x29#6 .c32 d 0 b 0 0 0
  | .vbitrevC32 a => .rowR 0x30#6 .c32 0 a 0 0 0 0
  | .fftfC32 d a b => .rowR 0x31#6 .c32 d a b 0 0 0
  | .fftiC32 d a b => .rowR 0x32#6 .c32 d a b 0 0 0

/-- The encoder: the word of a command (30_encoding.md R86, R91). -/
def encode (i : Instr) : Word := wordOf (encodeFields i)

/-- The bytes of a word, least significant first (20_memory.md R62). -/
def bytesOf (w : Word) : List Byte :=
  [w.extractLsb' 0 8, w.extractLsb' 8 8, w.extractLsb' 16 8, w.extractLsb' 24 8]

/-- The command the decoder reads from a table word: the low `nbits` bits of `w`, every higher bit 0, laid out in bytes as the
hardware stores it. -/
def decodeTableWord (nbits w : Nat) : Option Instr :=
  match decodeBytes (bytesOf (BitVec.ofNat 32 (w % 2 ^ nbits))) with
  | .ok i => some i
  | .error _ => none

end Sys2Proof
end

