-- ==== Sys2Proof/Machine/Operands.lean ====
section
/-! DEFINITION. Vector operands: their layout in memory (spec/20_memory.md R64), the checks made before any access (R65-R68,
42_kernels.md R160, 60_exceptions.md R223), their headroom (00_scope.md R18). -/

namespace Sys2Proof.Machine

/-- The part of an element (00_scope.md R14). -/
inductive Part where
  | re
  | im
deriving DecidableEq, Repr

/-- The value of an element: its parts as integers. Of a real element only `re` is stored. -/
structure Elem where
  re : Int
  im : Int
deriving DecidableEq, Repr

/-- A vector operand: its type, and the base addresses that its register field names (20_memory.md R64). `imBase` counts for c16
only. -/
structure Vec where
  ty : ElemTy
  base : Nat
  imBase : Nat
deriving DecidableEq, Repr

/-- One contiguous array of an operand: its start, its bytes for each element, the alignment its start must have. -/
structure OperandArray where
  start : Nat
  elemBytes : Nat
  align : Nat
deriving DecidableEq, Repr

/-- The operand that field n names: the register x[n], and for c16 the pair x[n], x[n+1] (30_encoding.md R88, 20_memory.md R64). -/
def vecOf (s : State) (ty : ElemTy) (n : Reg) : Vec :=
  { ty := ty, base := u32 (s.reg n), imBase := u32 (s.reg (n + 1)) }

/-- The address of a part of element i (the table of 20_memory.md R64), in ℤ: it does not wrap. -/
def partAddr (v : Vec) (i : Nat) : Part → Nat
  | .re =>
    match v.ty with
    | .s16 => v.base + 2 * i
    | .s32 => v.base + 4 * i
    | .c16 => v.base + 2 * i
    | .c32 => v.base + 8 * i
  | .im =>
    match v.ty with
    | .c16 => v.imBase + 2 * i
    | _ => v.base + 8 * i + 4

/-- ElemRead: sext_B of the part's B/8 bytes (20_memory.md R64). -/
def partRead (m : Memory) (v : Vec) (i : Nat) (p : Part) : Int :=
  (BitVec.ofNat (bits v.ty) (m.readLE (partAddr v i p) (bits v.ty / 8))).toInt

/-- ElemWrite: zext_B of the value, B/8 bytes (20_memory.md R64). -/
def partWrite (m : Memory) (v : Vec) (i : Nat) (p : Part) (x : Int) : Memory :=
  m.writeLE (partAddr v i p) (bits v.ty / 8) (BitVec.ofInt (bits v.ty) x).toNat

/-- Every part of element i. -/
def elemRead (m : Memory) (v : Vec) (i : Nat) : Elem :=
  { re := partRead m v i .re, im := if isComplex v.ty then partRead m v i .im else 0 }

/-- Every part of element i written, re before im (20_memory.md R74). -/
def elemWrite (m : Memory) (v : Vec) (i : Nat) (e : Elem) : Memory :=
  let m' := partWrite m v i .re e.re
  if isComplex v.ty then partWrite m' v i .im e.im else m'

/-- The number of the CORE's read, within a command, of a part of element i of input operand number `slot`; the numbers differ, and none
is that of the fetch, 0. -/
def readNumber (slot i : Nat) : Part → Nat
  | .re => 4 * i + 2 * slot + 1
  | .im => 4 * i + 2 * slot + 2

/-- A part of element i as the CORE reads it from input operand number `slot` (20_memory.md R64, R78). -/
def State.partIn (s : State) (m : Memory) (slot : Nat) (v : Vec) (i : Nat) (p : Part) : Int :=
  partRead (s.view m (readNumber slot i p)) v i p

/-- Every part of element i as the CORE reads it from input operand number `slot` (20_memory.md R64, R78). -/
def State.elemIn (s : State) (m : Memory) (slot : Nat) (v : Vec) (i : Nat) : Elem :=
  { re := s.partIn m slot v i .re, im := if isComplex v.ty then s.partIn m slot v i .im else 0 }

/-- The N elements of a command's one vector input, element 0 first, as the CORE reads them. -/
def State.vecIn (s : State) (m : Memory) (v : Vec) (N : Nat) : List Elem := (List.range N).map (s.elemIn m 0 v)

/-- A part of element i that the command last wrote as x, as the CORE reads it again, in its element read number j: its raced bytes are free
values, the others those of x (20_memory.md R61, R78). -/
def State.partAgain (s : State) (v : Vec) (j i : Nat) (p : Part) (x : Int) : Int :=
  partRead (s.view (partWrite [] v i p x) (readNumber 0 j p)) v i p

/-- An element that the command last wrote as e, as the CORE reads it again, in its element read number j. -/
def State.elemAgain (s : State) (v : Vec) (j i : Nat) (e : Elem) : Elem :=
  { re := s.partAgain v j i .re e.re, im := s.partAgain v j i .im e.im }

/-- The elements of a complex vector that the command last wrote as xs, as its sweep number n over the vector reads them again; sweep 0 is
`State.vecIn`. -/
def State.vecAgain (s : State) (v : Vec) (n : Nat) (xs : List Elem) : List Elem :=
  (List.range xs.length).map (fun i => s.elemAgain v (n * xs.length + i) i (xs.getD i ⟨0, 0⟩))

/-- The N elements of a vector, element 0 first. -/
def vecRead (m : Memory) (v : Vec) (N : Nat) : List Elem := (List.range N).map (elemRead m v)

/-- Elements i, i+1, … of a vector written in order. -/
def vecWrite (m : Memory) (v : Vec) (i : Nat) : List Elem → Memory
  | [] => m
  | e :: rest => vecWrite (elemWrite m v i e) v (i + 1) rest

/-- The least headroom of an element's parts (00_scope.md R18). -/
def elemHr (ty : ElemTy) (e : Elem) : Nat :=
  if isComplex ty then min (hr (bits ty) e.re) (hr (bits ty) e.im) else hr (bits ty) e.re

/-- The headroom of a list of elements; B−1 for none (00_scope.md R18). -/
def elemsHr (ty : ElemTy) (xs : List Elem) : Nat := xs.foldr (fun e h => min (elemHr ty e) h) (bits ty - 1)

/-- vhr(ty, N, data) of a vector in memory (00_scope.md R18). -/
def vhr (m : Memory) (v : Vec) (N : Nat) : Nat := elemsHr v.ty (vecRead m v N)

/-- The arrays of an operand in the order they are checked, re base before im base (42_kernels.md R160), with the bytes for each
element of 20_memory.md R67 and the alignment of R65. -/
def Vec.arrays (v : Vec) : List OperandArray :=
  match v.ty with
  | .s16 => [⟨v.base, 2, 8⟩]
  | .s32 => [⟨v.base, 4, 4⟩]
  | .c16 => [⟨v.base, 2, 8⟩, ⟨v.imBase, 2, 8⟩]
  | .c32 => [⟨v.base, 8, 4⟩]

/-- The 32-bit access of LW and SW at an effective address (20_memory.md R65, R67). -/
def wordArray (ea : Word) : OperandArray := ⟨u32 ea, 4, 4⟩

/-- The checks made before any access: every alignment check in order, DATA_ALIGN with the first address that fails, then every
range check in order, DATA_BUS with the first start that fails (20_memory.md R66-R68; 42_kernels.md R160; 60_exceptions.md R223). -/
def operandTrap (c : Config) (N : Nat) (arrays : List OperandArray) : Option Trap :=
  match arrays.find? (fun r => r.start % r.align != 0) with
  | some r => some ⟨.dataAlign, BitVec.ofNat 32 r.start⟩
  | none =>
    match arrays.find? (fun r => !rangeValid c r.start (r.elemBytes * N)) with
    | some r => some ⟨.dataBus, BitVec.ofNat 32 r.start⟩
    | none => none

/-- The byte writes of MemWrite(a, n, v), the lowest address first (20_memory.md R62). -/
def leCells (a : Nat) : Nat → Nat → List Host.Cell
  | 0, _ => []
  | n + 1, v => (a, BitVec.ofNat 8 v) :: leCells (a + 1) n (v / 2 ^ 8)

/-- The byte writes of ElemWrite of a part (20_memory.md R64). -/
def partCells (v : Vec) (i : Nat) (p : Part) (x : Int) : List Host.Cell :=
  leCells (partAddr v i p) (bits v.ty / 8) (BitVec.ofInt (bits v.ty) x).toNat

/-- The byte writes of an element, re before im (20_memory.md R74). -/
def elemCells (v : Vec) (i : Nat) (e : Elem) : List Host.Cell :=
  partCells v i .re e.re ++ if isComplex v.ty then partCells v i .im e.im else []

/-- The byte writes of elements i, i+1, … of a vector in order. -/
def vecCells (v : Vec) (i : Nat) : List Elem → List Host.Cell
  | [] => []
  | e :: rest => elemCells v i e ++ vecCells v (i + 1) rest

/-- The address ranges that reading or writing an operand of N elements covers. -/
def vecSpans (v : Vec) (N : Nat) : List Span := v.arrays.map (fun r => ⟨r.start, r.elemBytes * N⟩)

end Sys2Proof.Machine
end

