-- ==== Sys2Proof/Machine/Calc.lean ====
section
/-! DEFINITION. The BFP parameter calculators (spec/41_calculators.md): exponents and headrooms in, a result exponent and shifts
out, in exact integers. The six formulas stand first, then one meaning for each row. -/

namespace Sys2Proof.Machine

/-- S = CTRL.ALLOW_SAT as a number (00_scope.md R10). -/
def satPolicy (s : State) : Int := if s.allowSat then 1 else 0

/-- A headroom operand: min(u32(x[n]), B − 1) (41_calculators.md R135). -/
def headroomIn (B : Nat) (s : State) (n : Reg) : Int := (min (u32 (s.reg n)) (B - 1) : Nat)

/-- An exponent operand: s32(x[n]) (41_calculators.md R135). -/
def exponentIn (s : State) (n : Reg) : Int := s32 (s.reg n)

/-- An output outside signed 32 bits (41_calculators.md R135). -/
def outOfRange (o : Int) : Bool := decide (o < -2 ^ 31 ∨ 2 ^ 31 - 1 < o)

/-- The end of every calculator: EXP_OVERFLOW with the command word where an output is out of range, else the outputs in the
register group (41_calculators.md R135). -/
def calculate (s : State) (w : Word) (d : Reg) (outs : List Int) : Host.Outcome State Fault Refusal :=
  orTrap (if outs.any outOfRange then some ⟨.expOverflow, w⟩ else none) s (s.setGroup d (outs.map wrap32)).advance

/-- CALC.ADD: a_exp, b_shr, c_shr (41_calculators.md R136). -/
def calcAddOut (B : Nat) (S eb ec hb hc : Int) : List Int :=
  let aExp := max (eb - hb) (ec - hc) + 1 - S
  [aExp, min (aExp - eb) B, min (aExp - ec) B]

/-- CALC.MUL: a_exp, sat_shr (41_calculators.md R138). -/
def calcMulOut (B : Nat) (S eb ec hb hc : Int) : List Int :=
  let satShr := max 0 (B - hb - hc - S)
  [eb + ec + satShr, satShr]

/-- CALC.CMUL: a_exp, sat_shr, one more bit than CALC.MUL (41_calculators.md R139). -/
def calcCmulOut (B : Nat) (S eb ec hb hc : Int) : List Int :=
  let satShr := max 0 (B + 1 - hb - hc - S)
  [eb + ec + satShr, satShr]

/-- CALC.MAG: a_exp, b_shr (41_calculators.md R141). -/
def calcMagOut (eb hb : Int) : List Int :=
  let bShr := 1 - hb
  [eb + bShr, bShr]

/-- CALC.SQMAG: a_exp, sat_shr (41_calculators.md R142). -/
def calcSqmagOut (B : Nat) (S eb hb : Int) : List Int :=
  let satShr := max 0 (B + 1 - 2 * hb - S)
  [2 * eb + satShr, satShr]

/-- The scalar's headroom h_α = hr_B(sext_B of the low B bits) (41_calculators.md R140; conflict C4). -/
def alphaHr (B : Nat) (s : State) (t : Reg) : Int := (hr B (sext B (s.reg t)) : Nat)

/-- CALC.ADD for a type (41_calculators.md R136). -/
def calcAdd (ty : ElemTy) (w : Word) (d b c sh t : Reg) (s : State) : Host.Outcome State Fault Refusal :=
  let B := bits ty
  calculate s w d (calcAddOut B (satPolicy s) (exponentIn s b) (exponentIn s c) (headroomIn B s sh) (headroomIn B s t))

/-- CALC.MUL for a type (41_calculators.md R138). -/
def calcMul (ty : ElemTy) (w : Word) (d b c sh t : Reg) (s : State) : Host.Outcome State Fault Refusal :=
  let B := bits ty
  calculate s w d (calcMulOut B (satPolicy s) (exponentIn s b) (exponentIn s c) (headroomIn B s sh) (headroomIn B s t))

/-- CALC.CMUL for a type (41_calculators.md R139). -/
def calcCmul (ty : ElemTy) (w : Word) (d b c sh t : Reg) (s : State) : Host.Outcome State Fault Refusal :=
  let B := bits ty
  calculate s w d (calcCmulOut B (satPolicy s) (exponentIn s b) (exponentIn s c) (headroomIn B s sh) (headroomIn B s t))

/-- CALC.SCALE for a type: the multiply rule with the scalar's headroom (41_calculators.md R140). -/
def calcScale (ty : ElemTy) (w : Word) (d b c sh t : Reg) (s : State) : Host.Outcome State Fault Refusal :=
  let B := bits ty
  calculate s w d (calcMulOut B (satPolicy s) (exponentIn s b) (exponentIn s c) (headroomIn B s sh) (alphaHr B s t))

/-- CALC.MAG for a type; ALLOW_SAT is not read (41_calculators.md R141). -/
def calcMag (ty : ElemTy) (w : Word) (d b sh : Reg) (s : State) : Host.Outcome State Fault Refusal :=
  calculate s w d (calcMagOut (exponentIn s b) (headroomIn (bits ty) s sh))

/-- CALC.SQMAG for a type (41_calculators.md R142). -/
def calcSqmag (ty : ElemTy) (w : Word) (d b sh : Reg) (s : State) : Host.Outcome State Fault Refusal :=
  let B := bits ty
  calculate s w d (calcSqmagOut B (satPolicy s) (exponentIn s b) (headroomIn B s sh))

/-- CALC.ADD.s16 (41_calculators.md R136). -/
def execCalcAddS16 (d b c sh t : Reg) (s : State) : Host.Outcome State Fault Refusal :=
  calcAdd .s16 (encode (.calcAddS16 d b c sh t)) d b c sh t s

/-- CALC.ADD.s32 (41_calculators.md R136). -/
def execCalcAddS32 (d b c sh t : Reg) (s : State) : Host.Outcome State Fault Refusal :=
  calcAdd .s32 (encode (.calcAddS32 d b c sh t)) d b c sh t s

/-- CALC.ADD.c16 (41_calculators.md R136). -/
def execCalcAddC16 (d b c sh t : Reg) (s : State) : Host.Outcome State Fault Refusal :=
  calcAdd .c16 (encode (.calcAddC16 d b c sh t)) d b c sh t s

/-- CALC.ADD.c32 (41_calculators.md R136). -/
def execCalcAddC32 (d b c sh t : Reg) (s : State) : Host.Outcome State Fault Refusal :=
  calcAdd .c32 (encode (.calcAddC32 d b c sh t)) d b c sh t s

/-- CALC.MUL.s16 (41_calculators.md R138). -/
def execCalcMulS16 (d b c sh t : Reg) (s : State) : Host.Outcome State Fault Refusal :=
  calcMul .s16 (encode (.calcMulS16 d b c sh t)) d b c sh t s

/-- CALC.MUL.s32 (41_calculators.md R138). -/
def execCalcMulS32 (d b c sh t : Reg) (s : State) : Host.Outcome State Fault Refusal :=
  calcMul .s32 (encode (.calcMulS32 d b c sh t)) d b c sh t s

/-- CALC.CMUL.c16 (41_calculators.md R139). -/
def execCalcCmulC16 (d b c sh t : Reg) (s : State) : Host.Outcome State Fault Refusal :=
  calcCmul .c16 (encode (.calcCmulC16 d b c sh t)) d b c sh t s

/-- CALC.CMUL.c32 (41_calculators.md R139). -/
def execCalcCmulC32 (d b c sh t : Reg) (s : State) : Host.Outcome State Fault Refusal :=
  calcCmul .c32 (encode (.calcCmulC32 d b c sh t)) d b c sh t s

/-- CALC.SCALE.s16 (41_calculators.md R140). -/
def execCalcScaleS16 (d b c sh t : Reg) (s : State) : Host.Outcome State Fault Refusal :=
  calcScale .s16 (encode (.calcScaleS16 d b c sh t)) d b c sh t s

/-- CALC.SCALE.s32 (41_calculators.md R140). -/
def execCalcScaleS32 (d b c sh t : Reg) (s : State) : Host.Outcome State Fault Refusal :=
  calcScale .s32 (encode (.calcScaleS32 d b c sh t)) d b c sh t s

/-- CALC.SCALE.c16 (41_calculators.md R140). -/
def execCalcScaleC16 (d b c sh t : Reg) (s : State) : Host.Outcome State Fault Refusal :=
  calcScale .c16 (encode (.calcScaleC16 d b c sh t)) d b c sh t s

/-- CALC.SCALE.c32 (41_calculators.md R140). -/
def execCalcScaleC32 (d b c sh t : Reg) (s : State) : Host.Outcome State Fault Refusal :=
  calcScale .c32 (encode (.calcScaleC32 d b c sh t)) d b c sh t s

/-- CALC.MAG.c16 (41_calculators.md R141). -/
def execCalcMagC16 (d b sh : Reg) (s : State) : Host.Outcome State Fault Refusal :=
  calcMag .c16 (encode (.calcMagC16 d b sh)) d b sh s

/-- CALC.MAG.c32 (41_calculators.md R141). -/
def execCalcMagC32 (d b sh : Reg) (s : State) : Host.Outcome State Fault Refusal :=
  calcMag .c32 (encode (.calcMagC32 d b sh)) d b sh s

/-- CALC.SQMAG.c16 (41_calculators.md R142). -/
def execCalcSqmagC16 (d b sh : Reg) (s : State) : Host.Outcome State Fault Refusal :=
  calcSqmag .c16 (encode (.calcSqmagC16 d b sh)) d b sh s

/-- CALC.SQMAG.c32 (41_calculators.md R142). -/
def execCalcSqmagC32 (d b sh : Reg) (s : State) : Host.Outcome State Fault Refusal :=
  calcSqmag .c32 (encode (.calcSqmagC32 d b sh)) d b sh s

end Sys2Proof.Machine
end

