-- ==== Sys2Proof/Machine/Twiddle.lean ====
section
/-! DEFINITION. The twiddle ROM (spec/43_fft.md R196; 10_state.md R38), computed exactly. Each entry is 2^30·cos or −2^30·sin of
2πk/NMAX rounded to the nearest integer. Rounding needs only comparisons of such a cosine with a rational number, and those are
decided exactly by the double-angle formula cos 2θ = 2·cos²θ − 1, which ends at a multiple of π/2. -/

namespace Sys2Proof.Machine

/-- How cos((π/2)·(k/2^d)), 0 ≤ k ≤ 2^d, compares with n/2^q. A quarter-circle cosine is not negative; for n ≥ 0 both sides are
squared and the angle doubled, and an angle past π/2 is reflected, which negates its cosine. -/
def cosCompare : Nat → Nat → Int → Nat → Ordering
  | 0, k, n, q => if k = 0 then compare ((2 : Int) ^ q) n else compare (0 : Int) n
  | d + 1, k, n, q =>
    if n < 0 then .gt
    else
      let n' : Int := 2 * n * n - 2 ^ (2 * q)
      if k ≤ 2 ^ d then cosCompare d k n' (2 * q)
      else (cosCompare d (2 ^ (d + 1) - k) (-n') (2 * q)).swap

/-- round(2^30 × cos((π/2)·(k/2^d))) for 0 ≤ k ≤ 2^d: the greatest integer r with r − 1/2 below 2^30 times the cosine. -/
def cosQ30 (d k : Nat) : Int :=
  (bitSearch (fun r => cosCompare d k (2 * (r : Int) - 1) 31 == .gt) 31 0 : Nat)

/-- TW[k].re = round(2^30 × cos(2πk/NMAX)), NMAX = 2^m, 0 ≤ k < NMAX/2 (43_fft.md R196). -/
def twiddleRe (m k : Nat) : Int :=
  let quarter := 2 ^ (m - 2)
  if k ≤ quarter then cosQ30 (m - 2) k else -cosQ30 (m - 2) (2 * quarter - k)

/-- TW[k].im = round(−2^30 × sin(2πk/NMAX)) (43_fft.md R196): the sine is the cosine of the angle's distance from π/2. -/
def twiddleIm (m k : Nat) : Int :=
  let quarter := 2 ^ (m - 2)
  if k ≤ quarter then -cosQ30 (m - 2) (quarter - k) else -cosQ30 (m - 2) (k - quarter)

end Sys2Proof.Machine
end

