-- ==== Sys2Proof/Machine/Fft.lean ====
section
/-! DEFINITION. The FFT engine (spec/43_fft.md). VBITREV, FFTF and FFTI are functions of the buffer as it was before the command
(20_memory.md R76), so the engine works on the list of the buffer's elements and the result is written back. A transform reads its buffer
once more for every headroom, scaling and pass (R61, 43_fft.md R195), which shows where the host races for a byte of it (R78). -/

namespace Sys2Proof.Machine

/-- N is a power of two, 4 ≤ N ≤ NMAX (43_fft.md R195). -/
def fftLengthOk (c : Config) (N : Nat) : Bool := isPow2 N && decide (4 ≤ N) && decide (N ≤ 2 ^ c.maxFftLog2)

/-- The c32 buffer of an FFT command (43_fft.md R195). -/
def fftVec (s : State) (a : Reg) : Vec := vecOf s .c32 a

/-- The checks of an FFT command, in order: BAD_LENGTH, DATA_ALIGN, DATA_BUS (43_fft.md R195). -/
def fftTrap (s : State) (a : Reg) : Option Trap :=
  let N := u32 s.vl
  if fftLengthOk s.cfg N then operandTrap s.cfg N (fftVec s a).arrays else some ⟨.badLength, s.vl⟩

/-- The check of the input exponent: EXP_OVERFLOW(e_in) (43_fft.md R203). -/
def fftExpTrap (s : State) (b : Reg) : Option Trap :=
  let e := s32 (s.reg b)
  let L : Int := log2 (u32 s.vl)
  if e < -2 ^ 31 + L ∨ 2 ^ 31 - 1 - 2 * L < e then some ⟨.expOverflow, s.reg b⟩ else none

/-- X[i] of a list of elements. -/
def elemAt (xs : List Elem) (i : Nat) : Elem := xs.getD i ⟨0, 0⟩

/-- X[i] <- Y[rev_L(i)] for every i (43_fft.md R197). -/
def bitReverse (L : Nat) (xs : List Elem) : List Elem := (List.range xs.length).map (fun i => elemAt xs (rev L i))

/-- The twiddle of butterfly j in pass k: TW[j × (NMAX >> (k+1))], conjugated for the inverse (43_fft.md R198). -/
def twiddle (maxLog2 : Nat) (conj : Bool) (k j : Nat) : Elem :=
  let i := j * (2 ^ maxLog2 >>> (k + 1))
  { re := twiddleRe maxLog2 i, im := if conj then -twiddleIm maxLog2 i else twiddleIm maxLog2 i }

/-- t = w·y: the exact complex product, each part floored by 2^30 (43_fft.md R198). -/
def twiddleProduct (w y : Elem) : Elem :=
  { re := shr (w.re * y.re - w.im * y.im) 30, im := shr (w.re * y.im + w.im * y.re) 30 }

/-- Element i after pass k (43_fft.md R198). With i = g + j it is u + t, with i = g + j + half it is u − t, where g is the start of
i's group, u = X[g + j], y = X[g + j + half] and j < half. The butterflies of a pass touch disjoint pairs, so their order does not
matter (R198). -/
def butterfly (maxLog2 : Nat) (conj : Bool) (k : Nat) (xs : List Elem) (i : Nat) : Elem :=
  let half := 2 ^ k
  let r := i % (2 * half)
  if r < half then
    let u := elemAt xs i
    let t := twiddleProduct (twiddle maxLog2 conj k r) (elemAt xs (i + half))
    { re := sat 32 (u.re + t.re), im := sat 32 (u.im + t.im) }
  else
    let u := elemAt xs (i - half)
    let t := twiddleProduct (twiddle maxLog2 conj k (r - half)) (elemAt xs i)
    { re := sat 32 (u.re - t.re), im := sat 32 (u.im - t.im) }

/-- pass(k, conj) (43_fft.md R198). -/
def pass (maxLog2 : Nat) (conj : Bool) (k : Nat) (xs : List Elem) : List Elem :=
  (List.range xs.length).map (butterfly maxLog2 conj k xs)

/-- The scaling shift before pass k: max(0, T − h), T = 1 for the passes 0 and 1 and 2 for the others (43_fft.md R199). -/
def scaleShift (k : Nat) (xs : List Elem) : Nat := (if k ≤ 1 then 1 else 2) - elemsHr .c32 xs

/-- Every part shifted right by sh (43_fft.md R199). -/
def scaleBy (sh : Nat) (xs : List Elem) : List Elem := xs.map (fun x => { re := shr x.re sh, im := shr x.im sh })

/-- Passes 0 … k−1, each after its scaling, with the exponent beside the elements (43_fft.md R199, R200). `rd n` is what sweep number n over
the buffer reads of its contents: pass k takes the headroom in sweep 3k + 1, scales in sweep 3k + 2 and reads its butterflies in sweep
3k + 3. -/
def fftPasses (maxLog2 : Nat) (conj : Bool) (rd : Nat → List Elem → List Elem) : Nat → List Elem × Int → List Elem × Int
  | 0, x => x
  | k + 1, x =>
    let y := fftPasses maxLog2 conj rd k x
    let sh := scaleShift k (rd (3 * k + 1) y.1)
    let z := scaleBy sh (rd (3 * k + 2) y.1)
    (pass maxLog2 conj k (rd (3 * k + 3) z), y.2 + sh)

/-- Bit reversal and all L passes (43_fft.md R200). -/
def fft (maxLog2 : Nat) (conj : Bool) (rd : Nat → List Elem → List Elem) (L : Nat) (x : List Elem × Int) : List Elem × Int :=
  fftPasses maxLog2 conj rd L (bitReverse L x.1, x.2)

/-- The contents of the buffer that the transform writes, one after the other: bit reversal, then for each pass its scaling and its
butterflies (43_fft.md R198-R200). -/
def fftImages (maxLog2 : Nat) (conj : Bool) (rd : Nat → List Elem → List Elem) : Nat → List Elem × Int → List (List Elem)
  | 0, x => [x.1]
  | k + 1, x =>
    let y := fftPasses maxLog2 conj rd k x
    let z := scaleBy (scaleShift k (rd (3 * k + 1) y.1)) (rd (3 * k + 2) y.1)
    fftImages maxLog2 conj rd k x ++ [z, pass maxLog2 conj k (rd (3 * k + 3) z)]

/-- FFTF and FFTI: the checks, the transform written back, then x[d] <- exp − expSub, x[d+1] <- the headroom, taken in a last sweep
(43_fft.md R200, R201). -/
def fftCommand (conj : Bool) (expSub : Int) (d a b : Reg) (s : State) : Host.Outcome State Fault Refusal :=
  let N := u32 s.vl
  let L := log2 N
  let v := fftVec s a
  let y := fft s.cfg.maxFftLog2 conj (s.vecAgain v) L (s.vecIn s.mem v N, s32 (s.reg b))
  orTrap ((fftTrap s a).or (fftExpTrap s b)) s
    ((s.setMem (vecWrite s.mem v 0 y.1)).setGroup d
      [wrap32 (y.2 - expSub), BitVec.ofNat 32 (elemsHr .c32 (s.vecAgain v (3 * L + 1) y.1))]).advance

/-- VBITREV.c32 (43_fft.md R197). -/
def execVbitrevC32 (a : Reg) (s : State) : Host.Outcome State Fault Refusal :=
  let N := u32 s.vl
  let v := fftVec s a
  orTrap (fftTrap s a) s (s.setMem (vecWrite s.mem v 0 (bitReverse (log2 N) (s.vecIn s.mem v N)))).advance

/-- FFTF.c32 (43_fft.md R200). -/
def execFftfC32 (d a b : Reg) (s : State) : Host.Outcome State Fault Refusal :=
  fftCommand false 0 d a b s

/-- FFTI.c32: the conjugate twiddles, and the exponent less L (43_fft.md R201). -/
def execFftiC32 (d a b : Reg) (s : State) : Host.Outcome State Fault Refusal :=
  fftCommand true (log2 (u32 s.vl) : Nat) d a b s

end Sys2Proof.Machine
end

