-- ==== Sys2Proof/Machine/Kernels.lean ====
section
/-! DEFINITION. The saturating vector kernels (spec/42_kernels.md). A kernel is a preamble of checks (R160), a loop over the
elements in ascending order (20_memory.md R74), and the headroom of what it stored (R161); the kernels differ in what they compute
from the operands' elements. -/

namespace Sys2Proof.Machine

/-- Elements 0 … n−1 of the output, in that order: `f m i` is computed from memory as the earlier elements left it, then element i
is written (20_memory.md R74). -/
def kernelLoop (out : Vec) (f : Memory → Nat → Elem) : Nat → Memory → Memory
  | 0, m => m
  | n + 1, m =>
    let m' := kernelLoop out f n m
    elemWrite m' out n (f m' n)

/-- A kernel that writes a vector: the checks of its operands, output first (42_kernels.md R160); its loop; x[d] <- the headroom of
the stored output, last (R161). -/
def kernel (s : State) (d : Reg) (out : Vec) (ins : List Vec) (f : Memory → Nat → Elem) :
    Host.Outcome State Fault Refusal :=
  let n := u32 s.vl
  let m := kernelLoop out f n s.mem
  orTrap (operandTrap s.cfg n ((out :: ins).flatMap Vec.arrays)) s
    ((s.setMem m).setReg d (BitVec.ofNat 32 (vhr m out n))).advance

/-- The byte writes of a kernel's loop over elements 0 … n−1, in order. -/
def kernelCells (out : Vec) (f : Memory → Nat → Elem) : Nat → Memory → List Host.Cell
  | 0, _ => []
  | n + 1, m => kernelCells out f n m ++ elemCells out n (f (kernelLoop out f n m) n)

/-- The element function of a kernel with one vector input. -/
def map1 (s : State) (b : Vec) (g : Elem → Elem) (m : Memory) (i : Nat) : Elem := g (s.elemIn m 0 b i)

/-- The element function of a kernel with two vector inputs: every part of both is read before `g`. -/
def map2 (s : State) (b c : Vec) (g : Elem → Elem → Elem) (m : Memory) (i : Nat) : Elem :=
  g (s.elemIn m 0 b i) (s.elemIn m 1 c i)

/-- sat_B(shr(b, −shl)), each part (42_kernels.md R162). -/
def shlElem (B : Nat) (shl : Int) (x : Elem) : Elem :=
  { re := sat B (shr x.re (-shl)), im := sat B (shr x.im (-shl)) }

/-- sat_B(shr(b, bs) + shr(c, cs)), each part (42_kernels.md R163). -/
def addElem (B : Nat) (bs cs : Int) (x y : Elem) : Elem :=
  { re := sat B (shr x.re bs + shr y.re cs), im := sat B (shr x.im bs + shr y.im cs) }

/-- sat_B(shr(b, bs) − shr(c, cs)), each part (42_kernels.md R164). -/
def subElem (B : Nat) (bs cs : Int) (x y : Elem) : Elem :=
  { re := sat B (shr x.re bs - shr y.re cs), im := sat B (shr x.im bs - shr y.im cs) }

/-- sat_B(shr(b × c, sh)) (42_kernels.md R165). -/
def mulElem (B : Nat) (sh : Int) (x y : Elem) : Elem :=
  { re := sat B (shr (x.re * y.re) sh), im := 0 }

/-- The complex product, shifted once and saturated once (42_kernels.md R166). -/
def cmulElem (B : Nat) (sh : Int) (x y : Elem) : Elem :=
  { re := sat B (shr (x.re * y.re - x.im * y.im) sh), im := sat B (shr (x.re * y.im + x.im * y.re) sh) }

/-- The product with the conjugate of c (42_kernels.md R167). -/
def cmulcElem (B : Nat) (sh : Int) (x y : Elem) : Elem :=
  { re := sat B (shr (x.re * y.re + x.im * y.im) sh), im := sat B (shr (x.im * y.re - x.re * y.im) sh) }

/-- sat_B(shr(b × α, sh)), each part (42_kernels.md R168). -/
def scaleElem (B : Nat) (α sh : Int) (x : Elem) : Elem :=
  { re := sat B (shr (x.re * α) sh), im := sat B (shr (x.im * α) sh) }

/-- sat_B(mag_fn(shr(re, sh), shr(im, sh))) (42_kernels.md R169). -/
def magElem (mag : MagInstance) (B : Nat) (sh : Int) (x : Elem) : Elem :=
  { re := sat B (magFn mag (shr x.re sh) (shr x.im sh)), im := 0 }

/-- sat_B(shr(re² + im², sh)) (42_kernels.md R170). -/
def sqmagElem (B : Nat) (sh : Int) (x : Elem) : Elem :=
  { re := sat B (shr (x.re * x.re + x.im * x.im) sh), im := 0 }

/-- A signed shift operand (42_kernels.md R160). -/
def shiftIn (s : State) (n : Reg) : Int := s32 (s.reg n)

/-- The element values of VSHL for a type (42_kernels.md R162). -/
def vshlElems (ty : ElemTy) (b sh : Reg) (s : State) : Memory → Nat → Elem :=
  map1 s (vecOf s ty b) (shlElem (bits ty) (shiftIn s sh))

/-- VSHL for a type (42_kernels.md R162). -/
def vshl (ty : ElemTy) (d a b sh : Reg) (s : State) : Host.Outcome State Fault Refusal :=
  kernel s d (vecOf s ty a) [vecOf s ty b] (vshlElems ty b sh s)

/-- The element values of VADD for a type (42_kernels.md R163). -/
def vaddElems (ty : ElemTy) (b c sh t : Reg) (s : State) : Memory → Nat → Elem :=
  map2 s (vecOf s ty b) (vecOf s ty c) (addElem (bits ty) (shiftIn s sh) (shiftIn s t))

/-- VADD for a type (42_kernels.md R163). -/
def vadd (ty : ElemTy) (d a b c sh t : Reg) (s : State) : Host.Outcome State Fault Refusal :=
  kernel s d (vecOf s ty a) [vecOf s ty b, vecOf s ty c] (vaddElems ty b c sh t s)

/-- The element values of VSUB for a type (42_kernels.md R164). -/
def vsubElems (ty : ElemTy) (b c sh t : Reg) (s : State) : Memory → Nat → Elem :=
  map2 s (vecOf s ty b) (vecOf s ty c) (subElem (bits ty) (shiftIn s sh) (shiftIn s t))

/-- VSUB for a type (42_kernels.md R164). -/
def vsub (ty : ElemTy) (d a b c sh t : Reg) (s : State) : Host.Outcome State Fault Refusal :=
  kernel s d (vecOf s ty a) [vecOf s ty b, vecOf s ty c] (vsubElems ty b c sh t s)

/-- The element values of VMUL for a type (42_kernels.md R165). -/
def vmulElems (ty : ElemTy) (b c sh : Reg) (s : State) : Memory → Nat → Elem :=
  map2 s (vecOf s ty b) (vecOf s ty c) (mulElem (bits ty) (shiftIn s sh))

/-- VMUL for a type (42_kernels.md R165). -/
def vmul (ty : ElemTy) (d a b c sh : Reg) (s : State) : Host.Outcome State Fault Refusal :=
  kernel s d (vecOf s ty a) [vecOf s ty b, vecOf s ty c] (vmulElems ty b c sh s)

/-- The element values of VCMUL for a type (42_kernels.md R166). -/
def vcmulElems (ty : ElemTy) (b c sh : Reg) (s : State) : Memory → Nat → Elem :=
  map2 s (vecOf s ty b) (vecOf s ty c) (cmulElem (bits ty) (shiftIn s sh))

/-- VCMUL for a type (42_kernels.md R166). -/
def vcmul (ty : ElemTy) (d a b c sh : Reg) (s : State) : Host.Outcome State Fault Refusal :=
  kernel s d (vecOf s ty a) [vecOf s ty b, vecOf s ty c] (vcmulElems ty b c sh s)

/-- The element values of VCMULC for a type (42_kernels.md R167). -/
def vcmulcElems (ty : ElemTy) (b c sh : Reg) (s : State) : Memory → Nat → Elem :=
  map2 s (vecOf s ty b) (vecOf s ty c) (cmulcElem (bits ty) (shiftIn s sh))

/-- VCMULC for a type (42_kernels.md R167). -/
def vcmulc (ty : ElemTy) (d a b c sh : Reg) (s : State) : Host.Outcome State Fault Refusal :=
  kernel s d (vecOf s ty a) [vecOf s ty b, vecOf s ty c] (vcmulcElems ty b c sh s)

/-- The element values of VSCALE for a type: α is the low B bits of x[c] (42_kernels.md R168). -/
def vscaleElems (ty : ElemTy) (b c sh : Reg) (s : State) : Memory → Nat → Elem :=
  map1 s (vecOf s ty b) (scaleElem (bits ty) (sext (bits ty) (s.reg c)) (shiftIn s sh))

/-- VSCALE for a type (42_kernels.md R168). -/
def vscale (ty : ElemTy) (d a b c sh : Reg) (s : State) : Host.Outcome State Fault Refusal :=
  kernel s d (vecOf s ty a) [vecOf s ty b] (vscaleElems ty b c sh s)

/-- The element values of VMAG for a type (42_kernels.md R169). -/
def vmagElems (ty : ElemTy) (b sh : Reg) (s : State) : Memory → Nat → Elem :=
  map1 s (vecOf s ty b) (magElem s.cfg.mag (bits ty) (shiftIn s sh))

/-- VMAG for a type: the output is real (42_kernels.md R169). -/
def vmag (ty : ElemTy) (d a b sh : Reg) (s : State) : Host.Outcome State Fault Refusal :=
  kernel s d (vecOf s (realType ty) a) [vecOf s ty b] (vmagElems ty b sh s)

/-- The element values of VSQMAG for a type (42_kernels.md R170). -/
def vsqmagElems (ty : ElemTy) (b sh : Reg) (s : State) : Memory → Nat → Elem :=
  map1 s (vecOf s ty b) (sqmagElem (bits ty) (shiftIn s sh))

/-- VSQMAG for a type: the output is real (42_kernels.md R170). -/
def vsqmag (ty : ElemTy) (d a b sh : Reg) (s : State) : Host.Outcome State Fault Refusal :=
  kernel s d (vecOf s (realType ty) a) [vecOf s ty b] (vsqmagElems ty b sh s)

/-- VHR for a type: only b is checked, and no memory is written (42_kernels.md R171). -/
def vhrOf (ty : ElemTy) (d b : Reg) (s : State) : Host.Outcome State Fault Refusal :=
  let n := u32 s.vl
  let vb := vecOf s ty b
  orTrap (operandTrap s.cfg n vb.arrays) s (s.setReg d (BitVec.ofNat 32 (elemsHr ty (s.vecIn s.mem vb n)))).advance

/-- VSHL.s16 (42_kernels.md R162). -/
def execVshlS16 (d a b sh : Reg) (s : State) : Host.Outcome State Fault Refusal :=
  vshl .s16 d a b sh s

/-- VSHL.s32 (42_kernels.md R162). -/
def execVshlS32 (d a b sh : Reg) (s : State) : Host.Outcome State Fault Refusal :=
  vshl .s32 d a b sh s

/-- VSHL.c16 (42_kernels.md R162). -/
def execVshlC16 (d a b sh : Reg) (s : State) : Host.Outcome State Fault Refusal :=
  vshl .c16 d a b sh s

/-- VSHL.c32 (42_kernels.md R162). -/
def execVshlC32 (d a b sh : Reg) (s : State) : Host.Outcome State Fault Refusal :=
  vshl .c32 d a b sh s

/-- VADD.s16 (42_kernels.md R163). -/
def execVaddS16 (d a b c sh t : Reg) (s : State) : Host.Outcome State Fault Refusal :=
  vadd .s16 d a b c sh t s

/-- VADD.s32 (42_kernels.md R163). -/
def execVaddS32 (d a b c sh t : Reg) (s : State) : Host.Outcome State Fault Refusal :=
  vadd .s32 d a b c sh t s

/-- VADD.c16 (42_kernels.md R163). -/
def execVaddC16 (d a b c sh t : Reg) (s : State) : Host.Outcome State Fault Refusal :=
  vadd .c16 d a b c sh t s

/-- VADD.c32 (42_kernels.md R163). -/
def execVaddC32 (d a b c sh t : Reg) (s : State) : Host.Outcome State Fault Refusal :=
  vadd .c32 d a b c sh t s

/-- VSUB.s16 (42_kernels.md R164). -/
def execVsubS16 (d a b c sh t : Reg) (s : State) : Host.Outcome State Fault Refusal :=
  vsub .s16 d a b c sh t s

/-- VSUB.s32 (42_kernels.md R164). -/
def execVsubS32 (d a b c sh t : Reg) (s : State) : Host.Outcome State Fault Refusal :=
  vsub .s32 d a b c sh t s

/-- VSUB.c16 (42_kernels.md R164). -/
def execVsubC16 (d a b c sh t : Reg) (s : State) : Host.Outcome State Fault Refusal :=
  vsub .c16 d a b c sh t s

/-- VSUB.c32 (42_kernels.md R164). -/
def execVsubC32 (d a b c sh t : Reg) (s : State) : Host.Outcome State Fault Refusal :=
  vsub .c32 d a b c sh t s

/-- VMUL.s16 (42_kernels.md R165). -/
def execVmulS16 (d a b c sh : Reg) (s : State) : Host.Outcome State Fault Refusal :=
  vmul .s16 d a b c sh s

/-- VMUL.s32 (42_kernels.md R165). -/
def execVmulS32 (d a b c sh : Reg) (s : State) : Host.Outcome State Fault Refusal :=
  vmul .s32 d a b c sh s

/-- VCMUL.c16 (42_kernels.md R166). -/
def execVcmulC16 (d a b c sh : Reg) (s : State) : Host.Outcome State Fault Refusal :=
  vcmul .c16 d a b c sh s

/-- VCMUL.c32 (42_kernels.md R166). -/
def execVcmulC32 (d a b c sh : Reg) (s : State) : Host.Outcome State Fault Refusal :=
  vcmul .c32 d a b c sh s

/-- VCMULC.c16 (42_kernels.md R167). -/
def execVcmulcC16 (d a b c sh : Reg) (s : State) : Host.Outcome State Fault Refusal :=
  vcmulc .c16 d a b c sh s

/-- VCMULC.c32 (42_kernels.md R167). -/
def execVcmulcC32 (d a b c sh : Reg) (s : State) : Host.Outcome State Fault Refusal :=
  vcmulc .c32 d a b c sh s

/-- VSCALE.s16 (42_kernels.md R168). -/
def execVscaleS16 (d a b c sh : Reg) (s : State) : Host.Outcome State Fault Refusal :=
  vscale .s16 d a b c sh s

/-- VSCALE.s32 (42_kernels.md R168). -/
def execVscaleS32 (d a b c sh : Reg) (s : State) : Host.Outcome State Fault Refusal :=
  vscale .s32 d a b c sh s

/-- VSCALE.c16 (42_kernels.md R168). -/
def execVscaleC16 (d a b c sh : Reg) (s : State) : Host.Outcome State Fault Refusal :=
  vscale .c16 d a b c sh s

/-- VSCALE.c32 (42_kernels.md R168). -/
def execVscaleC32 (d a b c sh : Reg) (s : State) : Host.Outcome State Fault Refusal :=
  vscale .c32 d a b c sh s

/-- VMAG.c16 (42_kernels.md R169). -/
def execVmagC16 (d a b sh : Reg) (s : State) : Host.Outcome State Fault Refusal :=
  vmag .c16 d a b sh s

/-- VMAG.c32 (42_kernels.md R169). -/
def execVmagC32 (d a b sh : Reg) (s : State) : Host.Outcome State Fault Refusal :=
  vmag .c32 d a b sh s

/-- VSQMAG.c16 (42_kernels.md R170). -/
def execVsqmagC16 (d a b sh : Reg) (s : State) : Host.Outcome State Fault Refusal :=
  vsqmag .c16 d a b sh s

/-- VSQMAG.c32 (42_kernels.md R170). -/
def execVsqmagC32 (d a b sh : Reg) (s : State) : Host.Outcome State Fault Refusal :=
  vsqmag .c32 d a b sh s

/-- VHR.s16 (42_kernels.md R171). -/
def execVhrS16 (d b : Reg) (s : State) : Host.Outcome State Fault Refusal :=
  vhrOf .s16 d b s

/-- VHR.s32 (42_kernels.md R171). -/
def execVhrS32 (d b : Reg) (s : State) : Host.Outcome State Fault Refusal :=
  vhrOf .s32 d b s

/-- VHR.c16 (42_kernels.md R171). -/
def execVhrC16 (d b : Reg) (s : State) : Host.Outcome State Fault Refusal :=
  vhrOf .c16 d b s

/-- VHR.c32 (42_kernels.md R171). -/
def execVhrC32 (d b : Reg) (s : State) : Host.Outcome State Fault Refusal :=
  vhrOf .c32 d b s

end Sys2Proof.Machine
end

