-- ==== Sys2Proof/Machine/Scalar.lean ====
section
/-! DEFINITION. The scalar commands (spec/40_sequencer.md R111-R122). -/

namespace Sys2Proof.Machine

/-- EA = wrap32(u32(x[a]) + sext_16(imm16)) (40_sequencer.md R116). -/
def effectiveAddr (s : State) (a : Reg) (imm16 : BitVec 16) : Word := s.reg a + imm16.signExtend 32

/-- The checks of LW and SW: DATA_ALIGN, then DATA_BUS (40_sequencer.md R116, R117). -/
def accessTrap (s : State) (ea : Word) : Option Trap := operandTrap s.cfg 1 [wordArray ea]

/-- x[d] <- v, then the next command. -/
def State.finish (s : State) (d : Reg) (v : Word) : State := (s.setReg d v).advance

/-- x[d] <- hr_B of the low B bits of x[a] (40_sequencer.md R122). -/
def scalarHeadroom (ty : ElemTy) (s : State) (a : Reg) : Word :=
  BitVec.ofNat 32 (hr (bits ty) (sext (bits ty) (s.reg a)))

/-- HALT (40_sequencer.md R111). -/
def execHalt (s : State) : Host.Outcome State Fault Refusal := .next s.halt

/-- LUI: imm20 in bits 31:12, the low 12 bits 0 (40_sequencer.md R112). -/
def execLui (d : Reg) (imm20 : BitVec 20) (s : State) : Host.Outcome State Fault Refusal :=
  .next (s.finish d (imm20 ++ 0#12))

/-- ADDI (40_sequencer.md R113). -/
def execAddi (d a : Reg) (imm16 : BitVec 16) (s : State) : Host.Outcome State Fault Refusal :=
  .next (s.finish d (s.reg a + imm16.signExtend 32))

/-- ADD (40_sequencer.md R114). -/
def execAdd (d a b : Reg) (s : State) : Host.Outcome State Fault Refusal :=
  .next (s.finish d (s.reg a + s.reg b))

/-- SUB (40_sequencer.md R115). -/
def execSub (d a b : Reg) (s : State) : Host.Outcome State Fault Refusal :=
  .next (s.finish d (s.reg a - s.reg b))

/-- LW (40_sequencer.md R116): its load is read number 1 of the command, after the fetch (20_memory.md R78). -/
def execLw (d a : Reg) (imm16 : BitVec 16) (s : State) : Host.Outcome State Fault Refusal :=
  let ea := effectiveAddr s a imm16
  orTrap (accessTrap s ea) s (s.finish d ((s.view s.mem 1).readWord (u32 ea)))

/-- SW (40_sequencer.md R117). -/
def execSw (d a : Reg) (imm16 : BitVec 16) (s : State) : Host.Outcome State Fault Refusal :=
  let ea := effectiveAddr s a imm16
  orTrap (accessTrap s ea) s (s.setMem (s.mem.writeLE (u32 ea) 4 (u32 (s.reg d)))).advance

/-- BEQ: the registers are compared as patterns (40_sequencer.md R118). -/
def execBeq (d a : Reg) (imm16 : BitVec 16) (s : State) : Host.Outcome State Fault Refusal :=
  .next (if s.reg d = s.reg a then s.branch imm16 else s.advance)

/-- BNE (40_sequencer.md R119). -/
def execBne (d a : Reg) (imm16 : BitVec 16) (s : State) : Host.Outcome State Fault Refusal :=
  .next (if s.reg d = s.reg a then s.advance else s.branch imm16)

/-- SETVL: any value is accepted (40_sequencer.md R121). -/
def execSetvl (a : Reg) (s : State) : Host.Outcome State Fault Refusal :=
  .next { s with vl := s.reg a }.advance

/-- HRS.s16 (40_sequencer.md R122). -/
def execHrsS16 (d a : Reg) (s : State) : Host.Outcome State Fault Refusal :=
  .next (s.finish d (scalarHeadroom .s16 s a))

/-- HRS.s32 (40_sequencer.md R122). -/
def execHrsS32 (d a : Reg) (s : State) : Host.Outcome State Fault Refusal :=
  .next (s.finish d (scalarHeadroom .s32 s a))

end Sys2Proof.Machine
end

