-- ==== Sys2Proof/Machine/Dispatch.lean ====
section
/-! DEFINITION. The meaning of every command: one arm for each row of spec/opcode_table.json. -/

namespace Sys2Proof.Machine

def exec (i : Instr) (s : State) : Host.Outcome State Fault Refusal :=
  match i with
  | .halt => Sys2Proof.Machine.execHalt s
  | .lui d imm20 => Sys2Proof.Machine.execLui d imm20 s
  | .addi d a imm16 => Sys2Proof.Machine.execAddi d a imm16 s
  | .add d a b => Sys2Proof.Machine.execAdd d a b s
  | .sub d a b => Sys2Proof.Machine.execSub d a b s
  | .lw d a imm16 => Sys2Proof.Machine.execLw d a imm16 s
  | .sw d a imm16 => Sys2Proof.Machine.execSw d a imm16 s
  | .beq d a imm16 => Sys2Proof.Machine.execBeq d a imm16 s
  | .bne d a imm16 => Sys2Proof.Machine.execBne d a imm16 s
  | .setvl a => Sys2Proof.Machine.execSetvl a s
  | .hrsS16 d a => Sys2Proof.Machine.execHrsS16 d a s
  | .hrsS32 d a => Sys2Proof.Machine.execHrsS32 d a s
  | .calcAddS16 d b c sh t => Sys2Proof.Machine.execCalcAddS16 d b c sh t s
  | .calcAddS32 d b c sh t => Sys2Proof.Machine.execCalcAddS32 d b c sh t s
  | .calcAddC16 d b c sh t => Sys2Proof.Machine.execCalcAddC16 d b c sh t s
  | .calcAddC32 d b c sh t => Sys2Proof.Machine.execCalcAddC32 d b c sh t s
  | .calcMulS16 d b c sh t => Sys2Proof.Machine.execCalcMulS16 d b c sh t s
  | .calcMulS32 d b c sh t => Sys2Proof.Machine.execCalcMulS32 d b c sh t s
  | .calcCmulC16 d b c sh t => Sys2Proof.Machine.execCalcCmulC16 d b c sh t s
  | .calcCmulC32 d b c sh t => Sys2Proof.Machine.execCalcCmulC32 d b c sh t s
  | .calcScaleS16 d b c sh t => Sys2Proof.Machine.execCalcScaleS16 d b c sh t s
  | .calcScaleS32 d b c sh t => Sys2Proof.Machine.execCalcScaleS32 d b c sh t s
  | .calcScaleC16 d b c sh t => Sys2Proof.Machine.execCalcScaleC16 d b c sh t s
  | .calcScaleC32 d b c sh t => Sys2Proof.Machine.execCalcScaleC32 d b c sh t s
  | .calcMagC16 d b sh => Sys2Proof.Machine.execCalcMagC16 d b sh s
  | .calcMagC32 d b sh => Sys2Proof.Machine.execCalcMagC32 d b sh s
  | .calcSqmagC16 d b sh => Sys2Proof.Machine.execCalcSqmagC16 d b sh s
  | .calcSqmagC32 d b sh => Sys2Proof.Machine.execCalcSqmagC32 d b sh s
  | .vshlS16 d a b sh => Sys2Proof.Machine.execVshlS16 d a b sh s
  | .vshlS32 d a b sh => Sys2Proof.Machine.execVshlS32 d a b sh s
  | .vshlC16 d a b sh => Sys2Proof.Machine.execVshlC16 d a b sh s
  | .vshlC32 d a b sh => Sys2Proof.Machine.execVshlC32 d a b sh s
  | .vaddS16 d a b c sh t => Sys2Proof.Machine.execVaddS16 d a b c sh t s
  | .vaddS32 d a b c sh t => Sys2Proof.Machine.execVaddS32 d a b c sh t s
  | .vaddC16 d a b c sh t => Sys2Proof.Machine.execVaddC16 d a b c sh t s
  | .vaddC32 d a b c sh t => Sys2Proof.Machine.execVaddC32 d a b c sh t s
  | .vsubS16 d a b c sh t => Sys2Proof.Machine.execVsubS16 d a b c sh t s
  | .vsubS32 d a b c sh t => Sys2Proof.Machine.execVsubS32 d a b c sh t s
  | .vsubC16 d a b c sh t => Sys2Proof.Machine.execVsubC16 d a b c sh t s
  | .vsubC32 d a b c sh t => Sys2Proof.Machine.execVsubC32 d a b c sh t s
  | .vmulS16 d a b c sh => Sys2Proof.Machine.execVmulS16 d a b c sh s
  | .vmulS32 d a b c sh => Sys2Proof.Machine.execVmulS32 d a b c sh s
  | .vcmulC16 d a b c sh => Sys2Proof.Machine.execVcmulC16 d a b c sh s
  | .vcmulC32 d a b c sh => Sys2Proof.Machine.execVcmulC32 d a b c sh s
  | .vcmulcC16 d a b c sh => Sys2Proof.Machine.execVcmulcC16 d a b c sh s
  | .vcmulcC32 d a b c sh => Sys2Proof.Machine.execVcmulcC32 d a b c sh s
  | .vscaleS16 d a b c sh => Sys2Proof.Machine.execVscaleS16 d a b c sh s
  | .vscaleS32 d a b c sh => Sys2Proof.Machine.execVscaleS32 d a b c sh s
  | .vscaleC16 d a b c sh => Sys2Proof.Machine.execVscaleC16 d a b c sh s
  | .vscaleC32 d a b c sh => Sys2Proof.Machine.execVscaleC32 d a b c sh s
  | .vmagC16 d a b sh => Sys2Proof.Machine.execVmagC16 d a b sh s
  | .vmagC32 d a b sh => Sys2Proof.Machine.execVmagC32 d a b sh s
  | .vsqmagC16 d a b sh => Sys2Proof.Machine.execVsqmagC16 d a b sh s
  | .vsqmagC32 d a b sh => Sys2Proof.Machine.execVsqmagC32 d a b sh s
  | .vhrS16 d b => Sys2Proof.Machine.execVhrS16 d b s
  | .vhrS32 d b => Sys2Proof.Machine.execVhrS32 d b s
  | .vhrC16 d b => Sys2Proof.Machine.execVhrC16 d b s
  | .vhrC32 d b => Sys2Proof.Machine.execVhrC32 d b s
  | .vbitrevC32 a => Sys2Proof.Machine.execVbitrevC32 a s
  | .fftfC32 d a b => Sys2Proof.Machine.execFftfC32 d a b s
  | .fftiC32 d a b => Sys2Proof.Machine.execFftiC32 d a b s

end Sys2Proof.Machine
end

