-- ==== Sys2Proof/Machine/Access.lean ====
section
/-! DEFINITION. What a command accesses in the shared memory when it completes: the ranges it reads, the ranges it writes and the byte
writes it makes, in order (spec/20_memory.md R69). -/

namespace Sys2Proof.Machine

/-- The address ranges a command writes when it completes: SW's word (40_sequencer.md R117), a kernel's output operand
(42_kernels.md R160), the buffer of VBITREV, FFTF and FFTI (43_fft.md R195). -/
def storeSpans (i : Instr) (s : State) : List Span :=
  match i with
  | .halt => []
  | .lui _ _ => []
  | .addi _ _ _ => []
  | .add _ _ _ => []
  | .sub _ _ _ => []
  | .lw _ _ _ => []
  | .sw _ a imm16 => [⟨u32 (effectiveAddr s a imm16), 4⟩]
  | .beq _ _ _ => []
  | .bne _ _ _ => []
  | .setvl _ => []
  | .hrsS16 _ _ => []
  | .hrsS32 _ _ => []
  | .calcAddS16 _ _ _ _ _ => []
  | .calcAddS32 _ _ _ _ _ => []
  | .calcAddC16 _ _ _ _ _ => []
  | .calcAddC32 _ _ _ _ _ => []
  | .calcMulS16 _ _ _ _ _ => []
  | .calcMulS32 _ _ _ _ _ => []
  | .calcCmulC16 _ _ _ _ _ => []
  | .calcCmulC32 _ _ _ _ _ => []
  | .calcScaleS16 _ _ _ _ _ => []
  | .calcScaleS32 _ _ _ _ _ => []
  | .calcScaleC16 _ _ _ _ _ => []
  | .calcScaleC32 _ _ _ _ _ => []
  | .calcMagC16 _ _ _ => []
  | .calcMagC32 _ _ _ => []
  | .calcSqmagC16 _ _ _ => []
  | .calcSqmagC32 _ _ _ => []
  | .vshlS16 _ a _ _ => vecSpans (vecOf s .s16 a) (u32 s.vl)
  | .vshlS32 _ a _ _ => vecSpans (vecOf s .s32 a) (u32 s.vl)
  | .vshlC16 _ a _ _ => vecSpans (vecOf s .c16 a) (u32 s.vl)
  | .vshlC32 _ a _ _ => vecSpans (vecOf s .c32 a) (u32 s.vl)
  | .vaddS16 _ a _ _ _ _ => vecSpans (vecOf s .s16 a) (u32 s.vl)
  | .vaddS32 _ a _ _ _ _ => vecSpans (vecOf s .s32 a) (u32 s.vl)
  | .vaddC16 _ a _ _ _ _ => vecSpans (vecOf s .c16 a) (u32 s.vl)
  | .vaddC32 _ a _ _ _ _ => vecSpans (vecOf s .c32 a) (u32 s.vl)
  | .vsubS16 _ a _ _ _ _ => vecSpans (vecOf s .s16 a) (u32 s.vl)
  | .vsubS32 _ a _ _ _ _ => vecSpans (vecOf s .s32 a) (u32 s.vl)
  | .vsubC16 _ a _ _ _ _ => vecSpans (vecOf s .c16 a) (u32 s.vl)
  | .vsubC32 _ a _ _ _ _ => vecSpans (vecOf s .c32 a) (u32 s.vl)
  | .vmulS16 _ a _ _ _ => vecSpans (vecOf s .s16 a) (u32 s.vl)
  | .vmulS32 _ a _ _ _ => vecSpans (vecOf s .s32 a) (u32 s.vl)
  | .vcmulC16 _ a _ _ _ => vecSpans (vecOf s .c16 a) (u32 s.vl)
  | .vcmulC32 _ a _ _ _ => vecSpans (vecOf s .c32 a) (u32 s.vl)
  | .vcmulcC16 _ a _ _ _ => vecSpans (vecOf s .c16 a) (u32 s.vl)
  | .vcmulcC32 _ a _ _ _ => vecSpans (vecOf s .c32 a) (u32 s.vl)
  | .vscaleS16 _ a _ _ _ => vecSpans (vecOf s .s16 a) (u32 s.vl)
  | .vscaleS32 _ a _ _ _ => vecSpans (vecOf s .s32 a) (u32 s.vl)
  | .vscaleC16 _ a _ _ _ => vecSpans (vecOf s .c16 a) (u32 s.vl)
  | .vscaleC32 _ a _ _ _ => vecSpans (vecOf s .c32 a) (u32 s.vl)
  | .vmagC16 _ a _ _ => vecSpans (vecOf s .s16 a) (u32 s.vl)
  | .vmagC32 _ a _ _ => vecSpans (vecOf s .s32 a) (u32 s.vl)
  | .vsqmagC16 _ a _ _ => vecSpans (vecOf s .s16 a) (u32 s.vl)
  | .vsqmagC32 _ a _ _ => vecSpans (vecOf s .s32 a) (u32 s.vl)
  | .vhrS16 _ _ => []
  | .vhrS32 _ _ => []
  | .vhrC16 _ _ => []
  | .vhrC32 _ _ => []
  | .vbitrevC32 a => vecSpans (fftVec s a) (u32 s.vl)
  | .fftfC32 _ a _ => vecSpans (fftVec s a) (u32 s.vl)
  | .fftiC32 _ a _ => vecSpans (fftVec s a) (u32 s.vl)

/-- The address ranges a command reads when it completes, its own word apart: LW's word (40_sequencer.md R116), the vector inputs of a
kernel (42_kernels.md R160), the buffer of VBITREV, FFTF and FFTI (43_fft.md R195). -/
def readSpans (i : Instr) (s : State) : List Span :=
  match i with
  | .halt => []
  | .lui _ _ => []
  | .addi _ _ _ => []
  | .add _ _ _ => []
  | .sub _ _ _ => []
  | .lw _ a imm16 => [⟨u32 (effectiveAddr s a imm16), 4⟩]
  | .sw _ _ _ => []
  | .beq _ _ _ => []
  | .bne _ _ _ => []
  | .setvl _ => []
  | .hrsS16 _ _ => []
  | .hrsS32 _ _ => []
  | .calcAddS16 _ _ _ _ _ => []
  | .calcAddS32 _ _ _ _ _ => []
  | .calcAddC16 _ _ _ _ _ => []
  | .calcAddC32 _ _ _ _ _ => []
  | .calcMulS16 _ _ _ _ _ => []
  | .calcMulS32 _ _ _ _ _ => []
  | .calcCmulC16 _ _ _ _ _ => []
  | .calcCmulC32 _ _ _ _ _ => []
  | .calcScaleS16 _ _ _ _ _ => []
  | .calcScaleS32 _ _ _ _ _ => []
  | .calcScaleC16 _ _ _ _ _ => []
  | .calcScaleC32 _ _ _ _ _ => []
  | .calcMagC16 _ _ _ => []
  | .calcMagC32 _ _ _ => []
  | .calcSqmagC16 _ _ _ => []
  | .calcSqmagC32 _ _ _ => []
  | .vshlS16 _ _ b _ => vecSpans (vecOf s .s16 b) (u32 s.vl)
  | .vshlS32 _ _ b _ => vecSpans (vecOf s .s32 b) (u32 s.vl)
  | .vshlC16 _ _ b _ => vecSpans (vecOf s .c16 b) (u32 s.vl)
  | .vshlC32 _ _ b _ => vecSpans (vecOf s .c32 b) (u32 s.vl)
  | .vaddS16 _ _ b c _ _ => vecSpans (vecOf s .s16 b) (u32 s.vl) ++ vecSpans (vecOf s .s16 c) (u32 s.vl)
  | .vaddS32 _ _ b c _ _ => vecSpans (vecOf s .s32 b) (u32 s.vl) ++ vecSpans (vecOf s .s32 c) (u32 s.vl)
  | .vaddC16 _ _ b c _ _ => vecSpans (vecOf s .c16 b) (u32 s.vl) ++ vecSpans (vecOf s .c16 c) (u32 s.vl)
  | .vaddC32 _ _ b c _ _ => vecSpans (vecOf s .c32 b) (u32 s.vl) ++ vecSpans (vecOf s .c32 c) (u32 s.vl)
  | .vsubS16 _ _ b c _ _ => vecSpans (vecOf s .s16 b) (u32 s.vl) ++ vecSpans (vecOf s .s16 c) (u32 s.vl)
  | .vsubS32 _ _ b c _ _ => vecSpans (vecOf s .s32 b) (u32 s.vl) ++ vecSpans (vecOf s .s32 c) (u32 s.vl)
  | .vsubC16 _ _ b c _ _ => vecSpans (vecOf s .c16 b) (u32 s.vl) ++ vecSpans (vecOf s .c16 c) (u32 s.vl)
  | .vsubC32 _ _ b c _ _ => vecSpans (vecOf s .c32 b) (u32 s.vl) ++ vecSpans (vecOf s .c32 c) (u32 s.vl)
  | .vmulS16 _ _ b c _ => vecSpans (vecOf s .s16 b) (u32 s.vl) ++ vecSpans (vecOf s .s16 c) (u32 s.vl)
  | .vmulS32 _ _ b c _ => vecSpans (vecOf s .s32 b) (u32 s.vl) ++ vecSpans (vecOf s .s32 c) (u32 s.vl)
  | .vcmulC16 _ _ b c _ => vecSpans (vecOf s .c16 b) (u32 s.vl) ++ vecSpans (vecOf s .c16 c) (u32 s.vl)
  | .vcmulC32 _ _ b c _ => vecSpans (vecOf s .c32 b) (u32 s.vl) ++ vecSpans (vecOf s .c32 c) (u32 s.vl)
  | .vcmulcC16 _ _ b c _ => vecSpans (vecOf s .c16 b) (u32 s.vl) ++ vecSpans (vecOf s .c16 c) (u32 s.vl)
  | .vcmulcC32 _ _ b c _ => vecSpans (vecOf s .c32 b) (u32 s.vl) ++ vecSpans (vecOf s .c32 c) (u32 s.vl)
  | .vscaleS16 _ _ b _ _ => vecSpans (vecOf s .s16 b) (u32 s.vl)
  | .vscaleS32 _ _ b _ _ => vecSpans (vecOf s .s32 b) (u32 s.vl)
  | .vscaleC16 _ _ b _ _ => vecSpans (vecOf s .c16 b) (u32 s.vl)
  | .vscaleC32 _ _ b _ _ => vecSpans (vecOf s .c32 b) (u32 s.vl)
  | .vmagC16 _ _ b _ => vecSpans (vecOf s .c16 b) (u32 s.vl)
  | .vmagC32 _ _ b _ => vecSpans (vecOf s .c32 b) (u32 s.vl)
  | .vsqmagC16 _ _ b _ => vecSpans (vecOf s .c16 b) (u32 s.vl)
  | .vsqmagC32 _ _ b _ => vecSpans (vecOf s .c32 b) (u32 s.vl)
  | .vhrS16 _ b => vecSpans (vecOf s .s16 b) (u32 s.vl)
  | .vhrS32 _ b => vecSpans (vecOf s .s32 b) (u32 s.vl)
  | .vhrC16 _ b => vecSpans (vecOf s .c16 b) (u32 s.vl)
  | .vhrC32 _ b => vecSpans (vecOf s .c32 b) (u32 s.vl)
  | .vbitrevC32 a => vecSpans (fftVec s a) (u32 s.vl)
  | .fftfC32 _ a _ => vecSpans (fftVec s a) (u32 s.vl)
  | .fftiC32 _ a _ => vecSpans (fftVec s a) (u32 s.vl)

/-- The byte writes of FFTF and FFTI, image after image of the buffer (43_fft.md R200). -/
def fftCells (conj : Bool) (a b : Reg) (s : State) : List Host.Cell :=
  let N := u32 s.vl
  let v := fftVec s a
  (fftImages s.cfg.maxFftLog2 conj (s.vecAgain v) (log2 N) (bitReverse (log2 N) (s.vecIn s.mem v N), s32 (s.reg b))).flatMap (vecCells v 0)

/-- The byte writes a command makes when it completes, in order: those of SW (40_sequencer.md R117), element after element those of a
kernel (20_memory.md R74) and of VBITREV (43_fft.md R197), image after image those of FFTF and FFTI (R200, R201). -/
def commandCells (i : Instr) (s : State) : List Host.Cell :=
  match i with
  | .halt => []
  | .lui _ _ => []
  | .addi _ _ _ => []
  | .add _ _ _ => []
  | .sub _ _ _ => []
  | .lw _ _ _ => []
  | .sw d a imm16 => leCells (u32 (effectiveAddr s a imm16)) 4 (u32 (s.reg d))
  | .beq _ _ _ => []
  | .bne _ _ _ => []
  | .setvl _ => []
  | .hrsS16 _ _ => []
  | .hrsS32 _ _ => []
  | .calcAddS16 _ _ _ _ _ => []
  | .calcAddS32 _ _ _ _ _ => []
  | .calcAddC16 _ _ _ _ _ => []
  | .calcAddC32 _ _ _ _ _ => []
  | .calcMulS16 _ _ _ _ _ => []
  | .calcMulS32 _ _ _ _ _ => []
  | .calcCmulC16 _ _ _ _ _ => []
  | .calcCmulC32 _ _ _ _ _ => []
  | .calcScaleS16 _ _ _ _ _ => []
  | .calcScaleS32 _ _ _ _ _ => []
  | .calcScaleC16 _ _ _ _ _ => []
  | .calcScaleC32 _ _ _ _ _ => []
  | .calcMagC16 _ _ _ => []
  | .calcMagC32 _ _ _ => []
  | .calcSqmagC16 _ _ _ => []
  | .calcSqmagC32 _ _ _ => []
  | .vshlS16 _ a b sh => kernelCells (vecOf s .s16 a) (vshlElems .s16 b sh s) (u32 s.vl) s.mem
  | .vshlS32 _ a b sh => kernelCells (vecOf s .s32 a) (vshlElems .s32 b sh s) (u32 s.vl) s.mem
  | .vshlC16 _ a b sh => kernelCells (vecOf s .c16 a) (vshlElems .c16 b sh s) (u32 s.vl) s.mem
  | .vshlC32 _ a b sh => kernelCells (vecOf s .c32 a) (vshlElems .c32 b sh s) (u32 s.vl) s.mem
  | .vaddS16 _ a b c sh t => kernelCells (vecOf s .s16 a) (vaddElems .s16 b c sh t s) (u32 s.vl) s.mem
  | .vaddS32 _ a b c sh t => kernelCells (vecOf s .s32 a) (vaddElems .s32 b c sh t s) (u32 s.vl) s.mem
  | .vaddC16 _ a b c sh t => kernelCells (vecOf s .c16 a) (vaddElems .c16 b c sh t s) (u32 s.vl) s.mem
  | .vaddC32 _ a b c sh t => kernelCells (vecOf s .c32 a) (vaddElems .c32 b c sh t s) (u32 s.vl) s.mem
  | .vsubS16 _ a b c sh t => kernelCells (vecOf s .s16 a) (vsubElems .s16 b c sh t s) (u32 s.vl) s.mem
  | .vsubS32 _ a b c sh t => kernelCells (vecOf s .s32 a) (vsubElems .s32 b c sh t s) (u32 s.vl) s.mem
  | .vsubC16 _ a b c sh t => kernelCells (vecOf s .c16 a) (vsubElems .c16 b c sh t s) (u32 s.vl) s.mem
  | .vsubC32 _ a b c sh t => kernelCells (vecOf s .c32 a) (vsubElems .c32 b c sh t s) (u32 s.vl) s.mem
  | .vmulS16 _ a b c sh => kernelCells (vecOf s .s16 a) (vmulElems .s16 b c sh s) (u32 s.vl) s.mem
  | .vmulS32 _ a b c sh => kernelCells (vecOf s .s32 a) (vmulElems .s32 b c sh s) (u32 s.vl) s.mem
  | .vcmulC16 _ a b c sh => kernelCells (vecOf s .c16 a) (vcmulElems .c16 b c sh s) (u32 s.vl) s.mem
  | .vcmulC32 _ a b c sh => kernelCells (vecOf s .c32 a) (vcmulElems .c32 b c sh s) (u32 s.vl) s.mem
  | .vcmulcC16 _ a b c sh => kernelCells (vecOf s .c16 a) (vcmulcElems .c16 b c sh s) (u32 s.vl) s.mem
  | .vcmulcC32 _ a b c sh => kernelCells (vecOf s .c32 a) (vcmulcElems .c32 b c sh s) (u32 s.vl) s.mem
  | .vscaleS16 _ a b c sh => kernelCells (vecOf s .s16 a) (vscaleElems .s16 b c sh s) (u32 s.vl) s.mem
  | .vscaleS32 _ a b c sh => kernelCells (vecOf s .s32 a) (vscaleElems .s32 b c sh s) (u32 s.vl) s.mem
  | .vscaleC16 _ a b c sh => kernelCells (vecOf s .c16 a) (vscaleElems .c16 b c sh s) (u32 s.vl) s.mem
  | .vscaleC32 _ a b c sh => kernelCells (vecOf s .c32 a) (vscaleElems .c32 b c sh s) (u32 s.vl) s.mem
  | .vmagC16 _ a b sh => kernelCells (vecOf s .s16 a) (vmagElems .c16 b sh s) (u32 s.vl) s.mem
  | .vmagC32 _ a b sh => kernelCells (vecOf s .s32 a) (vmagElems .c32 b sh s) (u32 s.vl) s.mem
  | .vsqmagC16 _ a b sh => kernelCells (vecOf s .s16 a) (vsqmagElems .c16 b sh s) (u32 s.vl) s.mem
  | .vsqmagC32 _ a b sh => kernelCells (vecOf s .s32 a) (vsqmagElems .c32 b sh s) (u32 s.vl) s.mem
  | .vhrS16 _ _ => []
  | .vhrS32 _ _ => []
  | .vhrC16 _ _ => []
  | .vhrC32 _ _ => []
  | .vbitrevC32 a => vecCells (fftVec s a) 0 (bitReverse (log2 (u32 s.vl)) (s.vecIn s.mem (fftVec s a) (u32 s.vl)))
  | .fftfC32 _ a b => fftCells false a b s
  | .fftiC32 _ a b => fftCells true a b s

/-- The addresses of a span, ascending. -/
def spanAddrs (p : Span) : List Nat := (List.range p.len).map (p.base + ·)

end Sys2Proof.Machine
end

