-- ==== Sys2Proof/Machine/Sequencer.lean ====
section
/-! DEFINITION. The sequencer's cycle (spec/40_sequencer.md R110): fetch, decode, execute, then what a race leaves of the command
(20_memory.md R78) and the command boundary (60_exceptions.md R226); a reset inside a command; how a fetch is set up from outside. -/

namespace Sys2Proof.Machine

/-- The checks of a fetch: FETCH_ALIGN, then FETCH_BUS (40_sequencer.md R110). -/
def fetchTrap (s : State) : Option Trap :=
  if u32 s.pc % 4 ≠ 0 then some ⟨.fetchAlign, s.pc⟩
  else if !rangeValid s.cfg (u32 s.pc) 4 then some ⟨.fetchBus, s.pc⟩
  else none

/-- The command word at PC, the command's read number 0 (40_sequencer.md R110; 20_memory.md R78). -/
def fetchWord (s : State) : Word := (s.view s.mem 0).readWord (u32 s.pc)

/-- Fetch, decode and execute one command (40_sequencer.md R110). -/
def command (s : State) : Host.Outcome State Fault Refusal :=
  match fetchTrap s with
  | some t => .next (s.raise t)
  | none =>
    match decode (fetchWord s) with
    | .error _ => .next (s.raise ⟨.illegal, fetchWord s⟩)
    | .ok i => exec i s

/-- The command that the sequencer is about to run, or is running, where it will complete with the run going on. None for a command
that faults or halts: it accesses no memory but its own word (20_memory.md R68). -/
def inProgress (s : State) : Option Instr :=
  match fetchTrap s, decode (fetchWord s) with
  | none, .ok i =>
    match exec i s with
    | .next t => if t.run = .run then some i else none
    | _ => none
  | _, _ => none

/-- The address ranges that the present command writes. -/
def written (s : State) : List Span :=
  match inProgress s with
  | some i => storeSpans i s
  | none => []

/-- The address ranges that the present command reads, its own word first; none where its fetch faults (20_memory.md R66, R67). -/
def accessed (s : State) : List Span :=
  match fetchTrap s with
  | some _ => []
  | none =>
    ⟨u32 s.pc, 4⟩ ::
      match inProgress s with
      | some i => readSpans i s
      | none => []

/-- At bytes that host and CORE both wrote: the value the command leaves or the one before it, freely (20_memory.md R78). The one before may
be a value that the CORE itself wrote earlier in the run: that R78's "either agent's value" takes in the older values of an agent that
wrote more than once is a DESIGN CHOICE (log entry 19). -/
def State.settle (t : State) (before : Memory) : List Nat → State
  | [] => t
  | a :: rest => State.settle (t.oneByteAt a (t.mem.read a) [before.read a]) before rest

/-- The accesses of the present command recorded, each range once (log entry 6). -/
def Race.record (r : Race) (s : State) : Race :=
  { r with runRead := (accessed s).foldr List.insert r.runRead, runWrote := (written s).foldr List.insert r.runWrote }

/-- What follows a command, `s` the state before it and `t` the one it ended in: each byte it wrote that the host stored to during the run
holds either value (20_memory.md R78), and its accesses are recorded (log entry 6). -/
def State.after (s t : State) : State :=
  let u := t.settle s.mem (s.race.hostStored.filter (inSpans (written s)))
  { u with race := u.race.record s, freeCount := u.freeCount + 1 }

/-- The command boundary: a pending abort is taken where the run goes on (60_exceptions.md R226); a race ends with its run. -/
def State.boundary (s : State) : State :=
  let s' := if s.run = .run ∧ s.abortReq then s.abort else s
  if s'.run = .idle then { s' with race := .none } else s'

/-- The sequencer's move: nothing while IDLE (10_state.md R35, 70_reset_and_hazards.md R250), one command while RUN. -/
def sequencer (s : State) : Host.Outcome State Fault Refusal :=
  match s.run with
  | .idle => .next s
  | .run =>
    match command s with
    | .next t => .next (s.after t).boundary
    | .fault r => .fault r
    | .refused r => .refused r

/-- What reset inside a run leaves of the command in progress (70_reset_and_hazards.md R250, U10; log entry 8): every byte the command
would write is its old byte or one the command writes there, freely; every other byte stays. -/
def State.abandon (s : State) : State :=
  match s.run, inProgress s with
  | .run, some i => s.oneOfWritesAt s.mem (commandCells i s) ((storeSpans i s).flatMap spanAddrs)
  | _, _ => s

/-- The state with a command word where the next step fetches it, and all that the fetch needs: PC on a word boundary, the word's four
bytes valid memory, the sequencer running, no host move before it and no race on it. -/
def State.placeWord (s : State) (w : Word) : State :=
  let pc : Word := BitVec.ofNat 32 (u32 s.pc / 4 * 4)
  let cfg := if rangeValid s.cfg (u32 pc) 4 then s.cfg else { s.cfg with memMap := ⟨u32 pc, 4⟩ :: s.cfg.memMap }
  let s' := { s with pc := pc, mem := s.mem.writeLE (u32 pc) 4 (u32 w), cfg := cfg, hostQueue := [], race := .none }
  match s.run with
  | .idle => s'.start
  | .run => s'

end Sys2Proof.Machine
end

