-- ==== Sys2Proof/Machine/HostPort.lean ====
section
/-! DEFINITION. The host's side: the register window (spec/10_state.md R40-R52), the host's accesses to the shared memory
(20_memory.md R77, R78), the reset input (70_reset_and_hazards.md R250), and the races that the host's pending moves bring. -/

namespace Sys2Proof.Machine

/-- What a window offset names (the table of 10_state.md R40). -/
inductive WindowReg where
  | id
  | cfg
  | ctrl
  | status
  | pc
  | vl
  | epc
  | finfo
  | x (n : Reg)
  | reserved
deriving DecidableEq, Repr

/-- The register at a window offset (10_state.md R40). -/
def windowReg (off : Nat) : WindowReg :=
  match off with
  | 0x00 => .id
  | 0x04 => .cfg
  | 0x08 => .ctrl
  | 0x0C => .status
  | 0x10 => .pc
  | 0x14 => .vl
  | 0x18 => .epc
  | 0x1C => .finfo
  | _ => if 0x40 ≤ off ∧ off < 0x80 then .x (Fin.ofNat 16 ((off - 0x40) / 4)) else .reserved

/-- The window offset of a host access, where it is legal: inside the 256 bytes at CORE_BASE and a multiple of 4 (10_state.md R40, R50). -/
def windowOffset (c : Config) (addr : Nat) : Option Nat :=
  if c.coreBase ≤ addr ∧ addr < c.coreBase + 256 ∧ (addr - c.coreBase) % 4 = 0 then some (addr - c.coreBase) else none

/-- What a window register reads as; `none` is an unspecified value: PC, VL and X0 … X15 while RUN (10_state.md R40-R49, R52). -/
def windowValue (s : State) (r : WindowReg) : Option Word :=
  match r with
  | .id => some idWord
  | .cfg => some (cfgWord s.cfg)
  | .ctrl => some (ctrlWord s)
  | .status => some (statusWord s)
  | .pc => match s.run with
    | .idle => some s.pc
    | .run => none
  | .vl => match s.run with
    | .idle => some s.vl
    | .run => none
  | .epc => some s.epc
  | .finfo => some s.finfo
  | .x n => match s.run with
    | .idle => some (s.reg n)
    | .run => none
  | .reserved => some 0#32

/-- A host read of a window register: an unspecified value is a free one (10_state.md R52, U7; log entry 5). -/
def State.readWindow (s : State) (r : WindowReg) : State :=
  match windowValue s r with
  | some v => { s with hostData := v }
  | none => { s with hostData := Config.freeWord s.freeCount, freeCount := s.freeCount + 1 }

/-- A host write of a window register (10_state.md R41, R42, R45, R46, R49, R51): PC, VL and the general registers take a write only
while IDLE; read-only registers and reserved offsets ignore it (log entry 9). -/
def State.writeWindow (s : State) (r : WindowReg) (v : Word) : State :=
  match r with
  | .ctrl => s.writeCtrl v
  | .status => s.writeStatus v
  | .pc => match s.run with
    | .idle => { s with pc := v }
    | .run => s
  | .vl => match s.run with
    | .idle => { s with vl := v }
    | .run => s
  | .x n => match s.run with
    | .idle => s.setReg n v
    | .run => s
  | .id => s
  | .cfg => s
  | .epc => s
  | .finfo => s
  | .reserved => s

/-- A host store of one byte. It is written, and where the run has written the byte it may keep the run's value instead, freely; from then
to the end of the run every command reads the byte as any value (20_memory.md R78, U9; log entry 6). The run's value may be one the host
stored over before: R78's "either agent's value" is taken to admit older values too, DESIGN CHOICE (log entry 19). At an address where `mem_valid` is
false the same happens: the spec is silent there, DESIGN CHOICE (log entry 17). As soon as a run has ended the host's byte stands, also where
the run wrote the byte and the host has not read STATUS yet: 20_memory.md R77 orders nothing before that read, DESIGN CHOICE (log entry 18). -/
def State.hostStore (s : State) (a : Word) (b : Byte) : State :=
  match s.run with
  | .idle => { s with mem := s.mem.write (u32 a) b }
  | .run =>
    let s' := if inSpans s.race.runWrote (u32 a) then s.oneByteAt (u32 a) b [s.mem.read (u32 a)]
      else { s with mem := s.mem.write (u32 a) b }
    { s' with race := { s'.race with hostStored := u32 a :: s'.race.hostStored } }

/-- A host load of this byte is a race while RUN (20_memory.md R78): the run has written it, or has read it though the host stored to it,
or the race is foretold. -/
def State.loadRaces (s : State) (a : Nat) : Bool :=
  inSpans s.race.runWrote a || (decide (a ∈ s.race.hostStored) && inSpans s.race.runRead a) || decide (a ∈ s.race.foretold)

/-- A host load of one byte: what memory holds, or, where it is a race, any value (20_memory.md R78, U9; log entry 6). At an address where
`mem_valid` is false too: the spec is silent there, DESIGN CHOICE (log entry 17). As soon as a run has ended it is what memory holds,
though the host has not read STATUS yet: 20_memory.md R77 orders nothing before that read, DESIGN CHOICE (log entry 18). -/
def State.hostLoad (s : State) (a : Word) : State :=
  match s.run with
  | .idle => { s with hostData := (s.mem.read (u32 a)).setWidth 32 }
  | .run =>
    { s with
      hostData := (if s.loadRaces (u32 a) then Config.freeByte s.freeCount else s.mem.read (u32 a)).setWidth 32
      race := { s.race with hostLoaded := u32 a :: s.race.hostLoaded }
      freeCount := s.freeCount + 1 }

/-- A byte that host and run may race for, named (20_memory.md R78; log entry 6). -/
def State.foretell (s : State) (a : Word) : State := { s with race := { s.race with named := u32 a :: s.race.named } }

/-- The reset input: every piece of CORE state takes its reset value at once; the shared memory stays but for the bytes of an
abandoned command (70_reset_and_hazards.md R250). The model's own host fields and count of free values go on. -/
def State.hostReset (s : State) : State :=
  let s' := s.abandon
  { State.afterReset s'.cfg s'.mem with hostQueue := s'.hostQueue, hostData := s'.hostData, freeCount := s'.freeCount }

/-- One move of the host, where it causes no race that is still to come (log entry 4). A window access that is misaligned or outside the
window is refused (10_state.md R50, U8; log entry 7). -/
def plainMove (act : HostAct) (s : State) : Host.Outcome State Fault Refusal :=
  match act with
  | .pass => sequencer s
  | .write addr v =>
    match windowOffset s.cfg addr with
    | some off => .next (s.writeWindow (windowReg off) v)
    | none => .refused .hostAccess
  | .read addr =>
    match windowOffset s.cfg addr with
    | some off => .next (s.readWindow (windowReg off))
    | none => .refused .hostAccess
  | .store a b => .next (s.hostStore a b)
  | .load a => .next (s.hostLoad a)
  | .reset => .next s.hostReset
  | .foretell a => .next (s.foretell a)

/-! ### Races that are still to come

20_memory.md R78 opens every CORE and host read of a raced byte, those made before the access that makes it a race too. The host's pending
moves stand in the state, and after the last of them the sequencer is alone, so what will race is found by going through all of it. -/

/-- The command touches a byte that is open to a race. -/
def touchesOpen (s : State) : Bool := s.clouded.any (inSpans (accessed s ++ written s))

/-- The accesses that run and host will have made when a run ends in which the sequencer is alone. The run is followed until it ends, or
until it comes back to the state `mark` having met no free value, and so goes round for ever; `steps` commands after one mark the next is
set, `left` before it. After `fuel` commands `rest` says it. -/
def alone (rest : State → Race) : Nat → State → Nat → Nat → State → Race
  | 0, _, _, _, s => rest s
  | fuel + 1, mark, steps, left, s =>
    match sequencer s with
    | .next t =>
      match t.run with
      | .idle => s.race.record s
      | .run =>
        if touchesOpen s then alone rest fuel t 1 1 t
        else if { t with freeCount := mark.freeCount } = mark then t.race
        else
          match left with
          | 0 => alone rest fuel t (2 * steps) (2 * steps) t
          | left + 1 => alone rest fuel mark steps left t
    | _ => s.race

/-- The accesses that run and host will have made, where the sequencer is alone, after 2^64 commands and a free number more, or when the
run ends. A race with a command further on leaves the reads before it exact, and exact is one of the "any value" of 20_memory.md R78; what
holds for every such number holds with every race found, and no byte counts that the run does not access (log entry 6). -/
def aloneInSight (s : State) : Race :=
  alone (fun t => alone State.race (Config.freeSight t.freeCount) t 1 1 t) (2 ^ 64) s 1 1 s

/-- The accesses that run and host will have made when the present run ends: the pending moves, then the sequencer alone, which matters
where the host has accessed memory. -/
def lookahead : List HostAct → State → Race
  | [], s => if s.race.hostStored = [] ∧ s.race.hostLoaded = [] then s.race else aloneInSight s
  | act :: rest, s =>
    match plainMove act s with
    | .next t =>
      match t.run, act with
      | .run, _ => lookahead rest t
      | .idle, .pass => s.race.record s
      | .idle, .reset => s.race.record s
      | .idle, _ => s.race
    | _ => s.race

/-- The bytes of a race: those the host stored to and the run read or wrote, those the host loaded and the run wrote (20_memory.md R78). -/
def Race.bytes (r : Race) : List Nat :=
  r.hostStored.filter (inSpans (r.runRead ++ r.runWrote)) ++ r.hostLoaded.filter (inSpans r.runWrote)

/-- The host move accesses the shared memory. -/
def HostAct.accesses : HostAct → Bool
  | .store _ _ => true
  | .load _ => true
  | .pass => false
  | .write _ _ => false
  | .read _ => false
  | .reset => false
  | .foretell _ => false

/-- The bytes that a list of moves names. -/
def namedBytes : List HostAct → List Nat
  | [] => []
  | .foretell a :: rest => u32 a :: namedBytes rest
  | _ :: rest => namedBytes rest

/-- The races of the present run foretold: these bytes and no other. -/
def State.opened (s : State) (l : List Nat) : State := { s with race := { s.race with foretold := l, foreseen := true } }

/-- The bytes that host and run will race for, where the run reads the bytes `l` as free values from now on. -/
def racesWith (acts : List HostAct) (s : State) (l : List Nat) : List Nat := (lookahead acts (s.opened l)).bytes

/-- Some bytes and, round after round, those that race once they are read as free values; at most `fuel` rounds. -/
def widen (acts : List HostAct) (s : State) : Nat → List Nat → List Nat
  | 0, l => l
  | fuel + 1, l =>
    let new := (racesWith acts s l).filter (fun a => !decide (a ∈ l))
    if new = [] then l else widen acts s fuel (new ++ l)

/-- Of some bytes, round after round, those that do race where just they are read as free values; at most `fuel` rounds, then none. -/
def narrow (acts : List HostAct) (s : State) : Nat → List Nat → List Nat
  | 0, _ => []
  | fuel + 1, l =>
    if l = [] then []
    else
      let r := racesWith acts s l
      let kept := l.filter (fun a => decide (a ∈ r))
      if kept = l then l else narrow acts s fuel kept

/-- How often the host accesses memory in the pending moves, or has accessed it in this run: a bound on the bytes of its races. -/
def hostAccesses (acts : List HostAct) (r : Race) : Nat :=
  (acts.filter HostAct.accesses).length + r.hostStored.length + r.hostLoaded.length

/-- The bytes that the pending moves and the run will race for. What is named counts where it does race, and reading a byte as a free value
may lead the run away from a race, which is then none (log entry 6). -/
def racesAhead (acts : List HostAct) (s : State) : List Nat :=
  match hostAccesses acts s.race with
  | 0 => []
  | n + 1 =>
    let l := widen acts s (n + 3) (s.race.named ++ namedBytes acts)
    narrow acts s (l.length + 1) l

/-- Once in a run, before the move `act`: the races that it, the moves after it and the run will bring are foretold (20_memory.md R78; log
entry 6). -/
def State.foresee (s : State) (act : HostAct) : State :=
  if s.run = .run ∧ s.race.foreseen = false then s.opened (racesAhead (act :: s.hostQueue) s) else s

/-- One move of the host (log entry 4). Before a command and before a load, which read memory, the races of the run are foreseen
(20_memory.md R78; log entry 6). -/
def hostMove (act : HostAct) (s : State) : Host.Outcome State Fault Refusal :=
  match act with
  | .pass => plainMove .pass (s.foresee .pass)
  | .load a => plainMove (.load a) (s.foresee (.load a))
  | .write addr v => plainMove (.write addr v) s
  | .read addr => plainMove (.read addr) s
  | .store a b => plainMove (.store a b) s
  | .reset => plainMove .reset s
  | .foretell a => plainMove (.foretell a) s

end Sys2Proof.Machine
end

