-- ==== Sys2Proof/Machine/Step.lean ====
section
/-! DEFINITION. One step of the machine: the host's next pending move, or else the sequencer's (log entry 4); and the set-up of a
fetch from outside. -/

namespace Sys2Proof.Machine

/-- The first pending host move, if there is one, is made; else the sequencer moves: one command while RUN, nothing while IDLE
(spec/10_state.md R30, R35). -/
def step (s : State) : Host.Outcome State Fault Refusal :=
  match s.hostQueue with
  | [] => sequencer s
  | act :: rest => hostMove act { s with hostQueue := rest }

/-- `s` with the command whose bits are the low `nbits` of `w` stored where the next step fetches it, the sequencer running
(log entry 11). -/
def State.withFetchWord (s : State) (nbits w : Nat) : State := s.placeWord (BitVec.ofNat 32 (w % 2 ^ nbits))

end Sys2Proof.Machine
end

