-- ==== Sys2Proof/Safety.lean ====
section
/-! DEFINITION. What counts as a safe state and a safe run, in the terms the statements use. -/

namespace Sys2Proof.Machine

/-- The invariant of the machine. Memory is in canonical form; the parameters meet their constraints (spec/92_eei_decisions.md);
DONE and FAULT are never both 1 and both are 0 while RUN, and a cause stands exactly while FAULT does (10_state.md R42); no abort
request outlives a run (R37); of a race only what is named stands outside a run (20_memory.md R78); the host stores within the
address space (R60). -/
structure Inv (s : State) : Prop where
  memory : s.mem.wf
  config : s.cfg.wf
  notBoth : ¬(s.doneBit = true ∧ s.faultBit = true)
  runClear : s.run = .run → s.doneBit = false ∧ s.faultBit = false
  causeIffFault : s.cause = .none ↔ s.faultBit = false
  abortOnlyInRun : s.run = .idle → s.abortReq = false
  raceOnlyInRun : s.run = .idle → s.race = { Race.none with named := s.race.named }
  storesInSpace : ∀ a ∈ s.race.hostStored, a < 2 ^ 32

/-- A safe outcome: the machine goes on. The spec's own faults are next states (60_exceptions.md R222). -/
def Safe (o : Host.Outcome State Fault Refusal) : Prop := ∃ t, o = .next t

/-- How a run started by START has ended (60_exceptions.md R237). -/
inductive RunEnd where
  | done
  | fault
  | aborted
deriving DecidableEq, Repr

/-- The end that an idle state shows the host in STATUS (60_exceptions.md R237). -/
def runEnd (s : State) : Option RunEnd :=
  match s.run, s.doneBit, s.faultBit with
  | .run, _, _ => none
  | .idle, true, _ => some .done
  | .idle, false, true => if s.cause = .aborted then some .aborted else some .fault
  | .idle, false, false => none

end Sys2Proof.Machine
end

