-- ==== Sys2Proof/Certificates/Slice0/Obligations.lean ====
section
/-! DEFINITION. The statements about the model. The definitions of `Sys2Proof.Claims` give the spec's tables and formulas once more, in
the statements' own words; then one definition for each statement. -/

namespace Sys2Proof.Claims

open Sys2Proof.Machine

/-! ### Words for the statements -/

/-- The state after fault entry, written out from 60_exceptions.md R222. -/
def faulted (s : State) (c : Cause) (info : Word) : State :=
  { s with epc := s.pc, finfo := info, cause := c, faultBit := true, run := .idle, abortReq := false }

/-- A command that does nothing but x[d] <- v and PC <- pc + 4; a write to x[0] is discarded (00_scope.md R13). -/
def RegWritten (s t : State) (d : Reg) (v : Word) : Prop :=
  t = { s with regs := t.regs, pc := s.pc + 4#32 } ∧ ∀ n, t.reg n = if n = d ∧ d ≠ 0 then v else s.reg n

/-- A command that does nothing but write two values, as signed 32-bit numbers, to x[d] and x[d+1] (30_encoding.md R89). -/
def PairWritten (s t : State) (d : Reg) (u v : Int) : Prop :=
  t = { s with regs := t.regs, pc := s.pc + 4#32 } ∧ (d ≠ 0 → s32 (t.reg d) = u) ∧ s32 (t.reg (d + 1)) = v ∧
    ∀ n, n ≠ d → n ≠ d + 1 → t.reg n = s.reg n

/-- The value fits signed 32 bits (41_calculators.md R135). -/
def Fits (o : Int) : Prop := -2 ^ 31 ≤ o ∧ o ≤ 2 ^ 31 - 1

/-- A byte range is valid (20_memory.md R67). -/
def RangeOk (c : Config) (start len : Nat) : Prop :=
  len = 0 ∨ (start + len ≤ 2 ^ 32 ∧ ∀ a, start ≤ a → a < start + len → memValid c a = true)

/-- Every base address of the operands is aligned and every range of N elements is valid (20_memory.md R65, R67). -/
def OperandsOk (s : State) (vs : List Vec) : Prop :=
  ∀ v ∈ vs, ∀ r ∈ v.arrays, r.start % r.align = 0 ∧ RangeOk s.cfg r.start (r.elemBytes * u32 s.vl)

/-- A command writes no byte twice: it is no FFT, and its output arrays share no byte. -/
def WritesOnce (i : Instr) (s : State) : Prop :=
  (∀ d a b, i ≠ .fftfC32 d a b ∧ i ≠ .fftiC32 d a b) ∧
    ∀ p q, storeSpans i s = [p, q] → p.base + p.len ≤ q.base ∨ q.base + q.len ≤ p.base

/-- A kernel ran to its end: element by element in ascending order, `f` of memory as the earlier elements left it (20_memory.md R74); no
byte outside the output operand changed; x[d] is the headroom of the stored output (42_kernels.md R161); PC moved on; nothing else
changed. -/
def KernelRan (s t : State) (d : Reg) (out : Vec) (f : Memory → Nat → Elem) : Prop :=
  (∃ m : Nat → Memory, m 0 = s.mem ∧ (∀ i, i < u32 s.vl → m (i + 1) = elemWrite (m i) out i (f (m i) i)) ∧
      m (u32 s.vl) = t.mem) ∧
    (∀ a, inSpans (vecSpans out (u32 s.vl)) a = false → t.mem.read a = s.mem.read a) ∧
    (∀ n, t.reg n = if n = d ∧ d ≠ 0 then BitVec.ofNat 32 (vhr t.mem out (u32 s.vl)) else s.reg n) ∧
    t = { s with regs := t.regs, mem := t.mem, pc := s.pc + 4#32 }

/-- Two operands name the same vector (20_memory.md R75). -/
def SameVec (v w : Vec) : Prop := v.ty = w.ty ∧ v.base = w.base ∧ (v.ty = .c16 → v.imBase = w.imBase)

/-- Two operands of N elements share no byte. -/
def Apart (v w : Vec) (N : Nat) : Prop := ∀ a, inSpans (vecSpans v N) a = true → inSpans (vecSpans w N) a = false

/-- The two arrays of a c16 operand share no byte. -/
def PartsApart (v : Vec) (N : Nat) : Prop :=
  v.ty = .c16 → v.base + 2 * N ≤ v.imBase ∨ v.imBase + 2 * N ≤ v.base

/-- Both parts lie within the B-bit bounds (00_scope.md R15). -/
def InBounds (B : Nat) (e : Elem) : Prop := minB B ≤ e.re ∧ e.re ≤ maxB B ∧ minB B ≤ e.im ∧ e.im ≤ maxB B

/-- The part of an element. -/
def part (e : Elem) : Part → Int
  | .re => e.re
  | .im => e.im

/-- The mantissa has headroom at least h (00_scope.md R17). -/
def HeadroomAtLeast (B : Nat) (h : Nat) (m : Int) : Prop := minB B ≤ m ∧ m ≤ maxB B ∧ h ≤ hr B m

/-! ### The opcode table (spec/opcode_table.json) -/

/-- A row: its mnemonic, mask and match, and the greatest d its constraints admit. -/
structure OpcodeRow where
  mnemonic : String
  mask : Word
  bits : Word
  dMax : Nat
deriving DecidableEq, Repr

/-- The rows of spec/opcode_table.json: the scalar commands. -/
def scalarRows : List OpcodeRow :=
  [⟨"HALT", 0xFFFFFFFF#32, 0x00000000#32, 15⟩,
   ⟨"LUI", 0xFF000000#32, 0x04000000#32, 15⟩,
   ⟨"ADDI", 0xFF000000#32, 0x08000000#32, 15⟩,
   ⟨"ADD", 0xFF000FFF#32, 0x0C000000#32, 15⟩,
   ⟨"SUB", 0xFF000FFF#32, 0x10000000#32, 15⟩,
   ⟨"LW", 0xFF000000#32, 0x14000000#32, 15⟩,
   ⟨"SW", 0xFF000000#32, 0x18000000#32, 15⟩,
   ⟨"BEQ", 0xFF000000#32, 0x1C000000#32, 15⟩,
   ⟨"BNE", 0xFF000000#32, 0x20000000#32, 15⟩,
   ⟨"SETVL", 0xFFF0FFFF#32, 0x24000000#32, 15⟩,
   ⟨"HRS.s16", 0xFF00FFFF#32, 0x28000000#32, 15⟩,
   ⟨"HRS.s32", 0xFF00FFFF#32, 0x29000000#32, 15⟩]

/-- The rows of spec/opcode_table.json: the calculators. -/
def calcRows : List OpcodeRow :=
  [⟨"CALC.ADD.s16", 0xFF0F0000#32, 0x40000000#32, 13⟩,
   ⟨"CALC.ADD.s32", 0xFF0F0000#32, 0x41000000#32, 13⟩,
   ⟨"CALC.ADD.c16", 0xFF0F0000#32, 0x42000000#32, 13⟩,
   ⟨"CALC.ADD.c32", 0xFF0F0000#32, 0x43000000#32, 13⟩,
   ⟨"CALC.MUL.s16", 0xFF0F0000#32, 0x44000000#32, 14⟩,
   ⟨"CALC.MUL.s32", 0xFF0F0000#32, 0x45000000#32, 14⟩,
   ⟨"CALC.CMUL.c16", 0xFF0F0000#32, 0x4A000000#32, 14⟩,
   ⟨"CALC.CMUL.c32", 0xFF0F0000#32, 0x4B000000#32, 14⟩,
   ⟨"CALC.SCALE.s16", 0xFF0F0000#32, 0x4C000000#32, 14⟩,
   ⟨"CALC.SCALE.s32", 0xFF0F0000#32, 0x4D000000#32, 14⟩,
   ⟨"CALC.SCALE.c16", 0xFF0F0000#32, 0x4E000000#32, 14⟩,
   ⟨"CALC.SCALE.c32", 0xFF0F0000#32, 0x4F000000#32, 14⟩,
   ⟨"CALC.MAG.c16", 0xFF0F0F0F#32, 0x52000000#32, 14⟩,
   ⟨"CALC.MAG.c32", 0xFF0F0F0F#32, 0x53000000#32, 14⟩,
   ⟨"CALC.SQMAG.c16", 0xFF0F0F0F#32, 0x56000000#32, 14⟩,
   ⟨"CALC.SQMAG.c32", 0xFF0F0F0F#32, 0x57000000#32, 14⟩]

/-- The rows of spec/opcode_table.json: the kernels. -/
def kernelRows : List OpcodeRow :=
  [⟨"VSHL.s16", 0xFF000F0F#32, 0x80000000#32, 15⟩,
   ⟨"VSHL.s32", 0xFF000F0F#32, 0x81000000#32, 15⟩,
   ⟨"VSHL.c16", 0xFF011F0F#32, 0x82000000#32, 15⟩,
   ⟨"VSHL.c32", 0xFF000F0F#32, 0x83000000#32, 15⟩,
   ⟨"VADD.s16", 0xFF000000#32, 0x84000000#32, 15⟩,
   ⟨"VADD.s32", 0xFF000000#32, 0x85000000#32, 15⟩,
   ⟨"VADD.c16", 0xFF011100#32, 0x86000000#32, 15⟩,
   ⟨"VADD.c32", 0xFF000000#32, 0x87000000#32, 15⟩,
   ⟨"VSUB.s16", 0xFF000000#32, 0x88000000#32, 15⟩,
   ⟨"VSUB.s32", 0xFF000000#32, 0x89000000#32, 15⟩,
   ⟨"VSUB.c16", 0xFF011100#32, 0x8A000000#32, 15⟩,
   ⟨"VSUB.c32", 0xFF000000#32, 0x8B000000#32, 15⟩,
   ⟨"VMUL.s16", 0xFF00000F#32, 0x8C000000#32, 15⟩,
   ⟨"VMUL.s32", 0xFF00000F#32, 0x8D000000#32, 15⟩,
   ⟨"VCMUL.c16", 0xFF01110F#32, 0x92000000#32, 15⟩,
   ⟨"VCMUL.c32", 0xFF00000F#32, 0x93000000#32, 15⟩,
   ⟨"VCMULC.c16", 0xFF01110F#32, 0x96000000#32, 15⟩,
   ⟨"VCMULC.c32", 0xFF00000F#32, 0x97000000#32, 15⟩,
   ⟨"VSCALE.s16", 0xFF00000F#32, 0x98000000#32, 15⟩,
   ⟨"VSCALE.s32", 0xFF00000F#32, 0x99000000#32, 15⟩,
   ⟨"VSCALE.c16", 0xFF01100F#32, 0x9A000000#32, 15⟩,
   ⟨"VSCALE.c32", 0xFF00000F#32, 0x9B000000#32, 15⟩,
   ⟨"VMAG.c16", 0xFF001F0F#32, 0x9E000000#32, 15⟩,
   ⟨"VMAG.c32", 0xFF000F0F#32, 0x9F000000#32, 15⟩,
   ⟨"VSQMAG.c16", 0xFF001F0F#32, 0xA2000000#32, 15⟩,
   ⟨"VSQMAG.c32", 0xFF000F0F#32, 0xA3000000#32, 15⟩,
   ⟨"VHR.s16", 0xFF0F0FFF#32, 0xA4000000#32, 15⟩,
   ⟨"VHR.s32", 0xFF0F0FFF#32, 0xA5000000#32, 15⟩,
   ⟨"VHR.c16", 0xFF0F1FFF#32, 0xA6000000#32, 15⟩,
   ⟨"VHR.c32", 0xFF0F0FFF#32, 0xA7000000#32, 15⟩]

/-- The rows of spec/opcode_table.json: the FFT commands. -/
def fftRows : List OpcodeRow :=
  [⟨"VBITREV.c32", 0xFFF0FFFF#32, 0xC3000000#32, 15⟩,
   ⟨"FFTF.c32", 0xFF000FFF#32, 0xC7000000#32, 14⟩,
   ⟨"FFTI.c32", 0xFF000FFF#32, 0xCB000000#32, 14⟩]

/-- The whole table. -/
def opcodeRows : List OpcodeRow := scalarRows ++ calcRows ++ kernelRows ++ fftRows

/-- The word is one the row stands for (30_encoding.md R93). -/
def RowMatches (r : OpcodeRow) (w : Word) : Prop := w &&& r.mask = r.bits ∧ (w.extractLsb' 20 4).toNat ≤ r.dMax

/-- The mnemonic of a command. -/
def mnemonic : Instr → String
  | .halt .. => "HALT"
  | .lui .. => "LUI"
  | .addi .. => "ADDI"
  | .add .. => "ADD"
  | .sub .. => "SUB"
  | .lw .. => "LW"
  | .sw .. => "SW"
  | .beq .. => "BEQ"
  | .bne .. => "BNE"
  | .setvl .. => "SETVL"
  | .hrsS16 .. => "HRS.s16"
  | .hrsS32 .. => "HRS.s32"
  | .calcAddS16 .. => "CALC.ADD.s16"
  | .calcAddS32 .. => "CALC.ADD.s32"
  | .calcAddC16 .. => "CALC.ADD.c16"
  | .calcAddC32 .. => "CALC.ADD.c32"
  | .calcMulS16 .. => "CALC.MUL.s16"
  | .calcMulS32 .. => "CALC.MUL.s32"
  | .calcCmulC16 .. => "CALC.CMUL.c16"
  | .calcCmulC32 .. => "CALC.CMUL.c32"
  | .calcScaleS16 .. => "CALC.SCALE.s16"
  | .calcScaleS32 .. => "CALC.SCALE.s32"
  | .calcScaleC16 .. => "CALC.SCALE.c16"
  | .calcScaleC32 .. => "CALC.SCALE.c32"
  | .calcMagC16 .. => "CALC.MAG.c16"
  | .calcMagC32 .. => "CALC.MAG.c32"
  | .calcSqmagC16 .. => "CALC.SQMAG.c16"
  | .calcSqmagC32 .. => "CALC.SQMAG.c32"
  | .vshlS16 .. => "VSHL.s16"
  | .vshlS32 .. => "VSHL.s32"
  | .vshlC16 .. => "VSHL.c16"
  | .vshlC32 .. => "VSHL.c32"
  | .vaddS16 .. => "VADD.s16"
  | .vaddS32 .. => "VADD.s32"
  | .vaddC16 .. => "VADD.c16"
  | .vaddC32 .. => "VADD.c32"
  | .vsubS16 .. => "VSUB.s16"
  | .vsubS32 .. => "VSUB.s32"
  | .vsubC16 .. => "VSUB.c16"
  | .vsubC32 .. => "VSUB.c32"
  | .vmulS16 .. => "VMUL.s16"
  | .vmulS32 .. => "VMUL.s32"
  | .vcmulC16 .. => "VCMUL.c16"
  | .vcmulC32 .. => "VCMUL.c32"
  | .vcmulcC16 .. => "VCMULC.c16"
  | .vcmulcC32 .. => "VCMULC.c32"
  | .vscaleS16 .. => "VSCALE.s16"
  | .vscaleS32 .. => "VSCALE.s32"
  | .vscaleC16 .. => "VSCALE.c16"
  | .vscaleC32 .. => "VSCALE.c32"
  | .vmagC16 .. => "VMAG.c16"
  | .vmagC32 .. => "VMAG.c32"
  | .vsqmagC16 .. => "VSQMAG.c16"
  | .vsqmagC32 .. => "VSQMAG.c32"
  | .vhrS16 .. => "VHR.s16"
  | .vhrS32 .. => "VHR.s32"
  | .vhrC16 .. => "VHR.c16"
  | .vhrC32 .. => "VHR.c32"
  | .vbitrevC32 .. => "VBITREV.c32"
  | .fftfC32 .. => "FFTF.c32"
  | .fftiC32 .. => "FFTI.c32"

/-- The operands of a command and where its word holds them: the lowest bit, the width and the value of each (30_encoding.md R86). -/
def operandFields : Instr → List (Nat × Nat × Nat)
  | .halt => []
  | .lui d imm20 => [(20, 4, d.val), (0, 20, imm20.toNat)]
  | .addi d a imm16 => [(20, 4, d.val), (16, 4, a.val), (0, 16, imm16.toNat)]
  | .add d a b => [(20, 4, d.val), (16, 4, a.val), (12, 4, b.val)]
  | .sub d a b => [(20, 4, d.val), (16, 4, a.val), (12, 4, b.val)]
  | .lw d a imm16 => [(20, 4, d.val), (16, 4, a.val), (0, 16, imm16.toNat)]
  | .sw d a imm16 => [(20, 4, d.val), (16, 4, a.val), (0, 16, imm16.toNat)]
  | .beq d a imm16 => [(20, 4, d.val), (16, 4, a.val), (0, 16, imm16.toNat)]
  | .bne d a imm16 => [(20, 4, d.val), (16, 4, a.val), (0, 16, imm16.toNat)]
  | .setvl a => [(16, 4, a.val)]
  | .hrsS16 d a => [(20, 4, d.val), (16, 4, a.val)]
  | .hrsS32 d a => [(20, 4, d.val), (16, 4, a.val)]
  | .calcAddS16 d b c sh t => [(20, 4, d.val), (12, 4, b.val), (8, 4, c.val), (4, 4, sh.val), (0, 4, t.val)]
  | .calcAddS32 d b c sh t => [(20, 4, d.val), (12, 4, b.val), (8, 4, c.val), (4, 4, sh.val), (0, 4, t.val)]
  | .calcAddC16 d b c sh t => [(20, 4, d.val), (12, 4, b.val), (8, 4, c.val), (4, 4, sh.val), (0, 4, t.val)]
  | .calcAddC32 d b c sh t => [(20, 4, d.val), (12, 4, b.val), (8, 4, c.val), (4, 4, sh.val), (0, 4, t.val)]
  | .calcMulS16 d b c sh t => [(20, 4, d.val), (12, 4, b.val), (8, 4, c.val), (4, 4, sh.val), (0, 4, t.val)]
  | .calcMulS32 d b c sh t => [(20, 4, d.val), (12, 4, b.val), (8, 4, c.val), (4, 4, sh.val), (0, 4, t.val)]
  | .calcCmulC16 d b c sh t => [(20, 4, d.val), (12, 4, b.val), (8, 4, c.val), (4, 4, sh.val), (0, 4, t.val)]
  | .calcCmulC32 d b c sh t => [(20, 4, d.val), (12, 4, b.val), (8, 4, c.val), (4, 4, sh.val), (0, 4, t.val)]
  | .calcScaleS16 d b c sh t => [(20, 4, d.val), (12, 4, b.val), (8, 4, c.val), (4, 4, sh.val), (0, 4, t.val)]
  | .calcScaleS32 d b c sh t => [(20, 4, d.val), (12, 4, b.val), (8, 4, c.val), (4, 4, sh.val), (0, 4, t.val)]
  | .calcScaleC16 d b c sh t => [(20, 4, d.val), (12, 4, b.val), (8, 4, c.val), (4, 4, sh.val), (0, 4, t.val)]
  | .calcScaleC32 d b c sh t => [(20, 4, d.val), (12, 4, b.val), (8, 4, c.val), (4, 4, sh.val), (0, 4, t.val)]
  | .calcMagC16 d b sh => [(20, 4, d.val), (12, 4, b.val), (4, 4, sh.val)]
  | .calcMagC32 d b sh => [(20, 4, d.val), (12, 4, b.val), (4, 4, sh.val)]
  | .calcSqmagC16 d b sh => [(20, 4, d.val), (12, 4, b.val), (4, 4, sh.val)]
  | .calcSqmagC32 d b sh => [(20, 4, d.val), (12, 4, b.val), (4, 4, sh.val)]
  | .vshlS16 d a b sh => [(20, 4, d.val), (16, 4, a.val), (12, 4, b.val), (4, 4, sh.val)]
  | .vshlS32 d a b sh => [(20, 4, d.val), (16, 4, a.val), (12, 4, b.val), (4, 4, sh.val)]
  | .vshlC16 d a b sh => [(20, 4, d.val), (16, 4, a.val), (12, 4, b.val), (4, 4, sh.val)]
  | .vshlC32 d a b sh => [(20, 4, d.val), (16, 4, a.val), (12, 4, b.val), (4, 4, sh.val)]
  | .vaddS16 d a b c sh t => [(20, 4, d.val), (16, 4, a.val), (12, 4, b.val), (8, 4, c.val), (4, 4, sh.val), (0, 4, t.val)]
  | .vaddS32 d a b c sh t => [(20, 4, d.val), (16, 4, a.val), (12, 4, b.val), (8, 4, c.val), (4, 4, sh.val), (0, 4, t.val)]
  | .vaddC16 d a b c sh t => [(20, 4, d.val), (16, 4, a.val), (12, 4, b.val), (8, 4, c.val), (4, 4, sh.val), (0, 4, t.val)]
  | .vaddC32 d a b c sh t => [(20, 4, d.val), (16, 4, a.val), (12, 4, b.val), (8, 4, c.val), (4, 4, sh.val), (0, 4, t.val)]
  | .vsubS16 d a b c sh t => [(20, 4, d.val), (16, 4, a.val), (12, 4, b.val), (8, 4, c.val), (4, 4, sh.val), (0, 4, t.val)]
  | .vsubS32 d a b c sh t => [(20, 4, d.val), (16, 4, a.val), (12, 4, b.val), (8, 4, c.val), (4, 4, sh.val), (0, 4, t.val)]
  | .vsubC16 d a b c sh t => [(20, 4, d.val), (16, 4, a.val), (12, 4, b.val), (8, 4, c.val), (4, 4, sh.val), (0, 4, t.val)]
  | .vsubC32 d a b c sh t => [(20, 4, d.val), (16, 4, a.val), (12, 4, b.val), (8, 4, c.val), (4, 4, sh.val), (0, 4, t.val)]
  | .vmulS16 d a b c sh => [(20, 4, d.val), (16, 4, a.val), (12, 4, b.val), (8, 4, c.val), (4, 4, sh.val)]
  | .vmulS32 d a b c sh => [(20, 4, d.val), (16, 4, a.val), (12, 4, b.val), (8, 4, c.val), (4, 4, sh.val)]
  | .vcmulC16 d a b c sh => [(20, 4, d.val), (16, 4, a.val), (12, 4, b.val), (8, 4, c.val), (4, 4, sh.val)]
  | .vcmulC32 d a b c sh => [(20, 4, d.val), (16, 4, a.val), (12, 4, b.val), (8, 4, c.val), (4, 4, sh.val)]
  | .vcmulcC16 d a b c sh => [(20, 4, d.val), (16, 4, a.val), (12, 4, b.val), (8, 4, c.val), (4, 4, sh.val)]
  | .vcmulcC32 d a b c sh => [(20, 4, d.val), (16, 4, a.val), (12, 4, b.val), (8, 4, c.val), (4, 4, sh.val)]
  | .vscaleS16 d a b c sh => [(20, 4, d.val), (16, 4, a.val), (12, 4, b.val), (8, 4, c.val), (4, 4, sh.val)]
  | .vscaleS32 d a b c sh => [(20, 4, d.val), (16, 4, a.val), (12, 4, b.val), (8, 4, c.val), (4, 4, sh.val)]
  | .vscaleC16 d a b c sh => [(20, 4, d.val), (16, 4, a.val), (12, 4, b.val), (8, 4, c.val), (4, 4, sh.val)]
  | .vscaleC32 d a b c sh => [(20, 4, d.val), (16, 4, a.val), (12, 4, b.val), (8, 4, c.val), (4, 4, sh.val)]
  | .vmagC16 d a b sh => [(20, 4, d.val), (16, 4, a.val), (12, 4, b.val), (4, 4, sh.val)]
  | .vmagC32 d a b sh => [(20, 4, d.val), (16, 4, a.val), (12, 4, b.val), (4, 4, sh.val)]
  | .vsqmagC16 d a b sh => [(20, 4, d.val), (16, 4, a.val), (12, 4, b.val), (4, 4, sh.val)]
  | .vsqmagC32 d a b sh => [(20, 4, d.val), (16, 4, a.val), (12, 4, b.val), (4, 4, sh.val)]
  | .vhrS16 d b => [(20, 4, d.val), (12, 4, b.val)]
  | .vhrS32 d b => [(20, 4, d.val), (12, 4, b.val)]
  | .vhrC16 d b => [(20, 4, d.val), (12, 4, b.val)]
  | .vhrC32 d b => [(20, 4, d.val), (12, 4, b.val)]
  | .vbitrevC32 a => [(16, 4, a.val)]
  | .fftfC32 d a b => [(20, 4, d.val), (16, 4, a.val), (12, 4, b.val)]
  | .fftiC32 d a b => [(20, 4, d.val), (16, 4, a.val), (12, 4, b.val)]

/-- The registers that a command's rule writes (30_encoding.md R91, its fields marked out and group). -/
def destinations : Instr → List Reg
  | .halt => []
  | .lui d .. => [d]
  | .addi d .. => [d]
  | .add d .. => [d]
  | .sub d .. => [d]
  | .lw d .. => [d]
  | .sw .. => []
  | .beq .. => []
  | .bne .. => []
  | .setvl .. => []
  | .hrsS16 d .. => [d]
  | .hrsS32 d .. => [d]
  | .calcAddS16 d .. => [d, d + 1, d + 2]
  | .calcAddS32 d .. => [d, d + 1, d + 2]
  | .calcAddC16 d .. => [d, d + 1, d + 2]
  | .calcAddC32 d .. => [d, d + 1, d + 2]
  | .calcMulS16 d .. => [d, d + 1]
  | .calcMulS32 d .. => [d, d + 1]
  | .calcCmulC16 d .. => [d, d + 1]
  | .calcCmulC32 d .. => [d, d + 1]
  | .calcScaleS16 d .. => [d, d + 1]
  | .calcScaleS32 d .. => [d, d + 1]
  | .calcScaleC16 d .. => [d, d + 1]
  | .calcScaleC32 d .. => [d, d + 1]
  | .calcMagC16 d .. => [d, d + 1]
  | .calcMagC32 d .. => [d, d + 1]
  | .calcSqmagC16 d .. => [d, d + 1]
  | .calcSqmagC32 d .. => [d, d + 1]
  | .vshlS16 d .. => [d]
  | .vshlS32 d .. => [d]
  | .vshlC16 d .. => [d]
  | .vshlC32 d .. => [d]
  | .vaddS16 d .. => [d]
  | .vaddS32 d .. => [d]
  | .vaddC16 d .. => [d]
  | .vaddC32 d .. => [d]
  | .vsubS16 d .. => [d]
  | .vsubS32 d .. => [d]
  | .vsubC16 d .. => [d]
  | .vsubC32 d .. => [d]
  | .vmulS16 d .. => [d]
  | .vmulS32 d .. => [d]
  | .vcmulC16 d .. => [d]
  | .vcmulC32 d .. => [d]
  | .vcmulcC16 d .. => [d]
  | .vcmulcC32 d .. => [d]
  | .vscaleS16 d .. => [d]
  | .vscaleS32 d .. => [d]
  | .vscaleC16 d .. => [d]
  | .vscaleC32 d .. => [d]
  | .vmagC16 d .. => [d]
  | .vmagC32 d .. => [d]
  | .vsqmagC16 d .. => [d]
  | .vsqmagC32 d .. => [d]
  | .vhrS16 d .. => [d]
  | .vhrS32 d .. => [d]
  | .vhrC16 d .. => [d]
  | .vhrC32 d .. => [d]
  | .vbitrevC32 .. => []
  | .fftfC32 d .. => [d, d + 1]
  | .fftiC32 d .. => [d, d + 1]

/-! ### Calculator outputs (spec/41_calculators.md), in register order -/

/-- S (00_scope.md R10). -/
def satBit (s : State) : Int := if s.allowSat then 1 else 0

/-- min(u32(x[n]), B − 1) (R135). -/
def headroomOf (B : Nat) (s : State) (n : Reg) : Int := min (u32 (s.reg n) : Int) ((B : Int) - 1)

/-- R136: a_exp, b_shr, c_shr. -/
def addOutputs (B : Nat) (s : State) (b c sh t : Reg) : List Int :=
  [max (s32 (s.reg b) - headroomOf B s sh) (s32 (s.reg c) - headroomOf B s t) + 1 - satBit s,
    min (max (s32 (s.reg b) - headroomOf B s sh) (s32 (s.reg c) - headroomOf B s t) + 1 - satBit s - s32 (s.reg b)) B,
    min (max (s32 (s.reg b) - headroomOf B s sh) (s32 (s.reg c) - headroomOf B s t) + 1 - satBit s - s32 (s.reg c)) B]

/-- R138: a_exp, sat_shr. -/
def mulOutputs (B : Nat) (s : State) (b c sh t : Reg) : List Int :=
  [s32 (s.reg b) + s32 (s.reg c) + max 0 ((B : Int) - headroomOf B s sh - headroomOf B s t - satBit s),
    max 0 ((B : Int) - headroomOf B s sh - headroomOf B s t - satBit s)]

/-- R139: a_exp, sat_shr. -/
def cmulOutputs (B : Nat) (s : State) (b c sh t : Reg) : List Int :=
  [s32 (s.reg b) + s32 (s.reg c) + max 0 ((B : Int) + 1 - headroomOf B s sh - headroomOf B s t - satBit s),
    max 0 ((B : Int) + 1 - headroomOf B s sh - headroomOf B s t - satBit s)]

/-- R140: a_exp, sat_shr; the scalar is the low B bits of x[t]. -/
def scaleOutputs (B : Nat) (s : State) (b c sh t : Reg) : List Int :=
  [s32 (s.reg b) + s32 (s.reg c) + max 0 ((B : Int) - headroomOf B s sh - hr B (sext B (s.reg t)) - satBit s),
    max 0 ((B : Int) - headroomOf B s sh - hr B (sext B (s.reg t)) - satBit s)]

/-- R141: a_exp, b_shr. -/
def magOutputs (B : Nat) (s : State) (b sh : Reg) : List Int :=
  [s32 (s.reg b) + (1 - headroomOf B s sh), 1 - headroomOf B s sh]

/-- R142: a_exp, sat_shr. -/
def sqmagOutputs (B : Nat) (s : State) (b sh : Reg) : List Int :=
  [2 * s32 (s.reg b) + max 0 ((B : Int) + 1 - 2 * headroomOf B s sh - satBit s),
    max 0 ((B : Int) + 1 - 2 * headroomOf B s sh - satBit s)]

/-- The outputs of a calculator command; none for any other. -/
def calcOutputs (i : Instr) (s : State) : Option (List Int) :=
  match i with
  | .calcAddS16 _ b c sh t => some (addOutputs 16 s b c sh t)
  | .calcAddS32 _ b c sh t => some (addOutputs 32 s b c sh t)
  | .calcAddC16 _ b c sh t => some (addOutputs 16 s b c sh t)
  | .calcAddC32 _ b c sh t => some (addOutputs 32 s b c sh t)
  | .calcMulS16 _ b c sh t => some (mulOutputs 16 s b c sh t)
  | .calcMulS32 _ b c sh t => some (mulOutputs 32 s b c sh t)
  | .calcCmulC16 _ b c sh t => some (cmulOutputs 16 s b c sh t)
  | .calcCmulC32 _ b c sh t => some (cmulOutputs 32 s b c sh t)
  | .calcScaleS16 _ b c sh t => some (scaleOutputs 16 s b c sh t)
  | .calcScaleS32 _ b c sh t => some (scaleOutputs 32 s b c sh t)
  | .calcScaleC16 _ b c sh t => some (scaleOutputs 16 s b c sh t)
  | .calcScaleC32 _ b c sh t => some (scaleOutputs 32 s b c sh t)
  | .calcMagC16 _ b sh => some (magOutputs 16 s b sh)
  | .calcMagC32 _ b sh => some (magOutputs 32 s b sh)
  | .calcSqmagC16 _ b sh => some (sqmagOutputs 16 s b sh)
  | .calcSqmagC32 _ b sh => some (sqmagOutputs 32 s b sh)
  | _ => none

/-- The vector operands of a kernel in field order (30_encoding.md R91); none for any other command. -/
def kernelOperands (i : Instr) (s : State) : Option (List Vec) :=
  match i with
  | .vshlS16 _ a b _ => some [vecOf s .s16 a, vecOf s .s16 b]
  | .vshlS32 _ a b _ => some [vecOf s .s32 a, vecOf s .s32 b]
  | .vshlC16 _ a b _ => some [vecOf s .c16 a, vecOf s .c16 b]
  | .vshlC32 _ a b _ => some [vecOf s .c32 a, vecOf s .c32 b]
  | .vaddS16 _ a b c _ _ => some [vecOf s .s16 a, vecOf s .s16 b, vecOf s .s16 c]
  | .vaddS32 _ a b c _ _ => some [vecOf s .s32 a, vecOf s .s32 b, vecOf s .s32 c]
  | .vaddC16 _ a b c _ _ => some [vecOf s .c16 a, vecOf s .c16 b, vecOf s .c16 c]
  | .vaddC32 _ a b c _ _ => some [vecOf s .c32 a, vecOf s .c32 b, vecOf s .c32 c]
  | .vsubS16 _ a b c _ _ => some [vecOf s .s16 a, vecOf s .s16 b, vecOf s .s16 c]
  | .vsubS32 _ a b c _ _ => some [vecOf s .s32 a, vecOf s .s32 b, vecOf s .s32 c]
  | .vsubC16 _ a b c _ _ => some [vecOf s .c16 a, vecOf s .c16 b, vecOf s .c16 c]
  | .vsubC32 _ a b c _ _ => some [vecOf s .c32 a, vecOf s .c32 b, vecOf s .c32 c]
  | .vmulS16 _ a b c _ => some [vecOf s .s16 a, vecOf s .s16 b, vecOf s .s16 c]
  | .vmulS32 _ a b c _ => some [vecOf s .s32 a, vecOf s .s32 b, vecOf s .s32 c]
  | .vcmulC16 _ a b c _ => some [vecOf s .c16 a, vecOf s .c16 b, vecOf s .c16 c]
  | .vcmulC32 _ a b c _ => some [vecOf s .c32 a, vecOf s .c32 b, vecOf s .c32 c]
  | .vcmulcC16 _ a b c _ => some [vecOf s .c16 a, vecOf s .c16 b, vecOf s .c16 c]
  | .vcmulcC32 _ a b c _ => some [vecOf s .c32 a, vecOf s .c32 b, vecOf s .c32 c]
  | .vscaleS16 _ a b _ _ => some [vecOf s .s16 a, vecOf s .s16 b]
  | .vscaleS32 _ a b _ _ => some [vecOf s .s32 a, vecOf s .s32 b]
  | .vscaleC16 _ a b _ _ => some [vecOf s .c16 a, vecOf s .c16 b]
  | .vscaleC32 _ a b _ _ => some [vecOf s .c32 a, vecOf s .c32 b]
  | .vmagC16 _ a b _ => some [vecOf s .s16 a, vecOf s .c16 b]
  | .vmagC32 _ a b _ => some [vecOf s .s32 a, vecOf s .c32 b]
  | .vsqmagC16 _ a b _ => some [vecOf s .s16 a, vecOf s .c16 b]
  | .vsqmagC32 _ a b _ => some [vecOf s .s32 a, vecOf s .c32 b]
  | .vhrS16 _ b => some [vecOf s .s16 b]
  | .vhrS32 _ b => some [vecOf s .s32 b]
  | .vhrC16 _ b => some [vecOf s .c16 b]
  | .vhrC32 _ b => some [vecOf s .c32 b]
  | _ => none

/-! ### The FFT (spec/43_fft.md) -/

/-- The length and the buffer of an FFT command are legal (R195): N = 2^L with 2 ≤ L ≤ MAX_FFT_LOG2, base aligned, range valid. -/
def FftBufferOk (s : State) (a : Reg) (L : Nat) : Prop :=
  u32 s.vl = 2 ^ L ∧ 2 ≤ L ∧ L ≤ s.cfg.maxFftLog2 ∧ u32 (s.reg a) % 4 = 0 ∧ RangeOk s.cfg (u32 (s.reg a)) (8 * 2 ^ L)

/-- The input exponent is in the range of R203. -/
def FftExponentOk (s : State) (b : Reg) (L : Nat) : Prop :=
  -2 ^ 31 + (L : Int) ≤ s32 (s.reg b) ∧ s32 (s.reg b) ≤ 2 ^ 31 - 1 - 2 * (L : Int)

/-- The c32 buffer at a base address (20_memory.md R64). -/
def buffer (base : Nat) : Vec := { ty := .c32, base := base, imBase := 0 }

/-- One scaled pass from X to Y, group by group and butterfly by butterfly as R198 and R199 say it: the headroom of X in sweep 3k + 1 over the
buffer v, `sh` the scaling shift, the scaled buffer Z from sweep 3k + 2, the butterflies from sweep 3k + 3; w is the twiddle
TW[j × (NMAX >> (k+1))], conjugated for the inverse. `s.elemAgain v r i x` is x, the element last written, read again in read number r: x
itself, unless the host races for its bytes (20_memory.md R61, R78; the statement RacesOpenOnlyTheirBytes). -/
def ScaledPass (s : State) (v : Vec) (conj : Bool) (N k : Nat) (X Y : Nat → Elem) (e e' : Int) : Prop :=
  ∃ (sh : Int) (Z : Nat → Elem),
    sh = max 0 ((if k ≤ 1 then 1 else 2) -
      (elemsHr .c32 ((List.range N).map (fun i => s.elemAgain v ((3 * k + 1) * N + i) i (X i))) : Int)) ∧ e' = e + sh ∧
    (∀ i, i < N → ∃ x, x = s.elemAgain v ((3 * k + 2) * N + i) i (X i) ∧ Z i = ⟨shr x.re sh, shr x.im sh⟩) ∧
    ∀ g j, g % 2 ^ (k + 1) = 0 → g < N → j < 2 ^ k →
      ∃ w u y t : Elem,
        w.re = twiddleRe s.cfg.maxFftLog2 (j * (2 ^ s.cfg.maxFftLog2 >>> (k + 1))) ∧
        w.im = (if conj then -1 else 1) * twiddleIm s.cfg.maxFftLog2 (j * (2 ^ s.cfg.maxFftLog2 >>> (k + 1))) ∧
        u = s.elemAgain v ((3 * k + 3) * N + (g + j)) (g + j) (Z (g + j)) ∧
        y = s.elemAgain v ((3 * k + 3) * N + (g + j + 2 ^ k)) (g + j + 2 ^ k) (Z (g + j + 2 ^ k)) ∧
        t.re = ⌊((w.re * y.re - w.im * y.im : Int) : ℚ) / 2 ^ 30⌋ ∧
        t.im = ⌊((w.re * y.im + w.im * y.re : Int) : ℚ) / 2 ^ 30⌋ ∧
        Y (g + j) = ⟨sat 32 (u.re + t.re), sat 32 (u.im + t.im)⟩ ∧
        Y (g + j + 2 ^ k) = ⟨sat 32 (u.re - t.re), sat 32 (u.im - t.im)⟩

/-- An FFT command ran to its end (R200, R201): bit reversal of the buffer as the CORE reads it, L scaled passes, the buffer written, x[d]
the exponent less `sub`, x[d+1] the headroom, taken in a last sweep; no byte outside the buffer and nothing else changed. -/
def FftRan (s t : State) (conj : Bool) (sub : Int) (d a b : Reg) (L : Nat) : Prop :=
  (∃ (v : Vec) (X : Nat → Nat → Elem) (e : Nat → Int), v = buffer (u32 (s.reg a)) ∧
      (∀ i, i < 2 ^ L → X 0 i = s.elemIn s.mem 0 v (rev L i)) ∧ e 0 = s32 (s.reg b) ∧
      (∀ k, k < L → ScaledPass s v conj (2 ^ L) k (X k) (X (k + 1)) (e k) (e (k + 1))) ∧
      (∀ i, i < 2 ^ L → elemRead t.mem v i = X L i) ∧
      (d ≠ 0 → t.reg d = wrap32 (e L - sub)) ∧
      t.reg (d + 1) = BitVec.ofNat 32
        (elemsHr .c32 ((List.range (2 ^ L)).map (fun i => s.elemAgain v ((3 * L + 1) * 2 ^ L + i) i (X L i))))) ∧
    (∀ x, x < u32 (s.reg a) ∨ u32 (s.reg a) + 8 * 2 ^ L ≤ x → t.mem.read x = s.mem.read x) ∧
    (∀ n, n ≠ d → n ≠ d + 1 → t.reg n = s.reg n) ∧
    t = { s with regs := t.regs, mem := t.mem, pc := s.pc + 4#32 }

/-! ### The host's side -/

/-- What the window reads while IDLE, offset by offset (10_state.md R40-R49). -/
def windowTable (s : State) : List (Nat × Word) :=
  [(0x00, 0x42465031#32),
   (0x04, BitVec.ofNat 32 (s.cfg.maxFftLog2 % 32)),
   (0x08, BitVec.ofNat 32 (2 * s.allowSat.toNat + 4 * s.irqEn.toNat)),
   (0x0C, BitVec.ofNat 32 (2 * s.doneBit.toNat + 4 * s.faultBit.toNat + 256 * s.cause.code.toNat)),
   (0x10, s.pc), (0x14, s.vl), (0x18, s.epc), (0x1C, s.finfo),
   (0x40, 0#32), (0x44, s.reg 1), (0x48, s.reg 2), (0x4C, s.reg 3), (0x50, s.reg 4), (0x54, s.reg 5), (0x58, s.reg 6),
   (0x5C, s.reg 7), (0x60, s.reg 8), (0x64, s.reg 9), (0x68, s.reg 10), (0x6C, s.reg 11), (0x70, s.reg 12),
   (0x74, s.reg 13), (0x78, s.reg 14), (0x7C, s.reg 15)]

end Sys2Proof.Claims

open Sys2Proof Sys2Proof.Machine Sys2Proof.Claims

/-! ### Encoding -/

/-- Decoding the word of a legal command gives the command back, with every operand (30_encoding.md R86, R91). -/
def Obligations.DecodeOfEncodeIsIdentity : Prop :=
  ∀ i : Instr, i.wellFormed = true → decode (encode i) = .ok i

/-- A word that decodes is the word of the command it decodes to, and that command is legal: no bit is dropped (30_encoding.md R92). -/
def Obligations.EncodeOfDecodeIsIdentity : Prop :=
  ∀ (w : Word) (i : Instr), decode w = .ok i → encode i = w ∧ i.wellFormed = true

/-- Decoding by spec/opcode_table.json (30_encoding.md R93): a word decodes to a command of a row that it matches and of no other row, with
the operands that its fields hold, d in bits 23:20, a in 19:16, b in 15:12, c in 11:8, s in 7:4, t in 3:0, imm16 in 15:0, imm20 in 19:0; a
word that matches no row, or breaks the row's constraint on d, is ILLEGAL. -/
def Obligations.DecodeFollowsOpcodeTable : Prop :=
  (∀ w i, decode w = .ok i → ∃ r ∈ opcodeRows, RowMatches r w ∧ r.mnemonic = mnemonic i) ∧
    (∀ w i, decode w = .ok i → ∀ f ∈ operandFields i, (w.extractLsb' f.1 f.2.1).toNat = f.2.2) ∧
    (∀ w, ∀ r ∈ opcodeRows, RowMatches r w → ∃ i, decode w = .ok i ∧ mnemonic i = r.mnemonic) ∧
    (∀ w, ∀ r ∈ opcodeRows, ∀ q ∈ opcodeRows, w &&& r.mask = r.bits → w &&& q.mask = q.bits → r = q)

/-- The six worked encodings of 30_encoding.md R97 and the all-zero word of R94. -/
def Obligations.WorkedWordsDecode : Prop :=
  decode 0x00000000#32 = .ok .halt ∧ decode 0x08101010#32 = .ok (.addi 1 0 0x1010#16) ∧
    decode 0x24040000#32 = .ok (.setvl 4) ∧ decode 0x40A00056#32 = .ok (.calcAddS16 10 0 0 5 6) ∧
    decode 0x88D123BC#32 = .ok (.vsubS16 13 1 2 3 11 12) ∧ decode 0xC7615000#32 = .ok (.fftfC32 6 1 5)

/-! ### The sequencer -/

/-- A step runs the decoded command (40_sequencer.md R110): with no host move pending, while RUN, where the word at PC can be fetched and
decodes to i, the step answers what exec i answers, followed by what a race leaves of it and the command boundary. Where the host is in no
race with the run, what follows exec changes nothing but the model's record of accesses and its count of free values (log entries 5 and 6).
That a host may also pass, and the sequencer then moves, once the races of the run are foreseen, which changes nothing but the model's record
of them, is the model's own order of moves (log entries 4 and 6). -/
def Obligations.StepRunsDecodedCommand : Prop :=
  ∀ (s t : State) (i : Instr), s.hostQueue = [] → s.run = .run → u32 s.pc % 4 = 0 → RangeOk s.cfg (u32 s.pc) 4 →
    decode ((s.view s.mem 0).readWord (u32 s.pc)) = .ok i → exec i s = .next t →
    step s = .next (s.after t).boundary ∧
      (s.clouded = [] → ∃ r, s.after t = { t with race := r, freeCount := t.freeCount + 1 }) ∧
      ∀ rest u, u = { s with hostQueue := rest } →
        step { s with hostQueue := .pass :: rest } = sequencer (u.foresee .pass) ∧
          ∃ l b, u.foresee .pass = { u with race := { u.race with foretold := l, foreseen := b } }

/-- The command boundary (60_exceptions.md R226): a pending abort is taken where the run goes on; where there is none it goes on as it is.
The model's record of a race ends with its run (log entry 6). -/
def Obligations.BoundaryTakesAbort : Prop :=
  ∀ s : State,
    (s.run = .run → s.abortReq = true → s.boundary = { s with
      epc := s.pc, finfo := 0#32, cause := .aborted, faultBit := true, run := .idle, abortReq := false, race := .none }) ∧
    (s.run = .run → s.abortReq = false → s.boundary = s) ∧
    (s.run = .idle → s.boundary = { s with race := .none })

/-- A fetch from a misaligned PC, from an invalid range, and of an illegal word: the three faults before execution (40_sequencer.md R110)
with their FINFO (60_exceptions.md R221) and their entry (R222). The model's record of a race is dropped, and its count of free values goes
on (log entries 5 and 6). -/
def Obligations.FetchFaultsAreRaised : Prop :=
  ∀ s u : State, s.hostQueue = [] → s.run = .run → u = { s with race := .none, freeCount := s.freeCount + 1 } →
    (u32 s.pc % 4 ≠ 0 → step s = .next (faulted u .fetchAlign s.pc)) ∧
    (u32 s.pc % 4 = 0 → ¬RangeOk s.cfg (u32 s.pc) 4 → step s = .next (faulted u .fetchBus s.pc)) ∧
    (u32 s.pc % 4 = 0 → RangeOk s.cfg (u32 s.pc) 4 → (∀ i, decode ((s.view s.mem 0).readWord (u32 s.pc)) ≠ .ok i) →
      step s = .next (faulted u .illegal ((s.view s.mem 0).readWord (u32 s.pc))))

/-- After reset the CORE executes nothing until the host starts it (70_reset_and_hazards.md R250; 10_state.md R35): with no host move
pending, an idle machine stays as it is. -/
def Obligations.IdleMachineStaysAsItIs : Prop :=
  ∀ s : State, s.hostQueue = [] → s.run = .idle → step s = .next s

/-- Every command ends in one of the ways of 40_sequencer.md R110, whatever the state: it goes on at pc + 4; it is a branch and goes
on at its target; it is HALT and stops; or it raises a fault, which leaves everything but the report as it was (60_exceptions.md R222,
20_memory.md R68). In the first two the run goes on and nothing of STATUS, EPC, FINFO or the abort request changes. -/
def Obligations.EveryCommandEndsInOneOfFourWays : Prop :=
  ∀ (i : Instr) (s : State), ∃ t, exec i s = .next t ∧
    ((t.pc = s.pc + 4#32 ∧ t.run = s.run ∧ t.doneBit = s.doneBit ∧ t.faultBit = s.faultBit ∧ t.cause = s.cause ∧
        t.epc = s.epc ∧ t.finfo = s.finfo ∧ t.abortReq = s.abortReq) ∨
      (∃ d a imm16, (i = .beq d a imm16 ∨ i = .bne d a imm16) ∧ t = { s with pc := s.pc + wrap32 (4 * imm16.toInt) }) ∨
      (i = .halt ∧ t = { s with pc := s.pc + 4#32, run := .idle, doneBit := true, abortReq := false }) ∨
      (∃ c info, c ∈ [Cause.badLength, .dataAlign, .dataBus, .expOverflow] ∧ t = faulted s c info))

/-- No command writes the window's control side: CTRL's bits and the parameters stay, and so does the model's host side
(60_exceptions.md R230). -/
def Obligations.CommandsLeaveControlAlone : Prop :=
  ∀ (i : Instr) (s t : State), exec i s = .next t →
    t.allowSat = s.allowSat ∧ t.irqEn = s.irqEn ∧ t.cfg = s.cfg ∧ t.hostQueue = s.hostQueue ∧ t.hostData = s.hostData ∧
      t.race = s.race ∧ t.freeCount = s.freeCount

/-- Of the commands only SETVL writes VL (10_state.md R34). -/
def Obligations.OnlySetvlWritesVl : Prop :=
  ∀ (i : Instr) (s t : State), exec i s = .next t → t.vl ≠ s.vl → ∃ a, i = .setvl a ∧ t.vl = s.reg a

/-- A command writes no register but those its rule names as results (30_encoding.md R91), and x[0] reads 0 throughout (10_state.md R31). -/
def Obligations.CommandsWriteOnlyTheirResults : Prop :=
  ∀ (i : Instr) (s t : State), exec i s = .next t → (∀ n, n ∉ destinations i → t.reg n = s.reg n) ∧ t.reg 0 = 0#32

/-- A command writes no byte of memory but those it stores to: the word of SW at its effective address, a kernel's output operand, an FFT
command's buffer; the others write none (20_memory.md R69). -/
def Obligations.CommandsWriteOnlyTheirBytes : Prop :=
  ∀ (i : Instr) (s t : State), exec i s = .next t →
    ∀ a, inSpans (storeSpans i s) a = false → t.mem.read a = s.mem.read a

/-- A run ends in one of the three ways of 60_exceptions.md R237: done with CAUSE 0, PC after the HALT and EPC as it was; a fault of cause 1 to 7
with PC = EPC; aborted with cause 8 and EPC = PC. -/
def Obligations.RunsEndInOneOfThreeWays : Prop :=
  ∀ s t : State, Inv s → s.run = .run → s.hostQueue = [] → step s = .next t → t.run = .idle →
    (runEnd t = some .done ∧ t.faultBit = false ∧ t.cause = .none ∧ t.pc = s.pc + 4#32 ∧ t.epc = s.epc) ∨
      (runEnd t = some .fault ∧ t.doneBit = false ∧ t.cause ≠ .none ∧ t.cause ≠ .aborted ∧ t.pc = t.epc) ∨
      (runEnd t = some .aborted ∧ t.doneBit = false ∧ t.cause = .aborted ∧ t.epc = t.pc ∧ t.finfo = 0#32)

/-- `withFetchWord`, the model's stand-in for a program that the host loads and starts (log entry 11), does what it is for: the very next
step runs the command of the word. -/
def Obligations.PlacedWordRunsNext : Prop :=
  ∀ (s t : State) (w : Word) (i : Instr), decode w = .ok i →
    exec i (s.withFetchWord 32 (u32 w)) = .next t → step (s.withFetchWord 32 (u32 w)) = .next ((s.withFetchWord 32 (u32 w)).after t).boundary

/-! ### Invariants -/

/-- Every step keeps the invariant, host moves included: memory stays canonical (log entry 2), DONE and FAULT are never both 1, both are 0
while RUN, a cause stands exactly while FAULT does (10_state.md R42), an abort request does not outlive its run (R37), nor does the model's
record of its accesses (log entry 6). -/
def Obligations.StepKeepsInvariant : Prop :=
  ∀ s t : State, Inv s → step s = .next t → Inv t

/-- The invariant holds after reset, for all legal parameters and every canonical memory, those that the model chose for State.reset (log
entries 1 and 2) among them. -/
def Obligations.ResetMeetsInvariant : Prop :=
  (∀ (c : Config) (m : Memory), c.wf → m.wf → Inv (State.afterReset c m)) ∧ Inv State.reset

/-- Every step answers a next state, but for a host window access outside the window or misaligned, and every such access is refused
(10_state.md R50; log entry 7). That what the spec calls a fault, which ends a run (60_exceptions.md R220), is a next state of the machine
is the model's form (log entry 16). -/
def Obligations.OnlyIllegalHostAccessIsRefused : Prop :=
  ∀ s : State,
    ((∃ t, step s = .next t) ∨
      (step s = .refused .hostAccess ∧ ∃ addr rest, (s.hostQueue = .read addr :: rest ∨ ∃ v, s.hostQueue = .write addr v :: rest) ∧
        (addr < s.cfg.coreBase ∨ s.cfg.coreBase + 256 ≤ addr ∨ (addr - s.cfg.coreBase) % 4 ≠ 0))) ∧
    ∀ addr rest, (s.hostQueue = .read addr :: rest ∨ ∃ v, s.hostQueue = .write addr v :: rest) →
      (addr < s.cfg.coreBase ∨ s.cfg.coreBase + 256 ≤ addr ∨ (addr - s.cfg.coreBase) % 4 ≠ 0) → step s = .refused .hostAccess

/-! ### Arithmetic -/

/-- The signed shift (00_scope.md R16): floor of the quotient to the right, exact multiplication to the left; past the width a mantissa
shifts to 0 or −1. -/
def Obligations.ShiftFloorsForEveryAmount : Prop :=
  (∀ v s : Int, 0 ≤ s → shr v s = ⌊(v : ℚ) / 2 ^ s.toNat⌋) ∧ (∀ v s : Int, s < 0 → shr v s = v * 2 ^ (-s).toNat) ∧
    ∀ B v s, (B = 16 ∨ B = 32) → minB B ≤ v → v ≤ maxB B → (B : Int) ≤ s → shr v s = if 0 ≤ v then 0 else -1

/-- Headroom (00_scope.md R17): cls counts the bits from the sign bit down that equal it, the sign bit included, and hr is one less; so
headroom at least k means that the value fits B − k signed bits. -/
def Obligations.HeadroomCountsRedundantSignBits : Prop :=
  ∀ (B : Nat) (m : Int), (B = 16 ∨ B = 32) → minB B ≤ m → m ≤ maxB B →
    (1 ≤ cls B m ∧ cls B m ≤ B ∧ hr B m = cls B m - 1) ∧
    (∀ j, j < cls B m → (BitVec.ofInt B m).getLsbD (B - 1 - j) = (BitVec.ofInt B m).getLsbD (B - 1)) ∧
    (cls B m < B → (BitVec.ofInt B m).getLsbD (B - 1 - cls B m) ≠ (BitVec.ofInt B m).getLsbD (B - 1)) ∧
    ∀ k, k ≤ B - 1 → (k ≤ hr B m ↔ -2 ^ (B - 1 - k) ≤ m ∧ m ≤ 2 ^ (B - 1 - k) - 1)

/-- mag_fn, whichever instance the build has, meets MAG_TOL (00_scope.md R6): never negative, within one of the integer square root of
x² + y²; the reference instance is that root. -/
def Obligations.MagnitudeMeetsMagTol : Prop :=
  (∀ (g : MagInstance) (x y : Int), 0 ≤ magFn g x y ∧ (Nat.sqrt (x ^ 2 + y ^ 2).toNat : Int) - 1 ≤ magFn g x y ∧
      magFn g x y ≤ (Nat.sqrt (x ^ 2 + y ^ 2).toNat : Int) + 1) ∧
    ∀ x y : Int, magFn .reference x y = (Nat.sqrt (x ^ 2 + y ^ 2).toNat : Int)

/-- Bit reversal (00_scope.md R19): bit j of rev_L(i) is bit L−1−j of i, and reversing twice gives i back. -/
def Obligations.BitReversalReversesBits : Prop :=
  ∀ L i, i < 2 ^ L → rev L i < 2 ^ L ∧ (∀ j, j < L → (rev L i).testBit j = i.testBit (L - 1 - j)) ∧ rev L (rev L i) = i

/-- The twiddle ROM (43_fft.md R196): each entry is the nearest integer to 2^30·cos(2πk/NMAX) and to −2^30·sin(2πk/NMAX), for every build. -/
def Obligations.TwiddleRomIsNearest : Prop :=
  ∀ m k : Nat, 2 ≤ m → k < 2 ^ (m - 1) →
    |(twiddleRe m k : ℝ) - 2 ^ 30 * Real.cos (2 * Real.pi * k / 2 ^ m)| ≤ 1 / 2 ∧
    |(twiddleIm m k : ℝ) - -(2 ^ 30 * Real.sin (2 * Real.pi * k / 2 ^ m))| ≤ 1 / 2 ∧
    |twiddleRe m k| ≤ 2 ^ 30 ∧ |twiddleIm m k| ≤ 2 ^ 30

/-! ### Scalar commands -/

/-- LUI, ADDI, ADD, SUB (40_sequencer.md R112-R115): the result in x[d], the next command, nothing else; d = 0 writes nothing. -/
def Obligations.ArithmeticCommandsWriteTheirResult : Prop :=
  ∀ (d a b : Reg) (imm20 : BitVec 20) (imm16 : BitVec 16) (s : State),
    (∃ t, exec (.lui d imm20) s = .next t ∧ RegWritten s t d (wrap32 (imm20.toNat * 2 ^ 12 : Nat))) ∧
    (∃ t, exec (.addi d a imm16) s = .next t ∧ RegWritten s t d (wrap32 ((u32 (s.reg a) : Int) + imm16.toInt))) ∧
    (∃ t, exec (.add d a b) s = .next t ∧ RegWritten s t d (wrap32 ((u32 (s.reg a) : Int) + u32 (s.reg b)))) ∧
    (∃ t, exec (.sub d a b) s = .next t ∧ RegWritten s t d (wrap32 ((u32 (s.reg a) : Int) - u32 (s.reg b))))

/-- LW (40_sequencer.md R116): DATA_ALIGN, then DATA_BUS, else x[d] <- the little-endian word at EA, as the CORE reads memory
(RacesOpenOnlyTheirBytes); d = 0 loads and discards. -/
def Obligations.LoadWordLoadsOrFaults : Prop :=
  ∀ (d a : Reg) (imm16 : BitVec 16) (s : State) (ea : Word), ea = wrap32 ((u32 (s.reg a) : Int) + imm16.toInt) →
    (u32 ea % 4 ≠ 0 → exec (.lw d a imm16) s = .next (faulted s .dataAlign ea)) ∧
    (u32 ea % 4 = 0 → ¬RangeOk s.cfg (u32 ea) 4 → exec (.lw d a imm16) s = .next (faulted s .dataBus ea)) ∧
    (u32 ea % 4 = 0 → RangeOk s.cfg (u32 ea) 4 → ∃ t, exec (.lw d a imm16) s = .next t ∧
      ∀ m, m = s.view s.mem 1 → RegWritten s t d (m.read (u32 ea + 3) ++ m.read (u32 ea + 2) ++ m.read (u32 ea + 1) ++ m.read (u32 ea)))

/-- SW (40_sequencer.md R117): DATA_ALIGN, then DATA_BUS, else the four bytes of x[d] at EA, lowest first, every other byte of memory,
every register and all else as before. -/
def Obligations.StoreWordStoresOrFaults : Prop :=
  ∀ (d a : Reg) (imm16 : BitVec 16) (s : State) (ea : Word), ea = wrap32 ((u32 (s.reg a) : Int) + imm16.toInt) →
    (u32 ea % 4 ≠ 0 → exec (.sw d a imm16) s = .next (faulted s .dataAlign ea)) ∧
    (u32 ea % 4 = 0 → ¬RangeOk s.cfg (u32 ea) 4 → exec (.sw d a imm16) s = .next (faulted s .dataBus ea)) ∧
    (u32 ea % 4 = 0 → RangeOk s.cfg (u32 ea) 4 → ∃ t, exec (.sw d a imm16) s = .next t ∧
      t = { s with mem := t.mem, pc := s.pc + 4#32 } ∧
      (∀ k, k < 4 → t.mem.read (u32 ea + k) = (s.reg d).extractLsb' (8 * k) 8) ∧
      ∀ x, x < u32 ea ∨ u32 ea + 4 ≤ x → t.mem.read x = s.mem.read x)

/-- BEQ and BNE (40_sequencer.md R118, R119): to pc + 4 × sext_16(imm16) where the patterns are equal, or different, else to pc + 4; nothing
else changes. -/
def Obligations.BranchesGoWhereTheyShould : Prop :=
  ∀ (d a : Reg) (imm16 : BitVec 16) (s : State),
    exec (.beq d a imm16) s = .next { s with
      pc := if s.reg d = s.reg a then wrap32 ((u32 s.pc : Int) + 4 * imm16.toInt) else wrap32 ((u32 s.pc : Int) + 4) } ∧
    exec (.bne d a imm16) s = .next { s with
      pc := if s.reg d ≠ s.reg a then wrap32 ((u32 s.pc : Int) + 4 * imm16.toInt) else wrap32 ((u32 s.pc : Int) + 4) }

/-- HALT and SETVL (40_sequencer.md R111, R121). -/
def Obligations.HaltStopsAndSetvlSetsLength : Prop :=
  ∀ (a : Reg) (s : State),
    exec .halt s = .next { s with pc := wrap32 ((u32 s.pc : Int) + 4), run := .idle, doneBit := true, abortReq := false } ∧
    exec (.setvl a) s = .next { s with vl := s.reg a, pc := wrap32 ((u32 s.pc : Int) + 4) }

/-- HRS (40_sequencer.md R122): the headroom of the low B bits; bits above them do not count. -/
def Obligations.ScalarHeadroomIsWritten : Prop :=
  ∀ (d a : Reg) (s : State) (i : Instr) (ty : ElemTy), (i, ty) ∈ [(Instr.hrsS16 d a, ElemTy.s16), (Instr.hrsS32 d a, ElemTy.s32)] →
    ∃ t h, exec i s = .next t ∧ RegWritten s t d (BitVec.ofNat 32 h) ∧
      h = hr (bits ty) ((s.reg a).setWidth (bits ty)).toInt ∧ h ≤ bits ty - 1

/-! ### Calculators -/

/-- CALC.ADD (41_calculators.md R136): where all three outputs fit signed 32 bits they go to x[d], x[d+1], x[d+2], and nothing else but PC
changes. -/
def Obligations.CalcAddWritesItsGroup : Prop :=
  ∀ (d b c sh t : Reg) (s : State) (i : Instr) (ty : ElemTy) (aExp bShr cShr : Int), (i, ty) ∈ [(Instr.calcAddS16 d b c sh t, ElemTy.s16), (Instr.calcAddS32 d b c sh t, ElemTy.s32), (Instr.calcAddC16 d b c sh t, ElemTy.c16), (Instr.calcAddC32 d b c sh t, ElemTy.c32)] →
    d.val ≤ 13 → addOutputs (bits ty) s b c sh t = [aExp, bShr, cShr] → Fits aExp → Fits bShr → Fits cShr →
    ∃ u, exec i s = .next u ∧ u = { s with regs := u.regs, pc := s.pc + 4#32 } ∧ (d ≠ 0 → s32 (u.reg d) = aExp) ∧
      s32 (u.reg (d + 1)) = bShr ∧ s32 (u.reg (d + 2)) = cShr ∧
      ∀ n, n ≠ d → n ≠ d + 1 → n ≠ d + 2 → u.reg n = s.reg n

/-- CALC.MUL, CALC.CMUL and CALC.SCALE (41_calculators.md R138-R140): where both outputs fit they go to x[d], x[d+1]. -/
def Obligations.ProductCalculatorsWriteTheirGroup : Prop :=
  ∀ (d b c sh t : Reg) (s : State) (i : Instr) (ty : ElemTy) (aExp satShr : Int), d.val ≤ 14 → Fits aExp → Fits satShr →
    ((i, ty) ∈ [(Instr.calcMulS16 d b c sh t, ElemTy.s16), (Instr.calcMulS32 d b c sh t, ElemTy.s32)] ∧ mulOutputs (bits ty) s b c sh t = [aExp, satShr]) ∨
    ((i, ty) ∈ [(Instr.calcCmulC16 d b c sh t, ElemTy.c16), (Instr.calcCmulC32 d b c sh t, ElemTy.c32)] ∧ cmulOutputs (bits ty) s b c sh t = [aExp, satShr]) ∨
    ((i, ty) ∈ [(Instr.calcScaleS16 d b c sh t, ElemTy.s16), (Instr.calcScaleS32 d b c sh t, ElemTy.s32), (Instr.calcScaleC16 d b c sh t, ElemTy.c16), (Instr.calcScaleC32 d b c sh t, ElemTy.c32)] ∧ scaleOutputs (bits ty) s b c sh t = [aExp, satShr]) →
    ∃ u, exec i s = .next u ∧ PairWritten s u d aExp satShr

/-- CALC.MAG and CALC.SQMAG (41_calculators.md R141, R142): where both outputs fit they go to x[d], x[d+1]. -/
def Obligations.MagnitudeCalculatorsWriteTheirGroup : Prop :=
  ∀ (d b sh : Reg) (s : State) (i : Instr) (ty : ElemTy) (aExp shift : Int), d.val ≤ 14 → Fits aExp → Fits shift →
    ((i, ty) ∈ [(Instr.calcMagC16 d b sh, ElemTy.c16), (Instr.calcMagC32 d b sh, ElemTy.c32)] ∧ magOutputs (bits ty) s b sh = [aExp, shift]) ∨
    ((i, ty) ∈ [(Instr.calcSqmagC16 d b sh, ElemTy.c16), (Instr.calcSqmagC32 d b sh, ElemTy.c32)] ∧ sqmagOutputs (bits ty) s b sh = [aExp, shift]) →
    ∃ u, exec i s = .next u ∧ PairWritten s u d aExp shift

/-- A calculator with an output outside signed 32 bits raises EXP_OVERFLOW with its command word and writes nothing (41_calculators.md
R135; 60_exceptions.md R221). The command word is the encoding of the command (log entry 10). -/
def Obligations.CalculatorOverflowFaults : Prop :=
  ∀ (i : Instr) (s : State) (outs : List Int), calcOutputs i s = some outs → (∃ o ∈ outs, ¬Fits o) →
    exec i s = .next (faulted s .expOverflow (encode i))

/-- What CALC.ADD guarantees (41_calculators.md R137): with true headrooms, S = 0 keeps the pre-shifted parts within B − 1 bits, so neither
sum nor difference saturates; S = 1 keeps them within B bits; and with an exponent one lower some operands' sum saturates. -/
def Obligations.CalcAddRulesOutSaturation : Prop :=
  ∀ (B : Nat) (eb ec : Int) (hb hc : Nat) (aExp bShr cShr aExp1 bShr1 cShr1 : Int), (B = 16 ∨ B = 32) → hb ≤ B - 1 → hc ≤ B - 1 →
    calcAddOut B 0 eb ec hb hc = [aExp, bShr, cShr] → calcAddOut B 1 eb ec hb hc = [aExp1, bShr1, cShr1] →
    (∀ b c : Int, HeadroomAtLeast B hb b → HeadroomAtLeast B hc c →
      (-2 ^ (B - 2) ≤ shr b bShr ∧ shr b bShr ≤ 2 ^ (B - 2) - 1 ∧ -2 ^ (B - 2) ≤ shr c cShr ∧ shr c cShr ≤ 2 ^ (B - 2) - 1) ∧
      sat B (shr b bShr + shr c cShr) = shr b bShr + shr c cShr ∧ sat B (shr b bShr - shr c cShr) = shr b bShr - shr c cShr ∧
      minB B ≤ shr b bShr1 ∧ shr b bShr1 ≤ maxB B ∧ minB B ≤ shr c cShr1 ∧ shr c cShr1 ≤ maxB B) ∧
    ∃ b c : Int, HeadroomAtLeast B hb b ∧ HeadroomAtLeast B hc c ∧
      sat B (shr b (aExp - 1 - eb) + shr c (aExp - 1 - ec)) ≠ shr b (aExp - 1 - eb) + shr c (aExp - 1 - ec)

/-- Raising a headroom never raises the result exponent of a calculator (41_calculators.md R143). -/
def Obligations.CalculatorsAreMonotoneInHeadroom : Prop :=
  ∀ (B : Nat) (S eb ec hb hc hb' hc' : Int), hb ≤ hb' → hc ≤ hc' →
    (∀ x ∈ (calcAddOut B S eb ec hb' hc').head?, ∀ y ∈ (calcAddOut B S eb ec hb hc).head?, x ≤ y) ∧
    (∀ x ∈ (calcMulOut B S eb ec hb' hc').head?, ∀ y ∈ (calcMulOut B S eb ec hb hc).head?, x ≤ y) ∧
    (∀ x ∈ (calcCmulOut B S eb ec hb' hc').head?, ∀ y ∈ (calcCmulOut B S eb ec hb hc).head?, x ≤ y) ∧
    (∀ x ∈ (calcMagOut eb hb').head?, ∀ y ∈ (calcMagOut eb hb).head?, x ≤ y) ∧
    (∀ x ∈ (calcSqmagOut B S eb hb').head?, ∀ y ∈ (calcSqmagOut B S eb hb).head?, x ≤ y)

/-- A kernel run with the shifts its calculator returned never saturates, where ALLOW_SAT = 0 and the headrooms given are no more than the
true ones (42_kernels.md R173): each kernel's element value, with the sat_B left out, is already within the bounds. -/
def Obligations.PairedKernelsNeverSaturate : Prop :=
  ∀ (B : Nat) (eb ec : Int) (hb hc : Nat) (x y : Elem) (g : MagInstance), (B = 16 ∨ B = 32) → hb ≤ B - 1 → hc ≤ B - 1 →
    HeadroomAtLeast B hb x.re → HeadroomAtLeast B hb x.im → HeadroomAtLeast B hc y.re → HeadroomAtLeast B hc y.im →
    (∀ e bs cs, calcAddOut B 0 eb ec hb hc = [e, bs, cs] →
      addElem B bs cs x y = ⟨shr x.re bs + shr y.re cs, shr x.im bs + shr y.im cs⟩ ∧
      subElem B bs cs x y = ⟨shr x.re bs - shr y.re cs, shr x.im bs - shr y.im cs⟩) ∧
    (∀ e sh, calcMulOut B 0 eb ec hb hc = [e, sh] →
      mulElem B sh x y = ⟨shr (x.re * y.re) sh, 0⟩ ∧
      scaleElem B y.re sh x = ⟨shr (x.re * y.re) sh, shr (x.im * y.re) sh⟩) ∧
    (∀ e sh, calcCmulOut B 0 eb ec hb hc = [e, sh] →
      cmulElem B sh x y = ⟨shr (x.re * y.re - x.im * y.im) sh, shr (x.re * y.im + x.im * y.re) sh⟩ ∧
      cmulcElem B sh x y = ⟨shr (x.re * y.re + x.im * y.im) sh, shr (x.im * y.re - x.re * y.im) sh⟩) ∧
    (∀ e sh, calcMagOut eb hb = [e, sh] → magElem g B sh x = ⟨magFn g (shr x.re sh) (shr x.im sh), 0⟩) ∧
    (∀ e sh, calcSqmagOut B 0 eb hb = [e, sh] → sqmagElem B sh x = ⟨shr (x.re * x.re + x.im * x.im) sh, 0⟩)

/-! ### Kernels

`s.elemIn m n v k` is element k of v, input operand number n, as the CORE reads it from memory m: `elemRead m v k`, unless the host races for
its bytes (the statement RacesOpenOnlyTheirBytes). -/

/-- The checks of a kernel (42_kernels.md R160; 60_exceptions.md R223): the first misaligned base in field order, re before im, raises
DATA_ALIGN; where all are aligned, the first range that is not valid raises DATA_BUS with its start; nothing is accessed. -/
def Obligations.KernelChecksFaultInOrder : Prop :=
  ∀ (i : Instr) (s : State) (vs : List Vec) (pre post : List OperandArray) (r : OperandArray), kernelOperands i s = some vs →
    vs.flatMap Vec.arrays = pre ++ r :: post →
    ((∀ q ∈ pre, q.start % q.align = 0) → r.start % r.align ≠ 0 →
      exec i s = .next (faulted s .dataAlign (BitVec.ofNat 32 r.start))) ∧
    ((∀ q ∈ pre ++ r :: post, q.start % q.align = 0) → (∀ q ∈ pre, RangeOk s.cfg q.start (q.elemBytes * u32 s.vl)) →
      ¬RangeOk s.cfg r.start (r.elemBytes * u32 s.vl) → exec i s = .next (faulted s .dataBus (BitVec.ofNat 32 r.start)))

/-- VSHL (42_kernels.md R162). -/
def Obligations.VshlShiftsEveryPart : Prop :=
  ∀ (d a b sh : Reg) (s : State) (i : Instr) (ty : ElemTy), (i, ty) ∈ [(Instr.vshlS16 d a b sh, ElemTy.s16), (Instr.vshlS32 d a b sh, ElemTy.s32), (Instr.vshlC16 d a b sh, ElemTy.c16), (Instr.vshlC32 d a b sh, ElemTy.c32)] →
    OperandsOk s [vecOf s ty a, vecOf s ty b] →
    ∃ t, exec i s = .next t ∧ KernelRan s t d (vecOf s ty a) (fun m k =>
      let x := s.elemIn m 0 (vecOf s ty b) k
      { re := sat (bits ty) (shr x.re (-s32 (s.reg sh))), im := sat (bits ty) (shr x.im (-s32 (s.reg sh))) })

/-- VADD and VSUB (42_kernels.md R163, R164). -/
def Obligations.SumKernelsAddAndSubtract : Prop :=
  ∀ (d a b c sh u : Reg) (s : State) (i j : Instr) (ty : ElemTy),
    (i, ty) ∈ [(Instr.vaddS16 d a b c sh u, ElemTy.s16), (Instr.vaddS32 d a b c sh u, ElemTy.s32), (Instr.vaddC16 d a b c sh u, ElemTy.c16), (Instr.vaddC32 d a b c sh u, ElemTy.c32)] →
    (j, ty) ∈ [(Instr.vsubS16 d a b c sh u, ElemTy.s16), (Instr.vsubS32 d a b c sh u, ElemTy.s32), (Instr.vsubC16 d a b c sh u, ElemTy.c16), (Instr.vsubC32 d a b c sh u, ElemTy.c32)] →
    OperandsOk s [vecOf s ty a, vecOf s ty b, vecOf s ty c] →
    (∃ t, exec i s = .next t ∧ KernelRan s t d (vecOf s ty a) (fun m k =>
      let x := s.elemIn m 0 (vecOf s ty b) k
      let y := s.elemIn m 1 (vecOf s ty c) k
      { re := sat (bits ty) (shr x.re (s32 (s.reg sh)) + shr y.re (s32 (s.reg u))),
        im := sat (bits ty) (shr x.im (s32 (s.reg sh)) + shr y.im (s32 (s.reg u))) })) ∧
    ∃ t, exec j s = .next t ∧ KernelRan s t d (vecOf s ty a) (fun m k =>
      let x := s.elemIn m 0 (vecOf s ty b) k
      let y := s.elemIn m 1 (vecOf s ty c) k
      { re := sat (bits ty) (shr x.re (s32 (s.reg sh)) - shr y.re (s32 (s.reg u))),
        im := sat (bits ty) (shr x.im (s32 (s.reg sh)) - shr y.im (s32 (s.reg u))) })

/-- VMUL (42_kernels.md R165); the output is real, so only `re` is stored. -/
def Obligations.VmulMultipliesThenShifts : Prop :=
  ∀ (d a b c sh : Reg) (s : State) (i : Instr) (ty : ElemTy), (i, ty) ∈ [(Instr.vmulS16 d a b c sh, ElemTy.s16), (Instr.vmulS32 d a b c sh, ElemTy.s32)] →
    OperandsOk s [vecOf s ty a, vecOf s ty b, vecOf s ty c] →
    ∃ t, exec i s = .next t ∧ KernelRan s t d (vecOf s ty a) (fun m k =>
      let x := s.elemIn m 0 (vecOf s ty b) k
      let y := s.elemIn m 1 (vecOf s ty c) k
      { re := sat (bits ty) (shr (x.re * y.re) (s32 (s.reg sh))), im := 0 })

/-- VCMUL and VCMULC (42_kernels.md R166, R167). -/
def Obligations.ComplexProductsAreExact : Prop :=
  ∀ (d a b c sh : Reg) (s : State) (i j : Instr) (ty : ElemTy),
    (i, ty) ∈ [(Instr.vcmulC16 d a b c sh, ElemTy.c16), (Instr.vcmulC32 d a b c sh, ElemTy.c32)] →
    (j, ty) ∈ [(Instr.vcmulcC16 d a b c sh, ElemTy.c16), (Instr.vcmulcC32 d a b c sh, ElemTy.c32)] →
    OperandsOk s [vecOf s ty a, vecOf s ty b, vecOf s ty c] →
    (∃ t, exec i s = .next t ∧ KernelRan s t d (vecOf s ty a) (fun m k =>
      let x := s.elemIn m 0 (vecOf s ty b) k
      let y := s.elemIn m 1 (vecOf s ty c) k
      { re := sat (bits ty) (shr (x.re * y.re - x.im * y.im) (s32 (s.reg sh))),
        im := sat (bits ty) (shr (x.re * y.im + x.im * y.re) (s32 (s.reg sh))) })) ∧
    ∃ t, exec j s = .next t ∧ KernelRan s t d (vecOf s ty a) (fun m k =>
      let x := s.elemIn m 0 (vecOf s ty b) k
      let y := s.elemIn m 1 (vecOf s ty c) k
      { re := sat (bits ty) (shr (x.re * y.re + x.im * y.im) (s32 (s.reg sh))),
        im := sat (bits ty) (shr (x.im * y.re - x.re * y.im) (s32 (s.reg sh))) })

/-- VSCALE (42_kernels.md R168): the scalar is the low B bits of x[c]. -/
def Obligations.VscaleMultipliesByTheScalar : Prop :=
  ∀ (d a b c sh : Reg) (s : State) (i : Instr) (ty : ElemTy), (i, ty) ∈ [(Instr.vscaleS16 d a b c sh, ElemTy.s16), (Instr.vscaleS32 d a b c sh, ElemTy.s32), (Instr.vscaleC16 d a b c sh, ElemTy.c16), (Instr.vscaleC32 d a b c sh, ElemTy.c32)] →
    OperandsOk s [vecOf s ty a, vecOf s ty b] →
    ∃ t, exec i s = .next t ∧ KernelRan s t d (vecOf s ty a) (fun m k =>
      let x := s.elemIn m 0 (vecOf s ty b) k
      let α := ((s.reg c).setWidth (bits ty)).toInt
      { re := sat (bits ty) (shr (x.re * α) (s32 (s.reg sh))), im := sat (bits ty) (shr (x.im * α) (s32 (s.reg sh))) })

/-- VMAG, for every instance of mag_fn, and VSQMAG (42_kernels.md R169, R170): a real output of the same width. -/
def Obligations.MagnitudeKernelsWriteRealVectors : Prop :=
  ∀ (d a b sh : Reg) (s : State) (i j : Instr) (ty : ElemTy),
    (i, ty) ∈ [(Instr.vmagC16 d a b sh, ElemTy.c16), (Instr.vmagC32 d a b sh, ElemTy.c32)] →
    (j, ty) ∈ [(Instr.vsqmagC16 d a b sh, ElemTy.c16), (Instr.vsqmagC32 d a b sh, ElemTy.c32)] →
    OperandsOk s [vecOf s (realType ty) a, vecOf s ty b] →
    (∃ t, exec i s = .next t ∧ KernelRan s t d (vecOf s (realType ty) a) (fun m k =>
      let x := s.elemIn m 0 (vecOf s ty b) k
      { re := sat (bits ty) (magFn s.cfg.mag (shr x.re (s32 (s.reg sh))) (shr x.im (s32 (s.reg sh)))), im := 0 })) ∧
    ∃ t, exec j s = .next t ∧ KernelRan s t d (vecOf s (realType ty) a) (fun m k =>
      let x := s.elemIn m 0 (vecOf s ty b) k
      { re := sat (bits ty) (shr (x.re * x.re + x.im * x.im) (s32 (s.reg sh))), im := 0 })

/-- VHR (42_kernels.md R171): x[d] is the least headroom over every part of every element (00_scope.md R18), B − 1 for none; memory is not
written. -/
def Obligations.VhrWritesTheVectorHeadroom : Prop :=
  ∀ (d b : Reg) (s : State) (i : Instr) (ty : ElemTy), (i, ty) ∈ [(Instr.vhrS16 d b, ElemTy.s16), (Instr.vhrS32 d b, ElemTy.s32), (Instr.vhrC16 d b, ElemTy.c16), (Instr.vhrC32 d b, ElemTy.c32)] → OperandsOk s [vecOf s ty b] →
    ∃ t h, exec i s = .next t ∧ RegWritten s t d (BitVec.ofNat 32 h) ∧ h ≤ bits ty - 1 ∧
      (∀ k, k < u32 s.vl → ∀ p, (p = .re ∨ isComplex ty = true) → h ≤ hr (bits ty) (s.partIn s.mem 0 (vecOf s ty b) k p)) ∧
      (h = bits ty - 1 ∨ ∃ k, k < u32 s.vl ∧ ∃ p, (p = .re ∨ isComplex ty = true) ∧
        h = hr (bits ty) (s.partIn s.mem 0 (vecOf s ty b) k p))

/-- Element values without partial overlap, aliasing included (20_memory.md R74, R75): where every input is the output vector itself or
shares no byte with it, each stored part is the function of the inputs as they were before the command. -/
def Obligations.AliasedKernelEqualsDisjointCopy : Prop :=
  ∀ (out : Vec) (ins : List Vec) (g : List Elem → Elem) (m : Memory) (N : Nat), PartsApart out N →
    (∀ v ∈ ins, SameVec v out ∨ Apart out v N) → (∀ xs, InBounds (bits out.ty) (g xs)) →
    ∀ k, k < N → ∀ p, (p = .re ∨ isComplex out.ty = true) →
      partRead (kernelLoop out (fun m k => g (ins.map (fun v => elemRead m v k))) N m) out k p =
        part (g (ins.map (fun v => elemRead m v k))) p

/-! ### The FFT engine -/

/-- The checks of VBITREV, FFTF and FFTI, in order (43_fft.md R195, R203): BAD_LENGTH with VL, DATA_ALIGN and DATA_BUS with the base, and
for the transforms EXP_OVERFLOW with the input exponent. -/
def Obligations.FftChecksFaultInOrder : Prop :=
  ∀ (d a b : Reg) (s : State) (i : Instr), i ∈ [Instr.vbitrevC32 a, .fftfC32 d a b, .fftiC32 d a b] →
    ((∀ L, u32 s.vl = 2 ^ L → L < 2 ∨ s.cfg.maxFftLog2 < L) → exec i s = .next (faulted s .badLength s.vl)) ∧
    ∀ L, u32 s.vl = 2 ^ L → 2 ≤ L → L ≤ s.cfg.maxFftLog2 →
      (u32 (s.reg a) % 4 ≠ 0 → exec i s = .next (faulted s .dataAlign (s.reg a))) ∧
      (u32 (s.reg a) % 4 = 0 → ¬RangeOk s.cfg (u32 (s.reg a)) (8 * 2 ^ L) → exec i s = .next (faulted s .dataBus (s.reg a))) ∧
      (FftBufferOk s a L → ¬FftExponentOk s b L → i ≠ .vbitrevC32 a → exec i s = .next (faulted s .expOverflow (s.reg b)))

/-- VBITREV (43_fft.md R197): element i becomes what element rev_L(i) was, both parts; no register, no other byte changes. -/
def Obligations.VbitrevPermutesTheBuffer : Prop :=
  ∀ (a : Reg) (s : State) (L : Nat), FftBufferOk s a L →
    ∃ t, exec (.vbitrevC32 a) s = .next t ∧ t = { s with mem := t.mem, pc := s.pc + 4#32 } ∧
      (∀ i, i < 2 ^ L → elemRead t.mem (buffer (u32 (s.reg a))) i = s.elemIn s.mem 0 (buffer (u32 (s.reg a))) (rev L i)) ∧
      ∀ x, x < u32 (s.reg a) ∨ u32 (s.reg a) + 8 * 2 ^ L ≤ x → t.mem.read x = s.mem.read x

/-- FFTF (43_fft.md R198-R200), and FFTI (R201) with the conjugate twiddles and log2(N) off the exponent. -/
def Obligations.TransformsRunScaledPasses : Prop :=
  ∀ (d a b : Reg) (s : State) (L : Nat), d.val ≤ 14 → FftBufferOk s a L → FftExponentOk s b L →
    (∃ t, exec (.fftfC32 d a b) s = .next t ∧ FftRan s t false 0 d a b L) ∧
    ∃ t, exec (.fftiC32 d a b) s = .next t ∧ FftRan s t true L d a b L

/-- The FFT never saturates (43_fft.md R202): after the scaling before pass k, u + t and u − t of every butterfly are within 32 bits. -/
def Obligations.FftNeverSaturates : Prop :=
  ∀ (M k j : Nat) (conj : Bool) (xs : List Elem) (u y t : Elem), 2 ≤ M → M ≤ 28 → k < M → j < 2 ^ k →
    (∀ x ∈ xs, InBounds 32 x) → u ∈ scaleBy (scaleShift k xs) xs → y ∈ scaleBy (scaleShift k xs) xs →
    t = twiddleProduct (twiddle M conj k j) y →
    InBounds 32 ⟨u.re + t.re, u.im + t.im⟩ ∧ InBounds 32 ⟨u.re - t.re, u.im - t.im⟩

/-- The exponent of a transform (43_fft.md R202, R203): L ≥ 2 passes raise it by at most 2L − 2, whatever the sweeps over the buffer read, so
an input exponent that passes the check gives a result, of FFTF or of FFTI, that fits signed 32 bits. -/
def Obligations.FftExponentStaysInRange : Prop :=
  ∀ (M L : Nat) (conj : Bool) (rd : Nat → List Elem → List Elem) (xs : List Elem) (e : Int), 2 ≤ L →
    e ≤ (fft M conj rd L (xs, e)).2 ∧ (fft M conj rd L (xs, e)).2 ≤ e + 2 * L - 2 ∧
    (-2 ^ 31 + (L : Int) ≤ e → e ≤ 2 ^ 31 - 1 - 2 * (L : Int) →
      Fits (fft M conj rd L (xs, e)).2 ∧ Fits ((fft M conj rd L (xs, e)).2 - L))

/-! ### The host's side -/

/-- Window reads while IDLE return the current values (10_state.md R40-R49), and reserved offsets 0. -/
def Obligations.IdleWindowReadsAreCurrent : Prop :=
  ∀ (s : State) (rest : List HostAct) (off : Nat) (v : Word), s.run = .idle →
    s.hostQueue = .read (s.cfg.coreBase + off) :: rest →
    (off, v) ∈ windowTable s ∨ (off % 4 = 0 ∧ v = 0#32 ∧ ((0x20 ≤ off ∧ off < 0x40) ∨ (0x80 ≤ off ∧ off < 0x100))) →
    step s = .next { s with hostQueue := rest, hostData := v }

/-- Window reads while RUN (10_state.md R52): ID, CFG, CTRL, STATUS, EPC and FINFO return their current values, reserved offsets 0 (R40); a
read of PC, VL or a general register returns some value, the model's next free one (log entry 5), and changes nothing of the CORE. -/
def Obligations.RunningWindowReadsAreCurrentOrFree : Prop :=
  ∀ (s : State) (rest : List HostAct) (off : Nat), s.run = .run → s.hostQueue = .read (s.cfg.coreBase + off) :: rest →
    (∀ v, (off, v) ∈ [(0x00, 0x42465031#32), (0x04, BitVec.ofNat 32 (s.cfg.maxFftLog2 % 32)),
        (0x08, BitVec.ofNat 32 (2 * s.allowSat.toNat + 4 * s.irqEn.toNat)),
        (0x0C, BitVec.ofNat 32 (1 + 2 * s.doneBit.toNat + 4 * s.faultBit.toNat + 256 * s.cause.code.toNat)),
        (0x18, s.epc), (0x1C, s.finfo)] → step s = .next { s with hostQueue := rest, hostData := v }) ∧
    (off % 4 = 0 → ((0x20 ≤ off ∧ off < 0x40) ∨ (0x80 ≤ off ∧ off < 0x100)) →
      step s = .next { s with hostQueue := rest, hostData := 0#32 }) ∧
    (off % 4 = 0 → (off = 0x10 ∨ off = 0x14 ∨ (0x40 ≤ off ∧ off < 0x80)) →
      ∃ v, step s = .next { s with hostQueue := rest, hostData := v, freeCount := s.freeCount + 1 })

/-- A CTRL write (10_state.md R41): while IDLE the two policy bits, then the start sequence where START is 1; while RUN only IRQ_EN and the
abort request. -/
def Obligations.CtrlWriteStartsOrAborts : Prop :=
  ∀ (s : State) (rest : List HostAct) (v : Word), s.hostQueue = .write (s.cfg.coreBase + 0x08) v :: rest →
    (s.run = .idle → v.getLsbD 0 = false →
      step s = .next { s with hostQueue := rest, allowSat := v.getLsbD 1, irqEn := v.getLsbD 2 }) ∧
    (s.run = .idle → v.getLsbD 0 = true →
      step s = .next { s with
        hostQueue := rest, allowSat := v.getLsbD 1, irqEn := v.getLsbD 2, doneBit := false, faultBit := false,
        cause := .none, abortReq := false, run := .run }) ∧
    (s.run = .run →
      step s = .next { s with hostQueue := rest, irqEn := v.getLsbD 2, abortReq := v.getLsbD 3 || s.abortReq })

/-- A STATUS write (10_state.md R42): 1 in bit 1 clears DONE, 1 in bit 2 clears FAULT and CAUSE, nothing else changes. -/
def Obligations.StatusWriteClearsBits : Prop :=
  ∀ (s : State) (rest : List HostAct) (v : Word), s.hostQueue = .write (s.cfg.coreBase + 0x0C) v :: rest →
    step s = .next { s with
      hostQueue := rest, doneBit := s.doneBit && !v.getLsbD 1, faultBit := s.faultBit && !v.getLsbD 2,
      cause := if v.getLsbD 2 = true then .none else s.cause }

/-- Host writes of PC, VL and the general registers (10_state.md R45, R46, R49, R51): while IDLE they take effect, X0 excepted; while RUN
they are dropped. A write to ID, CFG, EPC, FINFO or a reserved offset (R40, R43, R44, R47, R48) changes nothing at any time; for the four
registers, which the spec only calls read-only, that is the model's reading (log entry 9). -/
def Obligations.RegisterWritesTakeEffectOnlyWhileIdle : Prop :=
  ∀ (s : State) (rest : List HostAct) (v : Word),
    (s.hostQueue = .write (s.cfg.coreBase + 0x10) v :: rest →
      (s.run = .idle → step s = .next { s with hostQueue := rest, pc := v }) ∧
      (s.run = .run → step s = .next { s with hostQueue := rest })) ∧
    (s.hostQueue = .write (s.cfg.coreBase + 0x14) v :: rest →
      (s.run = .idle → step s = .next { s with hostQueue := rest, vl := v }) ∧
      (s.run = .run → step s = .next { s with hostQueue := rest })) ∧
    (∀ n : Reg, s.hostQueue = .write (s.cfg.coreBase + 0x40 + 4 * n.val) v :: rest →
      (s.run = .idle → ∃ t, step s = .next t ∧ t = { s with hostQueue := rest, regs := t.regs } ∧
        ∀ k, t.reg k = if k = n ∧ n ≠ 0 then v else s.reg k) ∧
      (s.run = .run → step s = .next { s with hostQueue := rest })) ∧
    ∀ off, off % 4 = 0 →
      (off ∈ [0x00, 0x04, 0x18, 0x1C] ∨ (0x20 ≤ off ∧ off < 0x40) ∨ (0x80 ≤ off ∧ off < 0x100)) →
      s.hostQueue = .write (s.cfg.coreBase + off) v :: rest → step s = .next { s with hostQueue := rest }

/-- The reset input while IDLE (70_reset_and_hazards.md R250; 10_state.md R54): every piece of CORE state at its reset value, the shared
memory and the parameters untouched. -/
def Obligations.IdleResetGivesResetState : Prop :=
  ∀ (s : State) (rest : List HostAct), s.run = .idle → s.hostQueue = .reset :: rest →
    ∃ t, step s = .next t ∧ (∀ n, t.reg n = 0#32) ∧ t.pc = 0#32 ∧ t.vl = 0#32 ∧ t.run = .idle ∧ t.allowSat = false ∧
      t.irqEn = false ∧ t.doneBit = false ∧ t.faultBit = false ∧ t.cause = .none ∧ t.epc = 0#32 ∧ t.finfo = 0#32 ∧
      t.abortReq = false ∧ irq t = false ∧ t.mem = s.mem ∧ t.cfg = s.cfg

/-- The reset input while RUN (70_reset_and_hazards.md R250): every piece of CORE state at its reset value (10_state.md R54), the parameters
untouched; no byte changes but those the command in progress would write, and each of these holds its old value or one that the command
could have written: the value it writes, where it writes no byte twice, else one of the values it writes there in turn (log entry 8). -/
def Obligations.RunningResetAbandonsOneCommand : Prop :=
  ∀ (s : State) (rest : List HostAct), s.run = .run → s.hostQueue = .reset :: rest →
    ∃ t, step s = .next t ∧ (∀ n, t.reg n = 0#32) ∧ t.pc = 0#32 ∧ t.vl = 0#32 ∧ t.run = .idle ∧ t.allowSat = false ∧
      t.irqEn = false ∧ t.doneBit = false ∧ t.faultBit = false ∧ t.cause = .none ∧ t.epc = 0#32 ∧ t.finfo = 0#32 ∧
      t.abortReq = false ∧ irq t = false ∧ t.cfg = s.cfg ∧
      ((∀ i, decode ((s.view s.mem 0).readWord (u32 s.pc)) ≠ .ok i) → t.mem = s.mem) ∧
      ∀ i, decode ((s.view s.mem 0).readWord (u32 s.pc)) = .ok i →
        (∀ a, inSpans (storeSpans i s) a = false → t.mem.read a = s.mem.read a) ∧
        (∀ a, t.mem.read a = s.mem.read a ∨ (a, t.mem.read a) ∈ commandCells i s) ∧
        (WritesOnce i s → ∀ u, exec i s = .next u → ∀ a, t.mem.read a = s.mem.read a ∨ t.mem.read a = u.mem.read a)

/-- The interrupt output (10_state.md R53) at the end of a run: it is high exactly where IRQ_EN is 1 after a HALT or a fault, and a fault
leaves IRQ_EN as it was (60_exceptions.md R222). -/
def Obligations.InterruptFollowsDoneAndFault : Prop :=
  ∀ s : State, (irq s = true ↔ s.irqEn = true ∧ (s.doneBit = true ∨ s.faultBit = true)) ∧
    (∀ t, exec .halt s = .next t → irq t = s.irqEn) ∧
    ∀ i t, exec i s = .next t → s.faultBit = false → t.faultBit = true → irq t = s.irqEn

/-- Host accesses to the shared memory (10_state.md R30; 20_memory.md R60, R78). While IDLE a load returns the byte the memory holds and a
store changes that byte alone. While RUN too, but for races: where the run has written the byte, a store leaves it at either agent's value;
and a load is sure to return what memory holds unless the run has written the byte, or the host has stored to a byte the run has read, or a
race for the byte is foretold, which is so only of bytes that host and run will race for (log entry 6). The move foretell only names a byte.
At an address that mem_valid excludes, before the host has read STATUS after a run, and where an agent writes a byte more than once, that is
the model's choice (log entries 17 to 19). -/
def Obligations.HostAccessesReachMemory : Prop :=
  ∀ (s : State) (rest : List HostAct) (a : Word) (b : Byte),
    (s.hostQueue = .load a :: rest →
      (s.run = .idle → step s = .next { s with hostQueue := rest, hostData := (s.mem.read (u32 a)).setWidth 32 }) ∧
      (s.run = .run → ∃ t l f, step s = .next t ∧ t = { s with
          hostQueue := rest, hostData := t.hostData, freeCount := s.freeCount + 1,
          race := { s.race with foretold := l, foreseen := f, hostLoaded := u32 a :: s.race.hostLoaded } } ∧
        (s.race.foreseen = true → l = s.race.foretold) ∧
        (s.race.foreseen = false → ∀ x ∈ l, x ∈ racesWith (.load a :: rest) { s with hostQueue := rest } l) ∧
        (u32 a ∉ l → inSpans s.race.runWrote (u32 a) = false →
          (u32 a ∈ s.race.hostStored → inSpans s.race.runRead (u32 a) = false) →
          t.hostData = (s.mem.read (u32 a)).setWidth 32))) ∧
    (s.hostQueue = .store a b :: rest → ∃ t, step s = .next t ∧ (∀ x, x ≠ u32 a → t.mem.read x = s.mem.read x) ∧
      (s.run = .idle → t = { s with hostQueue := rest, mem := t.mem } ∧ t.mem.read (u32 a) = b) ∧
      (s.run = .run → t = { s with
          hostQueue := rest, mem := t.mem, freeCount := t.freeCount,
          race := { s.race with hostStored := u32 a :: s.race.hostStored } } ∧
        (inSpans s.race.runWrote (u32 a) = false → t.mem.read (u32 a) = b) ∧
        (t.mem.read (u32 a) = b ∨ t.mem.read (u32 a) = s.mem.read (u32 a)))) ∧
    (s.hostQueue = .foretell a :: rest →
      step s = .next { s with hostQueue := rest, race := { s.race with named := u32 a :: s.race.named } })

/-- What a race opens, and nothing else (20_memory.md R78). A byte is open to the CORE's reads where a race for it is foretold, where
the host has stored to it in the run, or where the host has loaded it and the run has written it; every part of a vector element whose bytes are
not open, and every other byte, is read as memory holds it, and read again as the command last wrote it, and an open byte as a free value, another
for each read. Before the first command or host load of a run that pending moves bring, its races are foretold: what is foretold does race, and
where the races of the run with every read exact are those of the run with just them read as free values, they are what is foretold. After a
command a byte that the host stored to and the command wrote is as the command leaves it or as memory held it before the command; every other
byte is what the command left, so that one the command does not write stays. The model's choices, not R78's words: that the byte from before
the command may be the CORE's own older one (DESIGN CHOICE, log entry 19), and how races are recorded and foretold (DESIGN CHOICE, log
entry 6). -/
def Obligations.RacesOpenOnlyTheirBytes : Prop :=
  ∀ s : State,
    (∀ a, a ∈ s.clouded ↔
      a ∈ s.race.foretold ∨ a ∈ s.race.hostStored ∨ (a ∈ s.race.hostLoaded ∧ inSpans s.race.runWrote a = true)) ∧
    (∀ m k a, (s.view m k).read a = if a ∈ s.clouded then Config.racedByte s.freeCount k a else m.read a) ∧
    (∀ m n v k p, (∀ a, partAddr v k p ≤ a → a < partAddr v k p + bits v.ty / 8 → a ∉ s.clouded) →
      s.partIn m n v k p = partRead m v k p ∧
        ∀ r x, minB (bits v.ty) ≤ x → x ≤ maxB (bits v.ty) → s.partAgain v r k p x = x) ∧
    (∀ act, s.run = .run → s.race.foreseen = false →
      ∃ l, s.foresee act = { s with race := { s.race with foretold := l, foreseen := true } } ∧
        (∀ a ∈ l, a ∈ racesWith (act :: s.hostQueue) s l) ∧
        ∀ m, m = racesWith (act :: s.hostQueue) s [] → (∀ a, a ∈ racesWith (act :: s.hostQueue) s m ↔ a ∈ m) →
          s.race.named = [] → namedBytes (act :: s.hostQueue) = [] → hostAccesses (act :: s.hostQueue) s.race ≠ 0 → l = m) ∧
    ∀ t u a, s.hostQueue = [] → s.run = .run → command s = .next u → step s = .next t →
      (inSpans (written s) a = false → t.mem.read a = s.mem.read a) ∧
      (a ∉ s.race.hostStored → t.mem.read a = u.mem.read a) ∧
      (t.mem.read a = u.mem.read a ∨ t.mem.read a = s.mem.read a)
end

