-- ==== Sys2Proof/Laws/Arith.lean ====
section
/-! SUPPORT. The laws of the arithmetic of spec/00_scope.md §5: saturation, signed shift, the one-bit-at-a-time search and the integer
square root built on it, runs of equal bits, and patterns against values. -/

namespace Sys2Proof.Machine

/-! ### Saturation (00_scope.md R15) -/

theorem minB_le_maxB (B : Nat) : minB B ≤ maxB B := by
  have : (0 : Int) < 2 ^ (B - 1) := by positivity
  unfold minB maxB; omega

theorem minB_le_sat (B : Nat) (v : Int) : minB B ≤ sat B v := by
  have := minB_le_maxB B
  unfold sat; split
  · exact le_refl _
  · split <;> omega

theorem sat_le_maxB (B : Nat) (v : Int) : sat B v ≤ maxB B := by
  have := minB_le_maxB B
  unfold sat; split
  · exact this
  · split <;> omega

/-- A value within the bounds is not changed. -/
theorem sat_of_mem (B : Nat) (v : Int) (h1 : minB B ≤ v) (h2 : v ≤ maxB B) : sat B v = v := by
  unfold sat; rw [if_neg (by omega), if_neg (by omega)]

theorem sat_mono (B : Nat) {v w : Int} (h : v ≤ w) : sat B v ≤ sat B w := by
  have := minB_le_maxB B
  unfold sat; split <;> split <;> (try split) <;> (try split) <;> omega

@[simp] theorem minB_16 : minB 16 = -32768 := by decide
@[simp] theorem maxB_16 : maxB 16 = 32767 := by decide
@[simp] theorem minB_32 : minB 32 = -2147483648 := by decide
@[simp] theorem maxB_32 : maxB 32 = 2147483647 := by decide

/-! ### Signed shift (00_scope.md R16) -/

/-- A right shift is floor division by the power of two. -/
theorem shr_of_nonneg (v s : Int) (h : 0 ≤ s) : shr v s = v / 2 ^ s.toNat := by
  unfold shr; rw [if_pos h, Int.shiftRight_eq_div_pow]; norm_cast

/-- A left shift is exact multiplication by the power of two. -/
theorem shr_of_neg (v s : Int) (h : s < 0) : shr v s = v * 2 ^ (-s).toNat := by
  unfold shr; rw [if_neg (by omega)]

@[simp] theorem shr_zero (v : Int) : shr v 0 = v := by simp [shr]

theorem shr_mono (s : Int) {v w : Int} (h : v ≤ w) : shr v s ≤ shr w s := by
  by_cases hs : 0 ≤ s
  · rw [shr_of_nonneg _ _ hs, shr_of_nonneg _ _ hs]
    exact Int.ediv_le_ediv (by positivity) h
  · rw [shr_of_neg _ _ (by omega), shr_of_neg _ _ (by omega)]
    exact Int.mul_le_mul_of_nonneg_right h (by positivity)

/-! ### Search and square root (00_scope.md R19) -/

/-- What `bitSearch` finds, for a p that holds at r and stays false once false: the last r' below r + 2^k at which p holds. -/
theorem bitSearch_spec (p : Nat → Bool) (k r : Nat) (h0 : p r = true)
    (hp : ∀ a b, a ≤ b → p b = true → p a = true) :
    r ≤ bitSearch p k r ∧ bitSearch p k r < r + 2 ^ k ∧ p (bitSearch p k r) = true ∧
      (bitSearch p k r + 1 < r + 2 ^ k → p (bitSearch p k r + 1) = false) := by
  induction k generalizing r with
  | zero => simp [bitSearch, h0]
  | succ k ih =>
    have e : 2 ^ (k + 1) = 2 ^ k + 2 ^ k := by rw [Nat.pow_succ]; omega
    unfold bitSearch
    by_cases h : p (r + 2 ^ k) = true
    · rw [if_pos h]
      have hk := ih (r + 2 ^ k) h
      exact ⟨by omega, by omega, hk.2.2.1, fun hlt => hk.2.2.2 (by omega)⟩
    · rw [if_neg h]
      have hk := ih r h0
      refine ⟨hk.1, by omega, hk.2.2.1, fun _ => ?_⟩
      by_cases hlt : bitSearch p k r + 1 < r + 2 ^ k
      · exact hk.2.2.2 hlt
      · by_contra hc
        have hc : p (bitSearch p k r + 1) = true := by simpa using hc
        exact h (hp _ _ (by omega) hc)

/-- isqrt(n) is the greatest r with r² ≤ n. -/
theorem isqrt_spec (n : Nat) : isqrt n * isqrt n ≤ n ∧ n < (isqrt n + 1) * (isqrt n + 1) := by
  have h := bitSearch_spec (fun r => decide (r * r ≤ n)) (n.log2 / 2 + 1) 0 (by simp)
    (fun a b hab hb => by
      simp only [decide_eq_true_eq] at hb ⊢
      exact le_trans (Nat.mul_le_mul hab hab) hb)
  rw [Nat.zero_add] at h
  change (_ ∧ isqrt n < _ ∧ decide (isqrt n * isqrt n ≤ n) = true ∧
    (isqrt n + 1 < _ → decide ((isqrt n + 1) * (isqrt n + 1) ≤ n) = false)) at h
  simp only [decide_eq_true_eq, decide_eq_false_iff_not, Nat.not_le] at h
  refine ⟨h.2.2.1, ?_⟩
  by_cases hlt : isqrt n + 1 < 2 ^ (n.log2 / 2 + 1)
  · exact h.2.2.2 hlt
  · have he : 2 ^ (n.log2 / 2 + 1) ≤ isqrt n + 1 := by omega
    have hn : n < 2 ^ (n.log2 + 1) := Nat.lt_log2_self
    calc n < 2 ^ (n.log2 + 1) := hn
      _ ≤ 2 ^ ((n.log2 / 2 + 1) + (n.log2 / 2 + 1)) := Nat.pow_le_pow_right (by omega) (by omega)
      _ = 2 ^ (n.log2 / 2 + 1) * 2 ^ (n.log2 / 2 + 1) := Nat.pow_add _ _ _
      _ ≤ (isqrt n + 1) * (isqrt n + 1) := Nat.mul_le_mul he he

theorem isqrt_eq_sqrt (n : Nat) : isqrt n = Nat.sqrt n := by
  have h := isqrt_spec n
  exact (Nat.eq_sqrt.2 ⟨h.1, h.2⟩)

/-! ### Runs of bits and headroom (00_scope.md R17) -/

/-- A run counts equal bits: the k bits below its start agree with b as far as it goes, and the next one differs. -/
theorem runLength_spec (u : Nat) (b : Bool) (k : Nat) :
    runLength u b k ≤ k ∧ (∀ j, j < runLength u b k → u.testBit (k - 1 - j) = b) ∧
      (runLength u b k < k → u.testBit (k - 1 - runLength u b k) ≠ b) := by
  induction k with
  | zero => simp [runLength]
  | succ k ih =>
    unfold runLength
    by_cases h : u.testBit k = b
    · rw [if_pos (by simp [h])]
      refine ⟨by omega, fun j hj => ?_, fun hlt => ?_⟩
      · rcases Nat.eq_zero_or_pos j with rfl | hj0
        · simpa using h
        · have := ih.2.1 (j - 1) (by omega)
          rwa [show k + 1 - 1 - j = k - 1 - (j - 1) by omega]
      · have := ih.2.2 (by omega)
        rwa [show k + 1 - 1 - (runLength u b k + 1) = k - 1 - runLength u b k by omega]
    · rw [if_neg (by simp [h])]
      exact ⟨by omega, by simp, fun _ => by simpa using h⟩

/-- 1 ≤ cls_B(m) ≤ B: the sign bit counts itself (00_scope.md R17). -/
theorem cls_bounds (B : Nat) (hB : 0 < B) (m : Int) : 1 ≤ cls B m ∧ cls B m ≤ B := by
  unfold cls
  obtain ⟨k, rfl⟩ : ∃ k, B = k + 1 := ⟨B - 1, by omega⟩
  refine ⟨?_, (runLength_spec _ _ _).1⟩
  simp [runLength]

theorem hr_le (B : Nat) (m : Int) : hr B m ≤ B - 1 := by
  have : cls B m ≤ B := (runLength_spec _ _ B).1
  unfold hr; omega

/-! ### Patterns and values (00_scope.md R12) -/

/-- A value within B signed bits is the value of its pattern. -/
theorem toInt_ofInt_of_mem (B : Nat) (hB : 0 < B) (v : Int) (h1 : minB B ≤ v) (h2 : v ≤ maxB B) :
    (BitVec.ofInt B v).toInt = v := by
  unfold minB at h1; unfold maxB at h2
  rw [BitVec.toInt_ofInt]
  have e : ((2 ^ B : Nat) : Int) = 2 * 2 ^ (B - 1) := by
    obtain ⟨k, rfl⟩ : ∃ k, B = k + 1 := ⟨B - 1, by omega⟩
    push_cast; rw [pow_succ]; ring
  apply Int.bmod_eq_of_le
  · rw [e]; omega
  · rw [e]; omega

theorem s32_wrap32 (v : Int) (h1 : -2 ^ 31 ≤ v) (h2 : v ≤ 2 ^ 31 - 1) : s32 (wrap32 v) = v :=
  toInt_ofInt_of_mem 32 (by omega) v (by unfold minB; simpa using h1) (by unfold maxB; simpa using h2)

end Sys2Proof.Machine
end

