-- ==== Sys2Proof/Laws/Memory.lean ====
section
/-! SUPPORT. The laws of the shared memory: a byte read after a byte write, the little-endian accesses (spec/20_memory.md R62), the
canonical form that every write keeps, equal contents as equal data, and what the range check (R67) says. -/

namespace Sys2Proof.Machine

/-! ### Bytes -/

@[simp] theorem Memory.read_nil (a : Nat) : Memory.read [] a = Memory.unlisted := rfl

theorem Memory.read_cons (c : Host.Cell) (m : Memory) (a : Nat) :
    Memory.read (c :: m) a = if c.1 = a then c.2 else Memory.read m a := rfl

/-- An address with no entry reads as an unlisted one. -/
theorem Memory.read_of_forall_ne (m : Memory) (a : Nat) (h : ∀ c ∈ m, c.1 ≠ a) : m.read a = Memory.unlisted := by
  induction m with
  | nil => rfl
  | cons c m ih =>
    rw [Memory.read_cons, if_neg (h c (by simp)), ih (fun c' h' => h c' (by simp [h']))]

theorem Memory.read_drop (m : Memory) (a b : Nat) :
    (m.drop a).read b = if b = a then Memory.unlisted else m.read b := by
  induction m with
  | nil => simp [Memory.drop]
  | cons c m ih =>
    unfold Memory.drop at ih ⊢
    by_cases hc : c.1 = a
    · rw [List.filter_cons_of_neg (by simp [hc]), ih, Memory.read_cons, hc]
      by_cases hb : b = a
      · simp [hb]
      · simp [hb, Ne.symm hb]
    · rw [List.filter_cons_of_pos (by simp [hc]), Memory.read_cons, ih, Memory.read_cons]
      by_cases hb : b = a
      · subst hb; simp [hc]
      · simp [hb]

theorem Memory.drop_ne (m : Memory) (a : Nat) : ∀ c ∈ m.drop a, c.1 ≠ a := by
  intro c hc; simp [Memory.drop] at hc; exact hc.2

theorem Memory.read_insert (m : Memory) (a b : Nat) (v : Byte) (h : ∀ c ∈ m, c.1 ≠ a) :
    (m.insert a v).read b = if b = a then v else m.read b := by
  induction m with
  | nil => simp [Memory.insert, Memory.read_cons, eq_comm]
  | cons c m ih =>
    have hc := h c (by simp)
    have ih := ih (fun c' h' => h c' (by simp [h']))
    obtain ⟨k, x⟩ := c
    simp only [Memory.insert]
    split
    · simp [Memory.read_cons, eq_comm]
    · rw [Memory.read_cons, ih, Memory.read_cons]
      by_cases hb : b = a
      · subst hb; simp [hc]
      · simp [hb]

/-- A byte read after a byte write: the byte written at its address, the old byte everywhere else. It holds of every memory,
canonical or not. -/
theorem Memory.read_write (m : Memory) (a b : Nat) (v : Byte) :
    (m.write a v).read b = if b = a then v else m.read b := by
  unfold Memory.write
  split
  · rename_i h; rw [Memory.read_drop, h]
  · rw [Memory.read_insert _ _ _ _ (m.drop_ne a), Memory.read_drop]
    by_cases hb : b = a <;> simp [hb]

/-! ### The canonical form -/

theorem Memory.wf_nil : Memory.wf [] := ⟨List.Pairwise.nil, by simp⟩

theorem Memory.wf_drop (m : Memory) (a : Nat) (h : m.wf) : (m.drop a).wf :=
  ⟨h.1.filter _, fun c hc => h.2 c (List.mem_of_mem_filter hc)⟩

theorem Memory.mem_insert (m : Memory) (a : Nat) (v : Byte) (c : Host.Cell) :
    c ∈ m.insert a v ↔ c = (a, v) ∨ c ∈ m := by
  induction m with
  | nil => simp [Memory.insert]
  | cons x m ih =>
    obtain ⟨k, y⟩ := x
    simp only [Memory.insert]
    split
    · simp
    · simp only [List.mem_cons, ih]; tauto

theorem Memory.pairwise_insert (m : Memory) (a : Nat) (v : Byte) (h : m.Pairwise (fun x y => x.1 < y.1))
    (hne : ∀ c ∈ m, c.1 ≠ a) : (m.insert a v).Pairwise (fun x y => x.1 < y.1) := by
  induction m with
  | nil => simp [Memory.insert]
  | cons x m ih =>
    obtain ⟨k, y⟩ := x
    have hk : k ≠ a := hne (k, y) (by simp)
    rw [List.pairwise_cons] at h
    simp only [Memory.insert]
    split
    · rename_i hlt
      rw [List.pairwise_cons]
      refine ⟨fun c hc => ?_, by rw [List.pairwise_cons]; exact h⟩
      rcases List.mem_cons.1 hc with rfl | hc
      · exact hlt
      · exact Nat.lt_trans hlt (h.1 c hc)
    · rename_i hge
      rw [List.pairwise_cons]
      refine ⟨fun c hc => ?_, ih h.2 (fun c hc => hne c (by simp [hc]))⟩
      rcases (Memory.mem_insert m a v c).1 hc with rfl | hc
      · show k < a; omega
      · exact h.1 c hc

/-- A byte write within the address space keeps the canonical form. -/
theorem Memory.wf_write (m : Memory) (a : Nat) (v : Byte) (h : m.wf) (ha : a < 2 ^ 32) : (m.write a v).wf := by
  unfold Memory.write
  split
  · exact m.wf_drop a h
  · rename_i hv
    have hd := m.wf_drop a h
    refine ⟨Memory.pairwise_insert _ _ _ hd.1 (m.drop_ne a), fun c hc => ?_⟩
    rcases (Memory.mem_insert _ _ _ _).1 hc with rfl | hc
    · exact ⟨hv, ha⟩
    · exact hd.2 c hc

/-- Equal memories are equal data: canonical memories that read alike at every address are the same list. -/
theorem Memory.ext_of_wf (m n : Memory) (hm : m.wf) (hn : n.wf) (h : ∀ a, m.read a = n.read a) : m = n := by
  induction m generalizing n with
  | nil =>
    cases n with
    | nil => rfl
    | cons c n =>
      have := h c.1
      rw [Memory.read_cons, if_pos rfl] at this
      exact absurd this.symm (hn.2 c (by simp)).1
  | cons c m ih =>
    have hmc := List.pairwise_cons.1 hm.1
    have hmc2 := hm.2 c (by simp)
    cases n with
    | nil =>
      have := h c.1
      rw [Memory.read_cons, if_pos rfl] at this
      exact absurd this hmc2.1
    | cons d n =>
      have hnd := List.pairwise_cons.1 hn.1
      have hnd2 := hn.2 d (by simp)
      have ndm : c.1 ≤ d.1 := by
        by_contra hlt
        have := h d.1
        rw [Memory.read_of_forall_ne (c :: m) d.1, Memory.read_cons, if_pos rfl] at this
        · exact hnd2.1 this.symm
        · intro x hx
          rcases List.mem_cons.1 hx with rfl | hx
          · omega
          · have := hmc.1 x hx; omega
      have mnd : d.1 ≤ c.1 := by
        by_contra hlt
        have := h c.1
        rw [Memory.read_of_forall_ne (d :: n) c.1, Memory.read_cons, if_pos rfl] at this
        · exact hmc2.1 this
        · intro x hx
          rcases List.mem_cons.1 hx with rfl | hx
          · omega
          · have := hnd.1 x hx; omega
      have hk : c.1 = d.1 := by omega
      have hv : c.2 = d.2 := by
        have := h c.1
        rwa [Memory.read_cons, Memory.read_cons, if_pos rfl, if_pos hk.symm] at this
      rw [Prod.ext hk hv]
      congr 1
      refine ih n ⟨hmc.2, fun x hx => hm.2 x (by simp [hx])⟩ ⟨hnd.2, fun x hx => hn.2 x (by simp [hx])⟩ (fun a => ?_)
      by_cases ha : c.1 = a
      · rw [Memory.read_of_forall_ne m a, Memory.read_of_forall_ne n a]
        · intro x hx; have := hnd.1 x hx; omega
        · intro x hx; have := hmc.1 x hx; omega
      · have := h a
        rwa [Memory.read_cons, Memory.read_cons, if_neg ha, if_neg (by omega)] at this

/-! ### Little-endian accesses -/

/-- Byte `b` after a MemWrite of n bytes: the written value's byte inside [a, a + n), the old byte outside. -/
theorem Memory.read_writeLE (m : Memory) (a n v b : Nat) :
    (m.writeLE a n v).read b =
      if a ≤ b ∧ b < a + n then BitVec.ofNat 8 (v / 2 ^ (8 * (b - a))) else m.read b := by
  induction n generalizing m a v with
  | zero => simp [Memory.writeLE]
  | succ n ih =>
    rw [Memory.writeLE, ih, Memory.read_write]
    by_cases hb : b = a
    · subst hb; simp
    · by_cases h1 : a + 1 ≤ b ∧ b < a + 1 + n
      · rw [if_pos h1, if_pos (by omega), Nat.div_div_eq_div_mul, ← Nat.pow_add]
        congr 3; omega
      · rw [if_neg h1, if_neg hb, if_neg (by omega)]

/-- MemWrite leaves every byte outside its range alone. -/
theorem Memory.read_writeLE_outside (m : Memory) (a n v b : Nat) (h : b < a ∨ a + n ≤ b) :
    (m.writeLE a n v).read b = m.read b := by
  rw [Memory.read_writeLE, if_neg (by omega)]

/-- MemRead depends on the bytes of its range alone. -/
theorem Memory.readLE_congr (m m' : Memory) (a n : Nat) (h : ∀ b, a ≤ b → b < a + n → m.read b = m'.read b) :
    m.readLE a n = m'.readLE a n := by
  induction n generalizing a with
  | zero => rfl
  | succ n ih =>
    rw [Memory.readLE, Memory.readLE, h a (by omega) (by omega), ih (a + 1) (fun b h1 h2 => h b (by omega) (by omega))]

theorem Memory.readLE_lt (m : Memory) (a n : Nat) : m.readLE a n < 2 ^ (8 * n) := by
  induction n generalizing a with
  | zero => simp [Memory.readLE]
  | succ n ih =>
    have h1 := ih (a + 1)
    have h2 := (m.read a).isLt
    rw [Memory.readLE, Nat.mul_add, Nat.pow_add]
    have : 2 ^ (8 * n) * 2 ^ (8 * 1) = 2 ^ 8 * 2 ^ (8 * n) := by rw [Nat.mul_comm]
    rw [this]
    generalize 2 ^ (8 * n) = p at *
    omega

/-- MemRead after MemWrite at the same place gives the value back, cut to n bytes. -/
theorem Memory.readLE_writeLE (m : Memory) (a n v : Nat) : (m.writeLE a n v).readLE a n = v % 2 ^ (8 * n) := by
  induction n generalizing m a v with
  | zero => simp [Memory.readLE, Nat.mod_one]
  | succ n ih =>
    rw [Memory.writeLE, Memory.readLE, ih, Memory.read_writeLE_outside _ _ _ _ _ (by omega), Memory.read_write, if_pos rfl,
      BitVec.toNat_ofNat, Nat.mul_add, Nat.pow_add, Nat.mul_comm (2 ^ (8 * n)), Nat.mod_mul]

/-- MemRead is not changed by a MemWrite to another range. -/
theorem Memory.readLE_writeLE_disjoint (m : Memory) (a n v b k : Nat) (h : b + k ≤ a ∨ a + n ≤ b) :
    (m.writeLE a n v).readLE b k = m.readLE b k :=
  Memory.readLE_congr _ _ _ _ (fun x h1 h2 => Memory.read_writeLE_outside _ _ _ _ _ (by omega))

/-- A MemWrite within the address space keeps the canonical form. -/
theorem Memory.wf_writeLE (m : Memory) (a n v : Nat) (h : m.wf) (ha : a + n ≤ 2 ^ 32) : (m.writeLE a n v).wf := by
  induction n generalizing m a v with
  | zero => exact h
  | succ n ih => exact ih _ _ _ (m.wf_write a _ h (by omega)) (by omega)

/-! ### Reachable ranges -/

/-- The covering check says what it should of every list of spans. -/
theorem covered_iff (sp : List Span) (lo hi : Nat) :
    covered sp lo hi = true ↔ ∀ a, lo ≤ a → a < hi → inSpans sp a = true := by
  induction sp generalizing lo hi with
  | nil =>
    simp only [covered, inSpans, List.any_nil, decide_eq_true_eq]
    constructor
    · intro h a h1 h2; omega
    · intro h
      by_contra hlt
      exact absurd (h lo (by omega) (by omega)) (by simp)
  | cons p rest ih =>
    simp only [covered, inSpans, List.any_cons, Bool.or_eq_true, Bool.and_eq_true, decide_eq_true_eq, ih]
    constructor
    · intro h a h1 h2
      rcases h with h | ⟨hl, hr⟩
      · omega
      · by_cases ha : p.base ≤ a ∧ a < p.base + p.len
        · exact Or.inl ha
        · by_cases hb : a < p.base
          · exact Or.inr (hl a h1 (by omega))
          · exact Or.inr (hr a (by omega) h2)
    · intro h
      refine Or.inr ⟨fun a h1 h2 => ?_, fun a h1 h2 => ?_⟩
      · rcases h a h1 (by omega) with h' | h'
        · omega
        · exact h'
      · rcases h a (by omega) h2 with h' | h'
        · omega
        · exact h'

/-- The range check is that of 20_memory.md R67: an empty range is valid; another is when it ends at or below 2^32 and mem_valid holds
for all its bytes. -/
theorem rangeValid_iff (c : Config) (start len : Nat) :
    rangeValid c start len = true ↔
      len = 0 ∨ (start + len ≤ 2 ^ 32 ∧ ∀ a, start ≤ a → a < start + len → memValid c a = true) := by
  simp only [rangeValid, memValid, Bool.or_eq_true, Bool.and_eq_true, beq_iff_eq, decide_eq_true_eq, covered_iff]

end Sys2Proof.Machine
end

