-- ==== Sys2Proof/Laws/State.lean ====
section
/-! SUPPORT. The small lemmas of State: what each update leaves in each field, and reading a register after a write. With them no
later proof unfolds a record update. -/

namespace Sys2Proof.Machine

/-! `State.setMem` -/

@[simp] theorem setMem_regs (s : State) (m : Memory) : (s.setMem m).regs = s.regs := rfl
@[simp] theorem setMem_pc (s : State) (m : Memory) : (s.setMem m).pc = s.pc := rfl
@[simp] theorem setMem_vl (s : State) (m : Memory) : (s.setMem m).vl = s.vl := rfl
@[simp] theorem setMem_run (s : State) (m : Memory) : (s.setMem m).run = s.run := rfl
@[simp] theorem setMem_allowSat (s : State) (m : Memory) : (s.setMem m).allowSat = s.allowSat := rfl
@[simp] theorem setMem_irqEn (s : State) (m : Memory) : (s.setMem m).irqEn = s.irqEn := rfl
@[simp] theorem setMem_doneBit (s : State) (m : Memory) : (s.setMem m).doneBit = s.doneBit := rfl
@[simp] theorem setMem_faultBit (s : State) (m : Memory) : (s.setMem m).faultBit = s.faultBit := rfl
@[simp] theorem setMem_cause (s : State) (m : Memory) : (s.setMem m).cause = s.cause := rfl
@[simp] theorem setMem_epc (s : State) (m : Memory) : (s.setMem m).epc = s.epc := rfl
@[simp] theorem setMem_finfo (s : State) (m : Memory) : (s.setMem m).finfo = s.finfo := rfl
@[simp] theorem setMem_abortReq (s : State) (m : Memory) : (s.setMem m).abortReq = s.abortReq := rfl
@[simp] theorem setMem_mem (s : State) (m : Memory) : (s.setMem m).mem = m := rfl
@[simp] theorem setMem_cfg (s : State) (m : Memory) : (s.setMem m).cfg = s.cfg := rfl
@[simp] theorem setMem_hostQueue (s : State) (m : Memory) : (s.setMem m).hostQueue = s.hostQueue := rfl
@[simp] theorem setMem_hostData (s : State) (m : Memory) : (s.setMem m).hostData = s.hostData := rfl
@[simp] theorem setMem_race (s : State) (m : Memory) : (s.setMem m).race = s.race := rfl
@[simp] theorem setMem_freeCount (s : State) (m : Memory) : (s.setMem m).freeCount = s.freeCount := rfl

/-! `State.advance` -/

@[simp] theorem advance_regs (s : State) : s.advance.regs = s.regs := rfl
@[simp] theorem advance_pc (s : State) : s.advance.pc = s.pc + 4#32 := rfl
@[simp] theorem advance_vl (s : State) : s.advance.vl = s.vl := rfl
@[simp] theorem advance_run (s : State) : s.advance.run = s.run := rfl
@[simp] theorem advance_allowSat (s : State) : s.advance.allowSat = s.allowSat := rfl
@[simp] theorem advance_irqEn (s : State) : s.advance.irqEn = s.irqEn := rfl
@[simp] theorem advance_doneBit (s : State) : s.advance.doneBit = s.doneBit := rfl
@[simp] theorem advance_faultBit (s : State) : s.advance.faultBit = s.faultBit := rfl
@[simp] theorem advance_cause (s : State) : s.advance.cause = s.cause := rfl
@[simp] theorem advance_epc (s : State) : s.advance.epc = s.epc := rfl
@[simp] theorem advance_finfo (s : State) : s.advance.finfo = s.finfo := rfl
@[simp] theorem advance_abortReq (s : State) : s.advance.abortReq = s.abortReq := rfl
@[simp] theorem advance_mem (s : State) : s.advance.mem = s.mem := rfl
@[simp] theorem advance_cfg (s : State) : s.advance.cfg = s.cfg := rfl
@[simp] theorem advance_hostQueue (s : State) : s.advance.hostQueue = s.hostQueue := rfl
@[simp] theorem advance_hostData (s : State) : s.advance.hostData = s.hostData := rfl
@[simp] theorem advance_race (s : State) : s.advance.race = s.race := rfl
@[simp] theorem advance_freeCount (s : State) : s.advance.freeCount = s.freeCount := rfl

/-! `State.branch` -/

@[simp] theorem branch_regs (s : State) (imm16 : BitVec 16) : (s.branch imm16).regs = s.regs := rfl
@[simp] theorem branch_pc (s : State) (imm16 : BitVec 16) : (s.branch imm16).pc = s.pc + wrap32 (4 * imm16.toInt) := rfl
@[simp] theorem branch_vl (s : State) (imm16 : BitVec 16) : (s.branch imm16).vl = s.vl := rfl
@[simp] theorem branch_run (s : State) (imm16 : BitVec 16) : (s.branch imm16).run = s.run := rfl
@[simp] theorem branch_allowSat (s : State) (imm16 : BitVec 16) : (s.branch imm16).allowSat = s.allowSat := rfl
@[simp] theorem branch_irqEn (s : State) (imm16 : BitVec 16) : (s.branch imm16).irqEn = s.irqEn := rfl
@[simp] theorem branch_doneBit (s : State) (imm16 : BitVec 16) : (s.branch imm16).doneBit = s.doneBit := rfl
@[simp] theorem branch_faultBit (s : State) (imm16 : BitVec 16) : (s.branch imm16).faultBit = s.faultBit := rfl
@[simp] theorem branch_cause (s : State) (imm16 : BitVec 16) : (s.branch imm16).cause = s.cause := rfl
@[simp] theorem branch_epc (s : State) (imm16 : BitVec 16) : (s.branch imm16).epc = s.epc := rfl
@[simp] theorem branch_finfo (s : State) (imm16 : BitVec 16) : (s.branch imm16).finfo = s.finfo := rfl
@[simp] theorem branch_abortReq (s : State) (imm16 : BitVec 16) : (s.branch imm16).abortReq = s.abortReq := rfl
@[simp] theorem branch_mem (s : State) (imm16 : BitVec 16) : (s.branch imm16).mem = s.mem := rfl
@[simp] theorem branch_cfg (s : State) (imm16 : BitVec 16) : (s.branch imm16).cfg = s.cfg := rfl
@[simp] theorem branch_hostQueue (s : State) (imm16 : BitVec 16) : (s.branch imm16).hostQueue = s.hostQueue := rfl
@[simp] theorem branch_hostData (s : State) (imm16 : BitVec 16) : (s.branch imm16).hostData = s.hostData := rfl
@[simp] theorem branch_race (s : State) (imm16 : BitVec 16) : (s.branch imm16).race = s.race := rfl
@[simp] theorem branch_freeCount (s : State) (imm16 : BitVec 16) : (s.branch imm16).freeCount = s.freeCount := rfl

/-! `State.raise` -/

@[simp] theorem raise_regs (s : State) (t : Trap) : (s.raise t).regs = s.regs := rfl
@[simp] theorem raise_pc (s : State) (t : Trap) : (s.raise t).pc = s.pc := rfl
@[simp] theorem raise_vl (s : State) (t : Trap) : (s.raise t).vl = s.vl := rfl
@[simp] theorem raise_run (s : State) (t : Trap) : (s.raise t).run = .idle := rfl
@[simp] theorem raise_allowSat (s : State) (t : Trap) : (s.raise t).allowSat = s.allowSat := rfl
@[simp] theorem raise_irqEn (s : State) (t : Trap) : (s.raise t).irqEn = s.irqEn := rfl
@[simp] theorem raise_doneBit (s : State) (t : Trap) : (s.raise t).doneBit = s.doneBit := rfl
@[simp] theorem raise_faultBit (s : State) (t : Trap) : (s.raise t).faultBit = true := rfl
@[simp] theorem raise_cause (s : State) (t : Trap) : (s.raise t).cause = t.cause := rfl
@[simp] theorem raise_epc (s : State) (t : Trap) : (s.raise t).epc = s.pc := rfl
@[simp] theorem raise_finfo (s : State) (t : Trap) : (s.raise t).finfo = t.info := rfl
@[simp] theorem raise_abortReq (s : State) (t : Trap) : (s.raise t).abortReq = false := rfl
@[simp] theorem raise_mem (s : State) (t : Trap) : (s.raise t).mem = s.mem := rfl
@[simp] theorem raise_cfg (s : State) (t : Trap) : (s.raise t).cfg = s.cfg := rfl
@[simp] theorem raise_hostQueue (s : State) (t : Trap) : (s.raise t).hostQueue = s.hostQueue := rfl
@[simp] theorem raise_hostData (s : State) (t : Trap) : (s.raise t).hostData = s.hostData := rfl
@[simp] theorem raise_race (s : State) (t : Trap) : (s.raise t).race = s.race := rfl
@[simp] theorem raise_freeCount (s : State) (t : Trap) : (s.raise t).freeCount = s.freeCount := rfl

/-! `State.abort` -/

@[simp] theorem abort_regs (s : State) : s.abort.regs = s.regs := rfl
@[simp] theorem abort_pc (s : State) : s.abort.pc = s.pc := rfl
@[simp] theorem abort_vl (s : State) : s.abort.vl = s.vl := rfl
@[simp] theorem abort_run (s : State) : s.abort.run = .idle := rfl
@[simp] theorem abort_allowSat (s : State) : s.abort.allowSat = s.allowSat := rfl
@[simp] theorem abort_irqEn (s : State) : s.abort.irqEn = s.irqEn := rfl
@[simp] theorem abort_doneBit (s : State) : s.abort.doneBit = s.doneBit := rfl
@[simp] theorem abort_faultBit (s : State) : s.abort.faultBit = true := rfl
@[simp] theorem abort_cause (s : State) : s.abort.cause = .aborted := rfl
@[simp] theorem abort_epc (s : State) : s.abort.epc = s.pc := rfl
@[simp] theorem abort_finfo (s : State) : s.abort.finfo = 0#32 := rfl
@[simp] theorem abort_abortReq (s : State) : s.abort.abortReq = false := rfl
@[simp] theorem abort_mem (s : State) : s.abort.mem = s.mem := rfl
@[simp] theorem abort_cfg (s : State) : s.abort.cfg = s.cfg := rfl
@[simp] theorem abort_hostQueue (s : State) : s.abort.hostQueue = s.hostQueue := rfl
@[simp] theorem abort_hostData (s : State) : s.abort.hostData = s.hostData := rfl
@[simp] theorem abort_race (s : State) : s.abort.race = s.race := rfl
@[simp] theorem abort_freeCount (s : State) : s.abort.freeCount = s.freeCount := rfl

/-! `State.halt` -/

@[simp] theorem halt_regs (s : State) : s.halt.regs = s.regs := rfl
@[simp] theorem halt_pc (s : State) : s.halt.pc = s.pc + 4#32 := rfl
@[simp] theorem halt_vl (s : State) : s.halt.vl = s.vl := rfl
@[simp] theorem halt_run (s : State) : s.halt.run = .idle := rfl
@[simp] theorem halt_allowSat (s : State) : s.halt.allowSat = s.allowSat := rfl
@[simp] theorem halt_irqEn (s : State) : s.halt.irqEn = s.irqEn := rfl
@[simp] theorem halt_doneBit (s : State) : s.halt.doneBit = true := rfl
@[simp] theorem halt_faultBit (s : State) : s.halt.faultBit = s.faultBit := rfl
@[simp] theorem halt_cause (s : State) : s.halt.cause = s.cause := rfl
@[simp] theorem halt_epc (s : State) : s.halt.epc = s.epc := rfl
@[simp] theorem halt_finfo (s : State) : s.halt.finfo = s.finfo := rfl
@[simp] theorem halt_abortReq (s : State) : s.halt.abortReq = false := rfl
@[simp] theorem halt_mem (s : State) : s.halt.mem = s.mem := rfl
@[simp] theorem halt_cfg (s : State) : s.halt.cfg = s.cfg := rfl
@[simp] theorem halt_hostQueue (s : State) : s.halt.hostQueue = s.hostQueue := rfl
@[simp] theorem halt_hostData (s : State) : s.halt.hostData = s.hostData := rfl
@[simp] theorem halt_race (s : State) : s.halt.race = s.race := rfl
@[simp] theorem halt_freeCount (s : State) : s.halt.freeCount = s.freeCount := rfl

/-! `State.start` -/

@[simp] theorem start_regs (s : State) : s.start.regs = s.regs := rfl
@[simp] theorem start_pc (s : State) : s.start.pc = s.pc := rfl
@[simp] theorem start_vl (s : State) : s.start.vl = s.vl := rfl
@[simp] theorem start_run (s : State) : s.start.run = .run := rfl
@[simp] theorem start_allowSat (s : State) : s.start.allowSat = s.allowSat := rfl
@[simp] theorem start_irqEn (s : State) : s.start.irqEn = s.irqEn := rfl
@[simp] theorem start_doneBit (s : State) : s.start.doneBit = false := rfl
@[simp] theorem start_faultBit (s : State) : s.start.faultBit = false := rfl
@[simp] theorem start_cause (s : State) : s.start.cause = .none := rfl
@[simp] theorem start_epc (s : State) : s.start.epc = s.epc := rfl
@[simp] theorem start_finfo (s : State) : s.start.finfo = s.finfo := rfl
@[simp] theorem start_abortReq (s : State) : s.start.abortReq = false := rfl
@[simp] theorem start_mem (s : State) : s.start.mem = s.mem := rfl
@[simp] theorem start_cfg (s : State) : s.start.cfg = s.cfg := rfl
@[simp] theorem start_hostQueue (s : State) : s.start.hostQueue = s.hostQueue := rfl
@[simp] theorem start_hostData (s : State) : s.start.hostData = s.hostData := rfl
@[simp] theorem start_race (s : State) : s.start.race = s.race := rfl
@[simp] theorem start_freeCount (s : State) : s.start.freeCount = s.freeCount := rfl

/-! `State.oneByteAt` -/

@[simp] theorem oneByteAt_regs (s : State) (a : Nat) (b : Byte) (bs : List Byte) : (s.oneByteAt a b bs).regs = s.regs := rfl
@[simp] theorem oneByteAt_pc (s : State) (a : Nat) (b : Byte) (bs : List Byte) : (s.oneByteAt a b bs).pc = s.pc := rfl
@[simp] theorem oneByteAt_vl (s : State) (a : Nat) (b : Byte) (bs : List Byte) : (s.oneByteAt a b bs).vl = s.vl := rfl
@[simp] theorem oneByteAt_run (s : State) (a : Nat) (b : Byte) (bs : List Byte) : (s.oneByteAt a b bs).run = s.run := rfl
@[simp] theorem oneByteAt_allowSat (s : State) (a : Nat) (b : Byte) (bs : List Byte) : (s.oneByteAt a b bs).allowSat = s.allowSat := rfl
@[simp] theorem oneByteAt_irqEn (s : State) (a : Nat) (b : Byte) (bs : List Byte) : (s.oneByteAt a b bs).irqEn = s.irqEn := rfl
@[simp] theorem oneByteAt_doneBit (s : State) (a : Nat) (b : Byte) (bs : List Byte) : (s.oneByteAt a b bs).doneBit = s.doneBit := rfl
@[simp] theorem oneByteAt_faultBit (s : State) (a : Nat) (b : Byte) (bs : List Byte) : (s.oneByteAt a b bs).faultBit = s.faultBit := rfl
@[simp] theorem oneByteAt_cause (s : State) (a : Nat) (b : Byte) (bs : List Byte) : (s.oneByteAt a b bs).cause = s.cause := rfl
@[simp] theorem oneByteAt_epc (s : State) (a : Nat) (b : Byte) (bs : List Byte) : (s.oneByteAt a b bs).epc = s.epc := rfl
@[simp] theorem oneByteAt_finfo (s : State) (a : Nat) (b : Byte) (bs : List Byte) : (s.oneByteAt a b bs).finfo = s.finfo := rfl
@[simp] theorem oneByteAt_abortReq (s : State) (a : Nat) (b : Byte) (bs : List Byte) : (s.oneByteAt a b bs).abortReq = s.abortReq := rfl
@[simp] theorem oneByteAt_mem (s : State) (a : Nat) (b : Byte) (bs : List Byte) : (s.oneByteAt a b bs).mem = s.mem.write a (pick s.freeCount b bs) := rfl
@[simp] theorem oneByteAt_cfg (s : State) (a : Nat) (b : Byte) (bs : List Byte) : (s.oneByteAt a b bs).cfg = s.cfg := rfl
@[simp] theorem oneByteAt_hostQueue (s : State) (a : Nat) (b : Byte) (bs : List Byte) : (s.oneByteAt a b bs).hostQueue = s.hostQueue := rfl
@[simp] theorem oneByteAt_hostData (s : State) (a : Nat) (b : Byte) (bs : List Byte) : (s.oneByteAt a b bs).hostData = s.hostData := rfl
@[simp] theorem oneByteAt_race (s : State) (a : Nat) (b : Byte) (bs : List Byte) : (s.oneByteAt a b bs).race = s.race := rfl
@[simp] theorem oneByteAt_freeCount (s : State) (a : Nat) (b : Byte) (bs : List Byte) : (s.oneByteAt a b bs).freeCount = s.freeCount + 1 := rfl

/-! `State.foretell` -/

@[simp] theorem foretell_regs (s : State) (a : Word) : (s.foretell a).regs = s.regs := rfl
@[simp] theorem foretell_pc (s : State) (a : Word) : (s.foretell a).pc = s.pc := rfl
@[simp] theorem foretell_vl (s : State) (a : Word) : (s.foretell a).vl = s.vl := rfl
@[simp] theorem foretell_run (s : State) (a : Word) : (s.foretell a).run = s.run := rfl
@[simp] theorem foretell_allowSat (s : State) (a : Word) : (s.foretell a).allowSat = s.allowSat := rfl
@[simp] theorem foretell_irqEn (s : State) (a : Word) : (s.foretell a).irqEn = s.irqEn := rfl
@[simp] theorem foretell_doneBit (s : State) (a : Word) : (s.foretell a).doneBit = s.doneBit := rfl
@[simp] theorem foretell_faultBit (s : State) (a : Word) : (s.foretell a).faultBit = s.faultBit := rfl
@[simp] theorem foretell_cause (s : State) (a : Word) : (s.foretell a).cause = s.cause := rfl
@[simp] theorem foretell_epc (s : State) (a : Word) : (s.foretell a).epc = s.epc := rfl
@[simp] theorem foretell_finfo (s : State) (a : Word) : (s.foretell a).finfo = s.finfo := rfl
@[simp] theorem foretell_abortReq (s : State) (a : Word) : (s.foretell a).abortReq = s.abortReq := rfl
@[simp] theorem foretell_mem (s : State) (a : Word) : (s.foretell a).mem = s.mem := rfl
@[simp] theorem foretell_cfg (s : State) (a : Word) : (s.foretell a).cfg = s.cfg := rfl
@[simp] theorem foretell_hostQueue (s : State) (a : Word) : (s.foretell a).hostQueue = s.hostQueue := rfl
@[simp] theorem foretell_hostData (s : State) (a : Word) : (s.foretell a).hostData = s.hostData := rfl
@[simp] theorem foretell_race (s : State) (a : Word) : (s.foretell a).race = { s.race with named := u32 a :: s.race.named } := rfl
@[simp] theorem foretell_freeCount (s : State) (a : Word) : (s.foretell a).freeCount = s.freeCount := rfl

/-! `State.opened` -/

@[simp] theorem opened_regs (s : State) (l : List Nat) : (s.opened l).regs = s.regs := rfl
@[simp] theorem opened_pc (s : State) (l : List Nat) : (s.opened l).pc = s.pc := rfl
@[simp] theorem opened_vl (s : State) (l : List Nat) : (s.opened l).vl = s.vl := rfl
@[simp] theorem opened_run (s : State) (l : List Nat) : (s.opened l).run = s.run := rfl
@[simp] theorem opened_allowSat (s : State) (l : List Nat) : (s.opened l).allowSat = s.allowSat := rfl
@[simp] theorem opened_irqEn (s : State) (l : List Nat) : (s.opened l).irqEn = s.irqEn := rfl
@[simp] theorem opened_doneBit (s : State) (l : List Nat) : (s.opened l).doneBit = s.doneBit := rfl
@[simp] theorem opened_faultBit (s : State) (l : List Nat) : (s.opened l).faultBit = s.faultBit := rfl
@[simp] theorem opened_cause (s : State) (l : List Nat) : (s.opened l).cause = s.cause := rfl
@[simp] theorem opened_epc (s : State) (l : List Nat) : (s.opened l).epc = s.epc := rfl
@[simp] theorem opened_finfo (s : State) (l : List Nat) : (s.opened l).finfo = s.finfo := rfl
@[simp] theorem opened_abortReq (s : State) (l : List Nat) : (s.opened l).abortReq = s.abortReq := rfl
@[simp] theorem opened_mem (s : State) (l : List Nat) : (s.opened l).mem = s.mem := rfl
@[simp] theorem opened_cfg (s : State) (l : List Nat) : (s.opened l).cfg = s.cfg := rfl
@[simp] theorem opened_hostQueue (s : State) (l : List Nat) : (s.opened l).hostQueue = s.hostQueue := rfl
@[simp] theorem opened_hostData (s : State) (l : List Nat) : (s.opened l).hostData = s.hostData := rfl
@[simp] theorem opened_race (s : State) (l : List Nat) : (s.opened l).race = { s.race with foretold := l, foreseen := true } := rfl
@[simp] theorem opened_freeCount (s : State) (l : List Nat) : (s.opened l).freeCount = s.freeCount := rfl

/-! `State.setReg`: the register file is all it changes. -/

@[simp] theorem setReg_pc (s : State) (n : Reg) (v : Word) : (s.setReg n v).pc = s.pc := by
  unfold State.setReg; split <;> rfl
@[simp] theorem setReg_vl (s : State) (n : Reg) (v : Word) : (s.setReg n v).vl = s.vl := by
  unfold State.setReg; split <;> rfl
@[simp] theorem setReg_run (s : State) (n : Reg) (v : Word) : (s.setReg n v).run = s.run := by
  unfold State.setReg; split <;> rfl
@[simp] theorem setReg_allowSat (s : State) (n : Reg) (v : Word) : (s.setReg n v).allowSat = s.allowSat := by
  unfold State.setReg; split <;> rfl
@[simp] theorem setReg_irqEn (s : State) (n : Reg) (v : Word) : (s.setReg n v).irqEn = s.irqEn := by
  unfold State.setReg; split <;> rfl
@[simp] theorem setReg_doneBit (s : State) (n : Reg) (v : Word) : (s.setReg n v).doneBit = s.doneBit := by
  unfold State.setReg; split <;> rfl
@[simp] theorem setReg_faultBit (s : State) (n : Reg) (v : Word) : (s.setReg n v).faultBit = s.faultBit := by
  unfold State.setReg; split <;> rfl
@[simp] theorem setReg_cause (s : State) (n : Reg) (v : Word) : (s.setReg n v).cause = s.cause := by
  unfold State.setReg; split <;> rfl
@[simp] theorem setReg_epc (s : State) (n : Reg) (v : Word) : (s.setReg n v).epc = s.epc := by
  unfold State.setReg; split <;> rfl
@[simp] theorem setReg_finfo (s : State) (n : Reg) (v : Word) : (s.setReg n v).finfo = s.finfo := by
  unfold State.setReg; split <;> rfl
@[simp] theorem setReg_abortReq (s : State) (n : Reg) (v : Word) : (s.setReg n v).abortReq = s.abortReq := by
  unfold State.setReg; split <;> rfl
@[simp] theorem setReg_mem (s : State) (n : Reg) (v : Word) : (s.setReg n v).mem = s.mem := by
  unfold State.setReg; split <;> rfl
@[simp] theorem setReg_cfg (s : State) (n : Reg) (v : Word) : (s.setReg n v).cfg = s.cfg := by
  unfold State.setReg; split <;> rfl
@[simp] theorem setReg_hostQueue (s : State) (n : Reg) (v : Word) : (s.setReg n v).hostQueue = s.hostQueue := by
  unfold State.setReg; split <;> rfl
@[simp] theorem setReg_hostData (s : State) (n : Reg) (v : Word) : (s.setReg n v).hostData = s.hostData := by
  unfold State.setReg; split <;> rfl
@[simp] theorem setReg_race (s : State) (n : Reg) (v : Word) : (s.setReg n v).race = s.race := by
  unfold State.setReg; split <;> rfl
@[simp] theorem setReg_freeCount (s : State) (n : Reg) (v : Word) : (s.setReg n v).freeCount = s.freeCount := by
  unfold State.setReg; split <;> rfl

/-! `State.setGroup` -/

@[simp] theorem setGroup_pc (s : State) (d : Reg) (vs : List Word) : (s.setGroup d vs).pc = s.pc := by
  induction vs generalizing s d with
  | nil => rfl
  | cons v rest ih => simp [State.setGroup, ih]
@[simp] theorem setGroup_vl (s : State) (d : Reg) (vs : List Word) : (s.setGroup d vs).vl = s.vl := by
  induction vs generalizing s d with
  | nil => rfl
  | cons v rest ih => simp [State.setGroup, ih]
@[simp] theorem setGroup_run (s : State) (d : Reg) (vs : List Word) : (s.setGroup d vs).run = s.run := by
  induction vs generalizing s d with
  | nil => rfl
  | cons v rest ih => simp [State.setGroup, ih]
@[simp] theorem setGroup_allowSat (s : State) (d : Reg) (vs : List Word) : (s.setGroup d vs).allowSat = s.allowSat := by
  induction vs generalizing s d with
  | nil => rfl
  | cons v rest ih => simp [State.setGroup, ih]
@[simp] theorem setGroup_irqEn (s : State) (d : Reg) (vs : List Word) : (s.setGroup d vs).irqEn = s.irqEn := by
  induction vs generalizing s d with
  | nil => rfl
  | cons v rest ih => simp [State.setGroup, ih]
@[simp] theorem setGroup_doneBit (s : State) (d : Reg) (vs : List Word) : (s.setGroup d vs).doneBit = s.doneBit := by
  induction vs generalizing s d with
  | nil => rfl
  | cons v rest ih => simp [State.setGroup, ih]
@[simp] theorem setGroup_faultBit (s : State) (d : Reg) (vs : List Word) : (s.setGroup d vs).faultBit = s.faultBit := by
  induction vs generalizing s d with
  | nil => rfl
  | cons v rest ih => simp [State.setGroup, ih]
@[simp] theorem setGroup_cause (s : State) (d : Reg) (vs : List Word) : (s.setGroup d vs).cause = s.cause := by
  induction vs generalizing s d with
  | nil => rfl
  | cons v rest ih => simp [State.setGroup, ih]
@[simp] theorem setGroup_epc (s : State) (d : Reg) (vs : List Word) : (s.setGroup d vs).epc = s.epc := by
  induction vs generalizing s d with
  | nil => rfl
  | cons v rest ih => simp [State.setGroup, ih]
@[simp] theorem setGroup_finfo (s : State) (d : Reg) (vs : List Word) : (s.setGroup d vs).finfo = s.finfo := by
  induction vs generalizing s d with
  | nil => rfl
  | cons v rest ih => simp [State.setGroup, ih]
@[simp] theorem setGroup_abortReq (s : State) (d : Reg) (vs : List Word) : (s.setGroup d vs).abortReq = s.abortReq := by
  induction vs generalizing s d with
  | nil => rfl
  | cons v rest ih => simp [State.setGroup, ih]
@[simp] theorem setGroup_mem (s : State) (d : Reg) (vs : List Word) : (s.setGroup d vs).mem = s.mem := by
  induction vs generalizing s d with
  | nil => rfl
  | cons v rest ih => simp [State.setGroup, ih]
@[simp] theorem setGroup_cfg (s : State) (d : Reg) (vs : List Word) : (s.setGroup d vs).cfg = s.cfg := by
  induction vs generalizing s d with
  | nil => rfl
  | cons v rest ih => simp [State.setGroup, ih]
@[simp] theorem setGroup_hostQueue (s : State) (d : Reg) (vs : List Word) : (s.setGroup d vs).hostQueue = s.hostQueue := by
  induction vs generalizing s d with
  | nil => rfl
  | cons v rest ih => simp [State.setGroup, ih]
@[simp] theorem setGroup_hostData (s : State) (d : Reg) (vs : List Word) : (s.setGroup d vs).hostData = s.hostData := by
  induction vs generalizing s d with
  | nil => rfl
  | cons v rest ih => simp [State.setGroup, ih]
@[simp] theorem setGroup_race (s : State) (d : Reg) (vs : List Word) : (s.setGroup d vs).race = s.race := by
  induction vs generalizing s d with
  | nil => rfl
  | cons v rest ih => simp [State.setGroup, ih]
@[simp] theorem setGroup_freeCount (s : State) (d : Reg) (vs : List Word) : (s.setGroup d vs).freeCount = s.freeCount := by
  induction vs generalizing s d with
  | nil => rfl
  | cons v rest ih => simp [State.setGroup, ih]

/-! `State.oneOfWritesAt` and `State.settle`: memory and the count of free values are all they change. -/

@[simp] theorem oneOfWritesAt_regs (s : State) (m : Memory) (log : List Host.Cell) (as : List Nat) :
    (s.oneOfWritesAt m log as).regs = s.regs := by
  induction as generalizing s with
  | nil => rfl
  | cons a rest ih => simp [State.oneOfWritesAt, ih]
@[simp] theorem oneOfWritesAt_pc (s : State) (m : Memory) (log : List Host.Cell) (as : List Nat) :
    (s.oneOfWritesAt m log as).pc = s.pc := by
  induction as generalizing s with
  | nil => rfl
  | cons a rest ih => simp [State.oneOfWritesAt, ih]
@[simp] theorem oneOfWritesAt_vl (s : State) (m : Memory) (log : List Host.Cell) (as : List Nat) :
    (s.oneOfWritesAt m log as).vl = s.vl := by
  induction as generalizing s with
  | nil => rfl
  | cons a rest ih => simp [State.oneOfWritesAt, ih]
@[simp] theorem oneOfWritesAt_run (s : State) (m : Memory) (log : List Host.Cell) (as : List Nat) :
    (s.oneOfWritesAt m log as).run = s.run := by
  induction as generalizing s with
  | nil => rfl
  | cons a rest ih => simp [State.oneOfWritesAt, ih]
@[simp] theorem oneOfWritesAt_allowSat (s : State) (m : Memory) (log : List Host.Cell) (as : List Nat) :
    (s.oneOfWritesAt m log as).allowSat = s.allowSat := by
  induction as generalizing s with
  | nil => rfl
  | cons a rest ih => simp [State.oneOfWritesAt, ih]
@[simp] theorem oneOfWritesAt_irqEn (s : State) (m : Memory) (log : List Host.Cell) (as : List Nat) :
    (s.oneOfWritesAt m log as).irqEn = s.irqEn := by
  induction as generalizing s with
  | nil => rfl
  | cons a rest ih => simp [State.oneOfWritesAt, ih]
@[simp] theorem oneOfWritesAt_doneBit (s : State) (m : Memory) (log : List Host.Cell) (as : List Nat) :
    (s.oneOfWritesAt m log as).doneBit = s.doneBit := by
  induction as generalizing s with
  | nil => rfl
  | cons a rest ih => simp [State.oneOfWritesAt, ih]
@[simp] theorem oneOfWritesAt_faultBit (s : State) (m : Memory) (log : List Host.Cell) (as : List Nat) :
    (s.oneOfWritesAt m log as).faultBit = s.faultBit := by
  induction as generalizing s with
  | nil => rfl
  | cons a rest ih => simp [State.oneOfWritesAt, ih]
@[simp] theorem oneOfWritesAt_cause (s : State) (m : Memory) (log : List Host.Cell) (as : List Nat) :
    (s.oneOfWritesAt m log as).cause = s.cause := by
  induction as generalizing s with
  | nil => rfl
  | cons a rest ih => simp [State.oneOfWritesAt, ih]
@[simp] theorem oneOfWritesAt_epc (s : State) (m : Memory) (log : List Host.Cell) (as : List Nat) :
    (s.oneOfWritesAt m log as).epc = s.epc := by
  induction as generalizing s with
  | nil => rfl
  | cons a rest ih => simp [State.oneOfWritesAt, ih]
@[simp] theorem oneOfWritesAt_finfo (s : State) (m : Memory) (log : List Host.Cell) (as : List Nat) :
    (s.oneOfWritesAt m log as).finfo = s.finfo := by
  induction as generalizing s with
  | nil => rfl
  | cons a rest ih => simp [State.oneOfWritesAt, ih]
@[simp] theorem oneOfWritesAt_abortReq (s : State) (m : Memory) (log : List Host.Cell) (as : List Nat) :
    (s.oneOfWritesAt m log as).abortReq = s.abortReq := by
  induction as generalizing s with
  | nil => rfl
  | cons a rest ih => simp [State.oneOfWritesAt, ih]
@[simp] theorem oneOfWritesAt_cfg (s : State) (m : Memory) (log : List Host.Cell) (as : List Nat) :
    (s.oneOfWritesAt m log as).cfg = s.cfg := by
  induction as generalizing s with
  | nil => rfl
  | cons a rest ih => simp [State.oneOfWritesAt, ih]
@[simp] theorem oneOfWritesAt_hostQueue (s : State) (m : Memory) (log : List Host.Cell) (as : List Nat) :
    (s.oneOfWritesAt m log as).hostQueue = s.hostQueue := by
  induction as generalizing s with
  | nil => rfl
  | cons a rest ih => simp [State.oneOfWritesAt, ih]
@[simp] theorem oneOfWritesAt_hostData (s : State) (m : Memory) (log : List Host.Cell) (as : List Nat) :
    (s.oneOfWritesAt m log as).hostData = s.hostData := by
  induction as generalizing s with
  | nil => rfl
  | cons a rest ih => simp [State.oneOfWritesAt, ih]
@[simp] theorem oneOfWritesAt_race (s : State) (m : Memory) (log : List Host.Cell) (as : List Nat) :
    (s.oneOfWritesAt m log as).race = s.race := by
  induction as generalizing s with
  | nil => rfl
  | cons a rest ih => simp [State.oneOfWritesAt, ih]
@[simp] theorem settle_regs (t : State) (m : Memory) (as : List Nat) : (t.settle m as).regs = t.regs := by
  induction as generalizing t with
  | nil => rfl
  | cons a rest ih => simp [State.settle, ih]
@[simp] theorem settle_pc (t : State) (m : Memory) (as : List Nat) : (t.settle m as).pc = t.pc := by
  induction as generalizing t with
  | nil => rfl
  | cons a rest ih => simp [State.settle, ih]
@[simp] theorem settle_vl (t : State) (m : Memory) (as : List Nat) : (t.settle m as).vl = t.vl := by
  induction as generalizing t with
  | nil => rfl
  | cons a rest ih => simp [State.settle, ih]
@[simp] theorem settle_run (t : State) (m : Memory) (as : List Nat) : (t.settle m as).run = t.run := by
  induction as generalizing t with
  | nil => rfl
  | cons a rest ih => simp [State.settle, ih]
@[simp] theorem settle_allowSat (t : State) (m : Memory) (as : List Nat) : (t.settle m as).allowSat = t.allowSat := by
  induction as generalizing t with
  | nil => rfl
  | cons a rest ih => simp [State.settle, ih]
@[simp] theorem settle_irqEn (t : State) (m : Memory) (as : List Nat) : (t.settle m as).irqEn = t.irqEn := by
  induction as generalizing t with
  | nil => rfl
  | cons a rest ih => simp [State.settle, ih]
@[simp] theorem settle_doneBit (t : State) (m : Memory) (as : List Nat) : (t.settle m as).doneBit = t.doneBit := by
  induction as generalizing t with
  | nil => rfl
  | cons a rest ih => simp [State.settle, ih]
@[simp] theorem settle_faultBit (t : State) (m : Memory) (as : List Nat) : (t.settle m as).faultBit = t.faultBit := by
  induction as generalizing t with
  | nil => rfl
  | cons a rest ih => simp [State.settle, ih]
@[simp] theorem settle_cause (t : State) (m : Memory) (as : List Nat) : (t.settle m as).cause = t.cause := by
  induction as generalizing t with
  | nil => rfl
  | cons a rest ih => simp [State.settle, ih]
@[simp] theorem settle_epc (t : State) (m : Memory) (as : List Nat) : (t.settle m as).epc = t.epc := by
  induction as generalizing t with
  | nil => rfl
  | cons a rest ih => simp [State.settle, ih]
@[simp] theorem settle_finfo (t : State) (m : Memory) (as : List Nat) : (t.settle m as).finfo = t.finfo := by
  induction as generalizing t with
  | nil => rfl
  | cons a rest ih => simp [State.settle, ih]
@[simp] theorem settle_abortReq (t : State) (m : Memory) (as : List Nat) : (t.settle m as).abortReq = t.abortReq := by
  induction as generalizing t with
  | nil => rfl
  | cons a rest ih => simp [State.settle, ih]
@[simp] theorem settle_cfg (t : State) (m : Memory) (as : List Nat) : (t.settle m as).cfg = t.cfg := by
  induction as generalizing t with
  | nil => rfl
  | cons a rest ih => simp [State.settle, ih]
@[simp] theorem settle_hostQueue (t : State) (m : Memory) (as : List Nat) : (t.settle m as).hostQueue = t.hostQueue := by
  induction as generalizing t with
  | nil => rfl
  | cons a rest ih => simp [State.settle, ih]
@[simp] theorem settle_hostData (t : State) (m : Memory) (as : List Nat) : (t.settle m as).hostData = t.hostData := by
  induction as generalizing t with
  | nil => rfl
  | cons a rest ih => simp [State.settle, ih]
@[simp] theorem settle_race (t : State) (m : Memory) (as : List Nat) : (t.settle m as).race = t.race := by
  induction as generalizing t with
  | nil => rfl
  | cons a rest ih => simp [State.settle, ih]

/-! `State.after`: memory, the record of the run's accesses and the count of free values are all it changes. -/

@[simp] theorem after_regs (s t : State) : (s.after t).regs = t.regs := by simp [State.after]
@[simp] theorem after_pc (s t : State) : (s.after t).pc = t.pc := by simp [State.after]
@[simp] theorem after_vl (s t : State) : (s.after t).vl = t.vl := by simp [State.after]
@[simp] theorem after_run (s t : State) : (s.after t).run = t.run := by simp [State.after]
@[simp] theorem after_allowSat (s t : State) : (s.after t).allowSat = t.allowSat := by simp [State.after]
@[simp] theorem after_irqEn (s t : State) : (s.after t).irqEn = t.irqEn := by simp [State.after]
@[simp] theorem after_doneBit (s t : State) : (s.after t).doneBit = t.doneBit := by simp [State.after]
@[simp] theorem after_faultBit (s t : State) : (s.after t).faultBit = t.faultBit := by simp [State.after]
@[simp] theorem after_cause (s t : State) : (s.after t).cause = t.cause := by simp [State.after]
@[simp] theorem after_epc (s t : State) : (s.after t).epc = t.epc := by simp [State.after]
@[simp] theorem after_finfo (s t : State) : (s.after t).finfo = t.finfo := by simp [State.after]
@[simp] theorem after_abortReq (s t : State) : (s.after t).abortReq = t.abortReq := by simp [State.after]
@[simp] theorem after_cfg (s t : State) : (s.after t).cfg = t.cfg := by simp [State.after]
@[simp] theorem after_hostQueue (s t : State) : (s.after t).hostQueue = t.hostQueue := by simp [State.after]
@[simp] theorem after_hostData (s t : State) : (s.after t).hostData = t.hostData := by simp [State.after]

/-! `State.foresee`: the bytes foretold are all it changes. -/

/-- All that foreseeing can do: some bytes are foretold, if it was not done before in the run. -/
theorem foresee_eq (s : State) (act : HostAct) : s.foresee act = s ∨ ∃ l, s.foresee act = s.opened l := by
  unfold State.foresee
  split
  · exact Or.inr ⟨_, rfl⟩
  · exact Or.inl rfl

/-- While IDLE there is nothing to foresee. -/
@[simp] theorem foresee_idle (s : State) (act : HostAct) (h : s.run = .idle) : s.foresee act = s := by simp [State.foresee, h]

/-- Once in a run is enough. -/
@[simp] theorem foresee_foreseen (s : State) (act : HostAct) (h : s.race.foreseen = true) : s.foresee act = s := by
  simp [State.foresee, h]

/-- Where the host accesses no memory in the run, nothing is foretold. -/
theorem foresee_of_no_access (s : State) (act : HostAct) (h : s.run = .run) (hf : s.race.foreseen = false)
    (ha : hostAccesses (act :: s.hostQueue) s.race = 0) : s.foresee act = s.opened [] := by
  simp [State.foresee, racesAhead, h, hf, ha]

@[simp] theorem foresee_regs (s : State) (act : HostAct) : (s.foresee act).regs = s.regs := by
  rcases foresee_eq s act with h | ⟨l, h⟩ <;> rw [h]; rfl
@[simp] theorem foresee_pc (s : State) (act : HostAct) : (s.foresee act).pc = s.pc := by
  rcases foresee_eq s act with h | ⟨l, h⟩ <;> rw [h]; rfl
@[simp] theorem foresee_vl (s : State) (act : HostAct) : (s.foresee act).vl = s.vl := by
  rcases foresee_eq s act with h | ⟨l, h⟩ <;> rw [h]; rfl
@[simp] theorem foresee_run (s : State) (act : HostAct) : (s.foresee act).run = s.run := by
  rcases foresee_eq s act with h | ⟨l, h⟩ <;> rw [h]; rfl
@[simp] theorem foresee_allowSat (s : State) (act : HostAct) : (s.foresee act).allowSat = s.allowSat := by
  rcases foresee_eq s act with h | ⟨l, h⟩ <;> rw [h]; rfl
@[simp] theorem foresee_irqEn (s : State) (act : HostAct) : (s.foresee act).irqEn = s.irqEn := by
  rcases foresee_eq s act with h | ⟨l, h⟩ <;> rw [h]; rfl
@[simp] theorem foresee_doneBit (s : State) (act : HostAct) : (s.foresee act).doneBit = s.doneBit := by
  rcases foresee_eq s act with h | ⟨l, h⟩ <;> rw [h]; rfl
@[simp] theorem foresee_faultBit (s : State) (act : HostAct) : (s.foresee act).faultBit = s.faultBit := by
  rcases foresee_eq s act with h | ⟨l, h⟩ <;> rw [h]; rfl
@[simp] theorem foresee_cause (s : State) (act : HostAct) : (s.foresee act).cause = s.cause := by
  rcases foresee_eq s act with h | ⟨l, h⟩ <;> rw [h]; rfl
@[simp] theorem foresee_epc (s : State) (act : HostAct) : (s.foresee act).epc = s.epc := by
  rcases foresee_eq s act with h | ⟨l, h⟩ <;> rw [h]; rfl
@[simp] theorem foresee_finfo (s : State) (act : HostAct) : (s.foresee act).finfo = s.finfo := by
  rcases foresee_eq s act with h | ⟨l, h⟩ <;> rw [h]; rfl
@[simp] theorem foresee_abortReq (s : State) (act : HostAct) : (s.foresee act).abortReq = s.abortReq := by
  rcases foresee_eq s act with h | ⟨l, h⟩ <;> rw [h]; rfl
@[simp] theorem foresee_mem (s : State) (act : HostAct) : (s.foresee act).mem = s.mem := by
  rcases foresee_eq s act with h | ⟨l, h⟩ <;> rw [h]; rfl
@[simp] theorem foresee_cfg (s : State) (act : HostAct) : (s.foresee act).cfg = s.cfg := by
  rcases foresee_eq s act with h | ⟨l, h⟩ <;> rw [h]; rfl
@[simp] theorem foresee_hostQueue (s : State) (act : HostAct) : (s.foresee act).hostQueue = s.hostQueue := by
  rcases foresee_eq s act with h | ⟨l, h⟩ <;> rw [h]; rfl
@[simp] theorem foresee_hostData (s : State) (act : HostAct) : (s.foresee act).hostData = s.hostData := by
  rcases foresee_eq s act with h | ⟨l, h⟩ <;> rw [h]; rfl
@[simp] theorem foresee_freeCount (s : State) (act : HostAct) : (s.foresee act).freeCount = s.freeCount := by
  rcases foresee_eq s act with h | ⟨l, h⟩ <;> rw [h]; rfl

@[simp] theorem settle_nil (t : State) (m : Memory) : t.settle m [] = t := rfl

@[simp] theorem oneOfWritesAt_nil (s : State) (m : Memory) (log : List Host.Cell) : s.oneOfWritesAt m log [] = s := rfl

/-! `State.clouded` and `State.view`: what the CORE reads depends on the race and the count of free values alone. -/

theorem view_congr {s t : State} (hr : s.race = t.race) (hn : s.freeCount = t.freeCount) (m : Memory) (k : Nat) :
    s.view m k = t.view m k := by unfold State.view State.clouded; rw [hr, hn]

/-- With no race the CORE reads what memory holds. -/
@[simp] theorem view_of_clear (s : State) (m : Memory) (k : Nat) (h : s.clouded = []) : s.view m k = m := by
  unfold State.view; rw [h]; rfl

/-- With no access of run and host on record, none is a race. -/
@[simp] theorem clouded_of_none (s : State) (h : s.race = .none) : s.clouded = [] := by unfold State.clouded; rw [h]; rfl

/-! `State.reg`: a register read depends on the register file alone. -/

theorem reg_congr {s t : State} (h : s.regs = t.regs) (n : Reg) : s.reg n = t.reg n := by
  unfold State.reg; rw [h]

@[simp] theorem setMem_reg (s : State) (m : Memory) (n : Reg) : (s.setMem m).reg n = s.reg n := rfl
@[simp] theorem advance_reg (s : State) (n : Reg) : s.advance.reg n = s.reg n := rfl
@[simp] theorem branch_reg (s : State) (imm16 : BitVec 16) (n : Reg) : (s.branch imm16).reg n = s.reg n := rfl
@[simp] theorem raise_reg (s : State) (t : Trap) (n : Reg) : (s.raise t).reg n = s.reg n := rfl
@[simp] theorem abort_reg (s : State) (n : Reg) : s.abort.reg n = s.reg n := rfl
@[simp] theorem halt_reg (s : State) (n : Reg) : s.halt.reg n = s.reg n := rfl
@[simp] theorem start_reg (s : State) (n : Reg) : s.start.reg n = s.reg n := rfl
@[simp] theorem oneByteAt_reg (s : State) (a : Nat) (b : Byte) (bs : List Byte) (n : Reg) : (s.oneByteAt a b bs).reg n = s.reg n := rfl
@[simp] theorem foretell_reg (s : State) (a : Word) (n : Reg) : (s.foretell a).reg n = s.reg n := rfl
@[simp] theorem opened_reg (s : State) (l : List Nat) (n : Reg) : (s.opened l).reg n = s.reg n := rfl

/-- x[0] reads 0 in every state (10_state.md R31). -/
@[simp] theorem reg_zero (s : State) : s.reg 0 = 0#32 := rfl

/-- A write to x[0] has no effect (10_state.md R31). -/
@[simp] theorem setReg_zero (s : State) (v : Word) : s.setReg 0 v = s := rfl

/-- A register read after a register write. -/
theorem reg_setReg (s : State) (d n : Reg) (v : Word) :
    (s.setReg d v).reg n = if n = d ∧ d ≠ 0 then v else s.reg n := by
  unfold State.setReg State.reg
  by_cases hd : d.val = 0
  · have : d = 0 := Fin.ext hd
    simp [this]
  · have hd' : d ≠ 0 := fun h => hd (by rw [h]; rfl)
    by_cases hn : n.val = 0
    · have hne : n ≠ d := fun h => hd (by rw [← h]; exact hn)
      simp [hn, hne]
    · by_cases hnd : n = d
      · subst hnd
        simp [hn, hd']
      · have : ¬ d.val - 1 = n.val - 1 := by
          intro h; exact hnd (Fin.ext (by omega))
        simp [hd, hn, hnd, this]

theorem reg_setReg_same (s : State) (d : Reg) (v : Word) (h : d ≠ 0) : (s.setReg d v).reg d = v := by
  simp [reg_setReg, h]

theorem reg_setReg_other (s : State) (d n : Reg) (v : Word) (h : n ≠ d) : (s.setReg d v).reg n = s.reg n := by
  simp [reg_setReg, h]

/-- `State.finish` writes one register and moves to the next command. -/
theorem finish_spec (s : State) (d : Reg) (v : Word) :
    (∀ n, (s.finish d v).reg n = if n = d ∧ d ≠ 0 then v else s.reg n) ∧ (s.finish d v).pc = s.pc + 4#32 ∧
      (s.finish d v).mem = s.mem ∧ (s.finish d v).run = s.run := by
  refine ⟨fun n => ?_, ?_, ?_, ?_⟩ <;> simp [State.finish, reg_setReg]

/-! `State.writeCtrl`, `State.writeStatus` and `State.boundary` -/

@[simp] theorem writeStatus_regs (s : State) (v : Word) : (s.writeStatus v).regs = s.regs := rfl
@[simp] theorem writeStatus_pc (s : State) (v : Word) : (s.writeStatus v).pc = s.pc := rfl
@[simp] theorem writeStatus_vl (s : State) (v : Word) : (s.writeStatus v).vl = s.vl := rfl
@[simp] theorem writeStatus_run (s : State) (v : Word) : (s.writeStatus v).run = s.run := rfl
@[simp] theorem writeStatus_allowSat (s : State) (v : Word) : (s.writeStatus v).allowSat = s.allowSat := rfl
@[simp] theorem writeStatus_irqEn (s : State) (v : Word) : (s.writeStatus v).irqEn = s.irqEn := rfl
@[simp] theorem writeStatus_epc (s : State) (v : Word) : (s.writeStatus v).epc = s.epc := rfl
@[simp] theorem writeStatus_finfo (s : State) (v : Word) : (s.writeStatus v).finfo = s.finfo := rfl
@[simp] theorem writeStatus_abortReq (s : State) (v : Word) : (s.writeStatus v).abortReq = s.abortReq := rfl
@[simp] theorem writeStatus_mem (s : State) (v : Word) : (s.writeStatus v).mem = s.mem := rfl
@[simp] theorem writeStatus_cfg (s : State) (v : Word) : (s.writeStatus v).cfg = s.cfg := rfl
@[simp] theorem writeStatus_hostQueue (s : State) (v : Word) : (s.writeStatus v).hostQueue = s.hostQueue := rfl
@[simp] theorem writeStatus_hostData (s : State) (v : Word) : (s.writeStatus v).hostData = s.hostData := rfl
@[simp] theorem writeStatus_race (s : State) (v : Word) : (s.writeStatus v).race = s.race := rfl
@[simp] theorem writeStatus_freeCount (s : State) (v : Word) : (s.writeStatus v).freeCount = s.freeCount := rfl
@[simp] theorem writeCtrl_regs (s : State) (v : Word) : (s.writeCtrl v).regs = s.regs := by
  unfold State.writeCtrl; split <;> [split <;> rfl; rfl]
@[simp] theorem writeCtrl_pc (s : State) (v : Word) : (s.writeCtrl v).pc = s.pc := by
  unfold State.writeCtrl; split <;> [split <;> rfl; rfl]
@[simp] theorem writeCtrl_vl (s : State) (v : Word) : (s.writeCtrl v).vl = s.vl := by
  unfold State.writeCtrl; split <;> [split <;> rfl; rfl]
@[simp] theorem writeCtrl_epc (s : State) (v : Word) : (s.writeCtrl v).epc = s.epc := by
  unfold State.writeCtrl; split <;> [split <;> rfl; rfl]
@[simp] theorem writeCtrl_finfo (s : State) (v : Word) : (s.writeCtrl v).finfo = s.finfo := by
  unfold State.writeCtrl; split <;> [split <;> rfl; rfl]
@[simp] theorem writeCtrl_mem (s : State) (v : Word) : (s.writeCtrl v).mem = s.mem := by
  unfold State.writeCtrl; split <;> [split <;> rfl; rfl]
@[simp] theorem writeCtrl_cfg (s : State) (v : Word) : (s.writeCtrl v).cfg = s.cfg := by
  unfold State.writeCtrl; split <;> [split <;> rfl; rfl]
@[simp] theorem writeCtrl_hostQueue (s : State) (v : Word) : (s.writeCtrl v).hostQueue = s.hostQueue := by
  unfold State.writeCtrl; split <;> [split <;> rfl; rfl]
@[simp] theorem writeCtrl_hostData (s : State) (v : Word) : (s.writeCtrl v).hostData = s.hostData := by
  unfold State.writeCtrl; split <;> [split <;> rfl; rfl]
@[simp] theorem writeCtrl_race (s : State) (v : Word) : (s.writeCtrl v).race = s.race := by
  unfold State.writeCtrl; split <;> [split <;> rfl; rfl]
@[simp] theorem writeCtrl_freeCount (s : State) (v : Word) : (s.writeCtrl v).freeCount = s.freeCount := by
  unfold State.writeCtrl; split <;> [split <;> rfl; rfl]
@[simp] theorem boundary_regs (s : State) : s.boundary.regs = s.regs := by
  simp only [State.boundary]; split <;> split <;> rfl
@[simp] theorem boundary_pc (s : State) : s.boundary.pc = s.pc := by
  simp only [State.boundary]; split <;> split <;> rfl
@[simp] theorem boundary_vl (s : State) : s.boundary.vl = s.vl := by
  simp only [State.boundary]; split <;> split <;> rfl
@[simp] theorem boundary_allowSat (s : State) : s.boundary.allowSat = s.allowSat := by
  simp only [State.boundary]; split <;> split <;> rfl
@[simp] theorem boundary_irqEn (s : State) : s.boundary.irqEn = s.irqEn := by
  simp only [State.boundary]; split <;> split <;> rfl
@[simp] theorem boundary_doneBit (s : State) : s.boundary.doneBit = s.doneBit := by
  simp only [State.boundary]; split <;> split <;> rfl
@[simp] theorem boundary_mem (s : State) : s.boundary.mem = s.mem := by
  simp only [State.boundary]; split <;> split <;> rfl
@[simp] theorem boundary_cfg (s : State) : s.boundary.cfg = s.cfg := by
  simp only [State.boundary]; split <;> split <;> rfl
@[simp] theorem boundary_hostQueue (s : State) : s.boundary.hostQueue = s.hostQueue := by
  simp only [State.boundary]; split <;> split <;> rfl
@[simp] theorem boundary_hostData (s : State) : s.boundary.hostData = s.hostData := by
  simp only [State.boundary]; split <;> split <;> rfl
@[simp] theorem boundary_freeCount (s : State) : s.boundary.freeCount = s.freeCount := by
  simp only [State.boundary]; split <;> split <;> rfl

/-- With no abort request a command boundary of a run that goes on changes nothing. -/
theorem boundary_quiet (s : State) (hr : s.run = .run) (ha : s.abortReq = false) : s.boundary = s := by
  simp [State.boundary, hr, ha]

end Sys2Proof.Machine
end

