-- ==== Sys2Proof/Laws/Operands.lean ====
section
/-! SUPPORT. What the operand operations do: the checks (spec/20_memory.md R65-R68), reading and writing parts and elements, which bytes
an operand covers, and the fault-or-effect end of a command. -/

namespace Sys2Proof.Machine

/-! ### Fault or effect -/

/-- All that `orTrap` can answer: the fault's entry, or the effect. -/
theorem orTrap_eq_next {t : Option Trap} {s e u : State} (h : orTrap t s e = .next u) :
    (∃ x, t = some x ∧ u = s.raise x) ∨ (t = none ∧ u = e) := by
  cases t with
  | none => exact Or.inr ⟨rfl, by simpa [orTrap, eq_comm] using h⟩
  | some x => exact Or.inl ⟨x, rfl, by simpa [orTrap, eq_comm] using h⟩

@[simp] theorem orTrap_none (s e : State) : orTrap none s e = .next e := rfl

@[simp] theorem orTrap_some (x : Trap) (s e : State) : orTrap (some x) s e = .next (s.raise x) := rfl

/-! ### The checks -/

/-- The operand checks pass exactly when every array is aligned and every range is valid. -/
theorem operandTrap_eq_none (c : Config) (N : Nat) (arrays : List OperandArray) :
    operandTrap c N arrays = none ↔
      (∀ r ∈ arrays, r.start % r.align = 0) ∧ ∀ r ∈ arrays, rangeValid c r.start (r.elemBytes * N) = true := by
  unfold operandTrap
  cases h : arrays.find? (fun r => r.start % r.align != 0) with
  | some r =>
    have h1 := List.find?_some h
    have h2 := List.mem_of_find?_eq_some h
    simp only [bne_iff_ne, ne_eq] at h1
    constructor
    · intro hc; exact absurd hc (by simp)
    · intro hc; exact absurd (hc.1 r h2) h1
  | none =>
    have ha : ∀ r ∈ arrays, r.start % r.align = 0 := by
      intro r hr
      have := List.find?_eq_none.1 h r hr
      simpa using this
    cases h' : arrays.find? (fun r => !rangeValid c r.start (r.elemBytes * N)) with
    | some r =>
      have h1 := List.find?_some h'
      have h2 := List.mem_of_find?_eq_some h'
      simp only [Bool.not_eq_true'] at h1
      constructor
      · intro hc; exact absurd hc (by simp)
      · intro hc; rw [hc.2 r h2] at h1; exact absurd h1 (by simp)
    | none =>
      have hb : ∀ r ∈ arrays, rangeValid c r.start (r.elemBytes * N) = true := by
        intro r hr
        have := List.find?_eq_none.1 h' r hr
        simpa using this
      exact ⟨fun _ => ⟨ha, hb⟩, fun _ => rfl⟩

/-- A failed operand check reports DATA_ALIGN or DATA_BUS with the start of one of the arrays. -/
theorem operandTrap_eq_some {c : Config} {N : Nat} {arrays : List OperandArray} {t : Trap}
    (h : operandTrap c N arrays = some t) :
    ∃ r ∈ arrays, t.info = BitVec.ofNat 32 r.start ∧
      ((t.cause = .dataAlign ∧ r.start % r.align ≠ 0) ∨
        (t.cause = .dataBus ∧ rangeValid c r.start (r.elemBytes * N) = false ∧
          ∀ q ∈ arrays, q.start % q.align = 0)) := by
  unfold operandTrap at h
  cases h1 : arrays.find? (fun r => r.start % r.align != 0) with
  | some r =>
    rw [h1] at h
    have h2 := List.find?_some h1
    simp only [bne_iff_ne, ne_eq] at h2
    simp only [Option.some.injEq] at h
    subst h
    exact ⟨r, List.mem_of_find?_eq_some h1, rfl, Or.inl ⟨rfl, h2⟩⟩
  | none =>
    rw [h1] at h
    have ha : ∀ q ∈ arrays, q.start % q.align = 0 := by
      intro q hq
      simpa using List.find?_eq_none.1 h1 q hq
    cases h3 : arrays.find? (fun r => !rangeValid c r.start (r.elemBytes * N)) with
    | none => rw [h3] at h; exact absurd h (by simp)
    | some r =>
      rw [h3] at h
      have h4 := List.find?_some h3
      simp only [Bool.not_eq_true'] at h4
      simp only [Option.some.injEq] at h
      subst h
      exact ⟨r, List.mem_of_find?_eq_some h3, rfl, Or.inr ⟨rfl, h4, ha⟩⟩

/-- A checked operand ends at or below 2^32, unless it is empty. -/
theorem end_le_of_rangeValid {c : Config} {start len : Nat} (h : rangeValid c start len = true) (hl : len ≠ 0) :
    start + len ≤ 2 ^ 32 := by
  rcases (rangeValid_iff c start len).1 h with h | h
  · exact absurd h hl
  · exact h.1

/-! ### Parts and elements -/

theorem bits_pos (ty : ElemTy) : 0 < bits ty := by cases ty <;> decide

theorem bits_eq_eight_mul (ty : ElemTy) : 8 * (bits ty / 8) = bits ty := by cases ty <;> rfl

/-- A part written reads back, for a value within its bounds (20_memory.md R64). -/
theorem partRead_partWrite (m : Memory) (v : Vec) (i : Nat) (p : Part) (x : Int)
    (h1 : minB (bits v.ty) ≤ x) (h2 : x ≤ maxB (bits v.ty)) : partRead (partWrite m v i p x) v i p = x := by
  unfold partRead partWrite
  rw [Memory.readLE_writeLE, bits_eq_eight_mul, Nat.mod_eq_of_lt (BitVec.isLt _), BitVec.ofNat_toNat, BitVec.setWidth_eq,
    toInt_ofInt_of_mem _ (bits_pos _) _ h1 h2]

/-- A part is not changed by writing a part whose bytes are others. -/
theorem partRead_partWrite_disjoint (m : Memory) (v w : Vec) (i j : Nat) (p q : Part) (x : Int)
    (h : partAddr w j q + bits w.ty / 8 ≤ partAddr v i p ∨ partAddr v i p + bits v.ty / 8 ≤ partAddr w j q) :
    partRead (partWrite m v i p x) w j q = partRead m w j q := by
  unfold partRead partWrite
  rw [Memory.readLE_writeLE_disjoint _ _ _ _ _ _ h]

/-- The bytes of a part of element i lie in the operand's ranges (20_memory.md R67). -/
theorem part_mem_vecSpans (v : Vec) (N i : Nat) (p : Part) (a : Nat) (hi : i < N)
    (hp : p = .re ∨ isComplex v.ty = true) (h1 : partAddr v i p ≤ a) (h2 : a < partAddr v i p + bits v.ty / 8) :
    inSpans (vecSpans v N) a = true := by
  obtain ⟨ty, base, imBase⟩ := v
  cases ty <;> cases p <;>
    simp [partAddr, bits, isComplex, vecSpans, Vec.arrays, inSpans] at hp h1 h2 ⊢ <;> omega

/-- Writing element i changes no byte outside the operand's ranges. -/
theorem read_elemWrite_outside (m : Memory) (v : Vec) (N i : Nat) (e : Elem) (a : Nat) (hi : i < N)
    (h : inSpans (vecSpans v N) a = false) : (elemWrite m v i e).read a = m.read a := by
  have hout : ∀ (m : Memory) (p : Part) (x : Int), (p = .re ∨ isComplex v.ty = true) →
      (partWrite m v i p x).read a = m.read a := by
    intro m p x hp
    unfold partWrite
    apply Memory.read_writeLE_outside
    by_contra hc
    have := part_mem_vecSpans v N i p a hi hp (by omega) (by omega)
    rw [h] at this; exact absurd this (by simp)
  unfold elemWrite
  by_cases hc : isComplex v.ty = true
  · simp only [hc, if_true]; rw [hout _ _ _ (Or.inr hc), hout _ _ _ (Or.inl rfl)]
  · simp only [hc]; exact hout _ _ _ (Or.inl rfl)

/-- Every array of the operand ends within the address space. -/
def VecInSpace (v : Vec) (N : Nat) : Prop := ∀ r ∈ v.arrays, r.start + r.elemBytes * N ≤ 2 ^ 32

/-- Writing an element of an operand within the address space keeps the canonical form. -/
theorem wf_elemWrite (m : Memory) (v : Vec) (N i : Nat) (e : Elem) (h : m.wf) (hi : i < N) (hv : VecInSpace v N) :
    (elemWrite m v i e).wf := by
  obtain ⟨ty, base, imBase⟩ := v
  cases ty <;> simp [VecInSpace, Vec.arrays] at hv <;>
    simp only [elemWrite, partWrite, partAddr, bits, isComplex, if_true, Bool.false_eq_true, if_false] <;>
    (try apply Memory.wf_writeLE) <;> (try apply Memory.wf_writeLE) <;> first | exact h | omega

/-- Operand checks that pass put every operand with elements within the address space. -/
theorem vecInSpace_of_checks {c : Config} {N : Nat} {v : Vec} (hN : N ≠ 0)
    (h : ∀ r ∈ v.arrays, rangeValid c r.start (r.elemBytes * N) = true) : VecInSpace v N := by
  intro r hr
  refine end_le_of_rangeValid (h r hr) (Nat.mul_ne_zero ?_ hN)
  obtain ⟨ty, base, imBase⟩ := v
  cases ty <;> simp [Vec.arrays] at hr <;> (try rcases hr with rfl | rfl) <;> simp

/-! ### What the CORE reads -/

/-- A raced byte reads as a free value, every other byte as memory holds it (20_memory.md R78). -/
theorem read_cloud (n k : Nat) (as : List Nat) (m : Memory) (a : Nat) :
    (cloud n k as m).read a = if a ∈ as then Config.racedByte n k a else m.read a := by
  induction as with
  | nil => rfl
  | cons b rest ih =>
    rw [cloud, Memory.read_cons, ih]
    by_cases h : a = b
    · simp [h]
    · simp [h, Ne.symm h]

theorem read_view (s : State) (m : Memory) (k a : Nat) :
    (s.view m k).read a = if a ∈ s.clouded then Config.racedByte s.freeCount k a else m.read a := read_cloud ..

/-- A range none of whose bytes is raced is read as memory holds it. -/
theorem readLE_view_of_exact (s : State) (m : Memory) (k a n : Nat) (h : ∀ b, a ≤ b → b < a + n → b ∉ s.clouded) :
    (s.view m k).readLE a n = m.readLE a n :=
  Memory.readLE_congr _ _ _ _ (fun b h1 h2 => by rw [read_view, if_neg (h b h1 h2)])

/-- A part none of whose bytes is raced is read as memory holds it. -/
theorem partIn_of_exact (s : State) (m : Memory) (slot : Nat) (v : Vec) (i : Nat) (p : Part)
    (h : ∀ a, partAddr v i p ≤ a → a < partAddr v i p + bits v.ty / 8 → a ∉ s.clouded) :
    s.partIn m slot v i p = partRead m v i p := by
  unfold State.partIn partRead
  rw [readLE_view_of_exact _ _ _ _ _ h]

/-- With no race an element is read as memory holds it. -/
@[simp] theorem elemIn_of_clear (s : State) (m : Memory) (slot : Nat) (v : Vec) (i : Nat) (h : s.clouded = []) :
    s.elemIn m slot v i = elemRead m v i := by
  simp [State.elemIn, elemRead, State.partIn, h]

/-- A part none of whose bytes is raced, once written, reads as the value written. -/
theorem partAgain_of_exact (s : State) (v : Vec) (j i : Nat) (p : Part) (x : Int)
    (h : ∀ a, partAddr v i p ≤ a → a < partAddr v i p + bits v.ty / 8 → a ∉ s.clouded)
    (h1 : minB (bits v.ty) ≤ x) (h2 : x ≤ maxB (bits v.ty)) : s.partAgain v j i p x = x := by
  have e : s.partAgain v j i p x = partRead (partWrite [] v i p x) v i p := by
    unfold State.partAgain partRead
    rw [readLE_view_of_exact _ _ _ _ _ h]
  rw [e, partRead_partWrite _ _ _ _ _ h1 h2]

/-- With no race a vector is read as memory holds it. -/
@[simp] theorem vecIn_of_clear (s : State) (m : Memory) (v : Vec) (N : Nat) (h : s.clouded = []) :
    s.vecIn m v N = vecRead m v N := by
  unfold State.vecIn vecRead
  exact List.map_congr_left (fun i _ => elemIn_of_clear s m 0 v i h)

/-! ### Byte writes -/

/-- Memory after a list of byte writes in order. -/
def replay (m : Memory) (log : List Host.Cell) : Memory := log.foldl (fun m c => m.write c.1 c.2) m

theorem replay_append (m : Memory) (l k : List Host.Cell) : replay m (l ++ k) = replay (replay m l) k := List.foldl_append ..

/-- The byte writes of MemWrite do what MemWrite does. -/
theorem replay_leCells (m : Memory) (a n v : Nat) : replay m (leCells a n v) = m.writeLE a n v := by
  induction n generalizing m a v with
  | zero => rfl
  | succ n ih => exact ih _ _ _

/-- The byte writes of an element do what ElemWrite does. -/
theorem replay_elemCells (m : Memory) (v : Vec) (i : Nat) (e : Elem) : replay m (elemCells v i e) = elemWrite m v i e := by
  unfold elemCells elemWrite partWrite
  rw [replay_append]
  split
  · simp only [partCells, replay_leCells]
  · simp only [partCells, replay_leCells]; rfl

/-- The byte writes of a vector do what writing it does. -/
theorem replay_vecCells (m : Memory) (v : Vec) (i : Nat) (xs : List Elem) : replay m (vecCells v i xs) = vecWrite m v i xs := by
  induction xs generalizing m i with
  | nil => rfl
  | cons e xs ih => rw [vecCells, replay_append, replay_elemCells, ih, vecWrite]

/-- A byte that a list of byte writes leaves is the old one or one of the list. -/
theorem read_replay (m : Memory) (log : List Host.Cell) (a : Nat) :
    (replay m log).read a = m.read a ∨ (a, (replay m log).read a) ∈ log := by
  induction log generalizing m with
  | nil => exact Or.inl rfl
  | cons c log ih =>
    show (replay (m.write c.1 c.2) log).read a = m.read a ∨ (a, (replay (m.write c.1 c.2) log).read a) ∈ c :: log
    rcases ih (m.write c.1 c.2) with h | h
    · rw [Memory.read_write] at h
      by_cases hc : a = c.1
      · rw [if_pos hc] at h
        refine Or.inr (List.mem_cons.2 (Or.inl ?_))
        rw [h, hc]
      · rw [if_neg hc] at h
        exact Or.inl h
    · exact Or.inr (List.mem_cons_of_mem _ h)

/-! ### Headroom of lists -/

theorem elemsHr_le (ty : ElemTy) (xs : List Elem) : elemsHr ty xs ≤ bits ty - 1 := by
  unfold elemsHr
  induction xs with
  | nil => simp
  | cons e xs ih => rw [List.foldr_cons]; omega

/-- The headroom of a list is a lower bound of the headroom of each of its elements (00_scope.md R18). -/
theorem elemsHr_le_elemHr (ty : ElemTy) (xs : List Elem) (e : Elem) (h : e ∈ xs) : elemsHr ty xs ≤ elemHr ty e := by
  unfold elemsHr
  induction xs with
  | nil => exact absurd h (by simp)
  | cons x xs ih =>
    rw [List.foldr_cons]
    rcases List.mem_cons.1 h with rfl | h
    · omega
    · have := ih h; omega

end Sys2Proof.Machine
end

