-- ==== Sys2Proof/Laws/Commands.lean ====
section
/-! SUPPORT. What the shared operations of the commands can do, once each: the calculators' end (spec/41_calculators.md R135), the
kernels (42_kernels.md R160, R161), the FFT commands (43_fft.md R195-R201); and what their loops leave alone. -/

namespace Sys2Proof.Machine

/-! ### Register groups -/

theorem reg_setGroup_two (s : State) (d : Reg) (u v : Word) (n : Reg) :
    (s.setGroup d [u, v]).reg n =
      if n = d + 1 ∧ d + 1 ≠ 0 then v else if n = d ∧ d ≠ 0 then u else s.reg n := by
  simp only [State.setGroup, reg_setReg]

theorem reg_setGroup_three (s : State) (d : Reg) (u v w : Word) (n : Reg) :
    (s.setGroup d [u, v, w]).reg n =
      if n = d + 1 + 1 ∧ d + 1 + 1 ≠ 0 then w
      else if n = d + 1 ∧ d + 1 ≠ 0 then v else if n = d ∧ d ≠ 0 then u else s.reg n := by
  simp only [State.setGroup, reg_setReg]

/-! ### Calculators -/

/-- A calculator faults with its command word where an output is out of range, and writes its group otherwise (41_calculators.md R135). -/
theorem calculate_eq (s : State) (w : Word) (d : Reg) (outs : List Int) :
    calculate s w d outs =
      if outs.any outOfRange then .next (s.raise ⟨.expOverflow, w⟩)
      else .next (s.setGroup d (outs.map wrap32)).advance := by
  unfold calculate; split <;> rfl

/-! ### Kernels -/

@[simp] theorem kernelLoop_zero (out : Vec) (f : Memory → Nat → Elem) (m : Memory) : kernelLoop out f 0 m = m := rfl

theorem kernelLoop_succ (out : Vec) (f : Memory → Nat → Elem) (n : Nat) (m : Memory) :
    kernelLoop out f (n + 1) m = elemWrite (kernelLoop out f n m) out n (f (kernelLoop out f n m) n) := rfl

/-- A kernel's loop changes no byte outside the output operand. -/
theorem read_kernelLoop_outside (out : Vec) (f : Memory → Nat → Elem) (N n : Nat) (m : Memory) (a : Nat) (hn : n ≤ N)
    (h : inSpans (vecSpans out N) a = false) : (kernelLoop out f n m).read a = m.read a := by
  induction n with
  | zero => rfl
  | succ n ih => rw [kernelLoop_succ, read_elemWrite_outside _ _ N _ _ _ (by omega) h, ih (by omega)]

/-- The byte writes of a kernel's loop do what the loop does. -/
theorem replay_kernelCells (out : Vec) (f : Memory → Nat → Elem) (n : Nat) (m : Memory) :
    replay m (kernelCells out f n m) = kernelLoop out f n m := by
  induction n with
  | zero => rfl
  | succ n ih => rw [kernelCells, replay_append, ih, replay_elemCells, kernelLoop_succ]

/-- A kernel's loop keeps the canonical form of memory. -/
theorem wf_kernelLoop (out : Vec) (f : Memory → Nat → Elem) (N n : Nat) (m : Memory) (hn : n ≤ N) (hm : m.wf)
    (hv : VecInSpace out N) : (kernelLoop out f n m).wf := by
  induction n with
  | zero => exact hm
  | succ n ih => exact wf_elemWrite _ _ N _ _ (ih (by omega)) (by omega) hv

/-- All that a kernel can answer: the entry of a fault of its checks, or its effect, in which only memory, x[d] and PC change, and of
memory only the output operand (42_kernels.md R160, R161). -/
theorem kernel_eq_next {s t : State} {d : Reg} {out : Vec} {ins : List Vec} {f : Memory → Nat → Elem}
    (h : kernel s d out ins f = .next t) :
    (∃ x, operandTrap s.cfg (u32 s.vl) ((out :: ins).flatMap Vec.arrays) = some x ∧ t = s.raise x) ∨
      (operandTrap s.cfg (u32 s.vl) ((out :: ins).flatMap Vec.arrays) = none ∧
        t = ((s.setMem (kernelLoop out f (u32 s.vl) s.mem)).setReg d
          (BitVec.ofNat 32 (vhr (kernelLoop out f (u32 s.vl) s.mem) out (u32 s.vl)))).advance) :=
  orTrap_eq_next h

/-! ### The FFT engine -/

@[simp] theorem length_bitReverse (L : Nat) (xs : List Elem) : (bitReverse L xs).length = xs.length := by
  simp [bitReverse]

@[simp] theorem length_pass (M : Nat) (conj : Bool) (k : Nat) (xs : List Elem) : (pass M conj k xs).length = xs.length := by
  simp [pass]

@[simp] theorem length_scaleBy (sh : Nat) (xs : List Elem) : (scaleBy sh xs).length = xs.length := by simp [scaleBy]

@[simp] theorem length_vecAgain (s : State) (v : Vec) (n : Nat) (xs : List Elem) : (s.vecAgain v n xs).length = xs.length := by
  simp [State.vecAgain]

/-- Reading keeps the number of elements. -/
theorem length_fftPasses (M : Nat) (conj : Bool) (rd : Nat → List Elem → List Elem) (hrd : ∀ n xs, (rd n xs).length = xs.length)
    (L : Nat) (x : List Elem × Int) : (fftPasses M conj rd L x).1.length = x.1.length := by
  induction L with
  | zero => rfl
  | succ L ih => simp [fftPasses, hrd, ih]

/-- The transform keeps the number of elements. -/
theorem length_fft (M : Nat) (conj : Bool) (rd : Nat → List Elem → List Elem) (hrd : ∀ n xs, (rd n xs).length = xs.length)
    (L : Nat) (x : List Elem × Int) : (fft M conj rd L x).1.length = x.1.length := by simp [fft, length_fftPasses _ _ _ hrd]

@[simp] theorem length_vecRead (m : Memory) (v : Vec) (N : Nat) : (vecRead m v N).length = N := by simp [vecRead]

/-- Writing a list back changes no byte outside the operand. -/
theorem read_vecWrite_outside (v : Vec) (N : Nat) (xs : List Elem) (m : Memory) (i a : Nat) (hi : i + xs.length ≤ N)
    (h : inSpans (vecSpans v N) a = false) : (vecWrite m v i xs).read a = m.read a := by
  induction xs generalizing m i with
  | nil => rfl
  | cons e xs ih =>
    simp only [List.length_cons] at hi
    rw [vecWrite, ih _ _ (by omega), read_elemWrite_outside _ _ N _ _ _ (by omega) h]

/-- Writing a list back keeps the canonical form of memory. -/
theorem wf_vecWrite (v : Vec) (N : Nat) (xs : List Elem) (m : Memory) (i : Nat) (hi : i + xs.length ≤ N) (hm : m.wf)
    (hv : VecInSpace v N) : (vecWrite m v i xs).wf := by
  induction xs generalizing m i with
  | nil => exact hm
  | cons e xs ih =>
    simp only [List.length_cons] at hi
    exact ih _ _ (by omega) (wf_elemWrite _ _ N _ _ hm (by omega) hv)

@[simp] theorem length_vecIn (s : State) (m : Memory) (v : Vec) (N : Nat) : (s.vecIn m v N).length = N := by simp [State.vecIn]

/-- The last contents of the buffer are the transform's result (43_fft.md R200). -/
theorem fftImages_last (M : Nat) (conj : Bool) (rd : Nat → List Elem → List Elem) (L : Nat) (x : List Elem × Int) :
    ∃ l, fftImages M conj rd L x = l ++ [(fftPasses M conj rd L x).1] := by
  cases L with
  | zero => exact ⟨[], rfl⟩
  | succ k =>
    exact ⟨fftImages M conj rd k x ++
      [scaleBy (scaleShift k (rd (3 * k + 1) (fftPasses M conj rd k x).1)) (rd (3 * k + 2) (fftPasses M conj rd k x).1)],
      by rw [fftImages, fftPasses]; simp⟩

/-- All that FFTF and FFTI can answer (43_fft.md R200, R201). -/
theorem fftCommand_eq_next {conj : Bool} {sub : Int} {d a b : Reg} {s t : State} (h : fftCommand conj sub d a b s = .next t) :
    (∃ x, (fftTrap s a).or (fftExpTrap s b) = some x ∧ t = s.raise x) ∨
      ((fftTrap s a).or (fftExpTrap s b) = none ∧
        ∃ y, y = fft s.cfg.maxFftLog2 conj (s.vecAgain (fftVec s a)) (log2 (u32 s.vl))
            (s.vecIn s.mem (fftVec s a) (u32 s.vl), s32 (s.reg b)) ∧
          t = ((s.setMem (vecWrite s.mem (fftVec s a) 0 y.1)).setGroup d
            [wrap32 (y.2 - sub),
              BitVec.ofNat 32 (elemsHr .c32 (s.vecAgain (fftVec s a) (3 * log2 (u32 s.vl) + 1) y.1))]).advance) := by
  rcases orTrap_eq_next h with h | h
  · exact Or.inl h
  · exact Or.inr ⟨h.1, _, rfl, h.2⟩

/-! ### What a command writes, byte by byte -/

/-- A kernel faults, or its memory is what its byte writes make of it. -/
theorem kernel_replay {s t : State} {d : Reg} {out : Vec} {ins : List Vec} {f : Memory → Nat → Elem}
    (h : kernel s d out ins f = .next t) :
    (∃ x, t = s.raise x) ∨ t.mem = replay s.mem (kernelCells out f (u32 s.vl) s.mem) := by
  rcases kernel_eq_next h with ⟨x, -, rfl⟩ | ⟨-, rfl⟩
  · exact Or.inl ⟨x, rfl⟩
  · exact Or.inr (by simp [replay_kernelCells])

/-- A command that may fault leaves its effect's memory otherwise. -/
theorem orTrap_mem {x : Option Trap} {s e t : State} {m : Memory} (h : orTrap x s e = .next t) (he : e.mem = m) :
    (∃ y, t = s.raise y) ∨ t.mem = m := by
  rcases orTrap_eq_next h with ⟨y, -, rfl⟩ | ⟨-, rfl⟩
  · exact Or.inl ⟨y, rfl⟩
  · exact Or.inr he

/-- A calculator writes no memory. -/
theorem calculate_mem {s t : State} {w : Word} {d : Reg} {outs : List Int} (h : calculate s w d outs = .next t) :
    (∃ y, t = s.raise y) ∨ t.mem = s.mem := by
  rw [calculate_eq] at h
  split at h <;> (cases h; simp)

/-- A command faults, or its byte writes (70_reset_and_hazards.md R250 asks for them) make its memory; the transforms write the whole buffer
several times, and `fftImages_last` says with what at last. -/
theorem replay_commandCells {i : Instr} {s t : State} (h : exec i s = .next t)
    (hf : ∀ d a b, i ≠ .fftfC32 d a b ∧ i ≠ .fftiC32 d a b) :
    (∃ x, t = s.raise x) ∨ t.mem = replay s.mem (commandCells i s) := by
  cases i
  case halt => cases h; exact Or.inr rfl
  case lui => cases h; exact Or.inr (by simp [State.finish]; rfl)
  case addi => cases h; exact Or.inr (by simp [State.finish]; rfl)
  case add => cases h; exact Or.inr (by simp [State.finish]; rfl)
  case sub => cases h; exact Or.inr (by simp [State.finish]; rfl)
  case lw => exact orTrap_mem h (by simp [State.finish]; rfl)
  case sw => exact orTrap_mem h (by simp [commandCells, replay_leCells])
  case beq => cases h; exact Or.inr (by split <;> rfl)
  case bne => cases h; exact Or.inr (by split <;> rfl)
  case setvl => cases h; exact Or.inr rfl
  case hrsS16 => cases h; exact Or.inr (by simp [State.finish]; rfl)
  case hrsS32 => cases h; exact Or.inr (by simp [State.finish]; rfl)
  case vhrS16 => exact orTrap_mem h (by simp; rfl)
  case vhrS32 => exact orTrap_mem h (by simp; rfl)
  case vhrC16 => exact orTrap_mem h (by simp; rfl)
  case vhrC32 => exact orTrap_mem h (by simp; rfl)
  case vbitrevC32 => exact orTrap_mem h (by simp [commandCells, replay_vecCells])
  case fftfC32 d a b => exact absurd rfl (hf d a b).1
  case fftiC32 d a b => exact absurd rfl (hf d a b).2
  all_goals first | exact kernel_replay h | exact calculate_mem h

end Sys2Proof.Machine
end

