-- ==== Sys2Proof/Laws/Decode.lean ====
section
/-! SUPPORT. The fields of a word and the word of fields are inverse (spec/30_encoding.md R86); so are registers and their fields, types
and theirs. -/

namespace Sys2Proof

@[simp] theorem Reg.ofField_toField (r : Reg) : Reg.ofField r.toField = r := rfl

@[simp] theorem Reg.toField_ofField (f : BitVec 4) : (Reg.ofField f).toField = f := rfl

@[simp] theorem ElemTy.ofField_toField (ty : ElemTy) : ElemTy.ofField ty.toField = ty := by cases ty <;> rfl

@[simp] theorem ElemTy.toField_ofField (f : BitVec 2) : (ElemTy.ofField f).toField = f := by
  revert f; decide

/-- The fields of a word made of fields are those fields. -/
@[simp] theorem fieldsOf_wordOf (f : Fields) : fieldsOf (wordOf f) = f := by
  obtain ⟨op, ty, d, a, b, c, s, t⟩ := f
  simp only [fieldsOf, wordOf, Fields.mk.injEq]
  refine ⟨?_, ?_, ?_, ?_, ?_, ?_, ?_, ?_⟩ <;>
    · apply BitVec.eq_of_getLsbD_eq
      intro i hi
      simp only [BitVec.getLsbD_extractLsb', BitVec.getLsbD_append]
      interval_cases i <;> simp

/-- The word made of a word's fields is that word. -/
@[simp] theorem wordOf_fieldsOf (w : Word) : wordOf (fieldsOf w) = w := by
  apply BitVec.eq_of_getLsbD_eq
  intro i hi
  simp only [fieldsOf, wordOf, BitVec.getLsbD_extractLsb', BitVec.getLsbD_append]
  interval_cases i <;> simp

/-- imm16 from its four fields. -/
@[simp] theorem imm16_rowI (op : BitVec 6) (d a : Reg) (imm : BitVec 16) : (Fields.rowI op d a imm).imm16 = imm := by
  apply BitVec.eq_of_getLsbD_eq
  intro i hi
  simp only [Fields.rowI, Fields.imm16, BitVec.getLsbD_extractLsb', BitVec.getLsbD_append]
  interval_cases i <;> simp

/-- imm20 from its five fields. -/
@[simp] theorem imm20_rowU (op : BitVec 6) (d : Reg) (imm : BitVec 20) : (Fields.rowU op d imm).imm20 = imm := by
  apply BitVec.eq_of_getLsbD_eq
  intro i hi
  simp only [Fields.rowU, Fields.imm20, BitVec.getLsbD_extractLsb', BitVec.getLsbD_append]
  interval_cases i <;> simp

/-- A row's last checks pass exactly when its unused fields are zero and the command is well-formed, and then give the command. -/
theorem legalRow_eq_ok (unused : List (BitVec 4)) (i j : Instr) :
    legalRow unused i = .ok j ↔ (∀ f ∈ unused, f = 0#4) ∧ i.wellFormed = true ∧ i = j := by
  unfold legalRow Instr.wellFormed
  by_cases hu : unused.any (· != 0#4) = true
  · rw [if_pos hu]
    simp only [List.any_eq_true, bne_iff_ne, ne_eq] at hu
    obtain ⟨f, hf, hne⟩ := hu
    simp only [reduceCtorEq, false_iff, not_and]
    intro h; exact absurd (h f hf) hne
  · rw [if_neg hu]
    simp only [List.any_eq_true, bne_iff_ne, ne_eq, not_exists, not_and, not_not] at hu
    cases hp : i.pairsEven <;> cases hg : i.groupFits <;> simp
    exact fun _ => hu

end Sys2Proof
end

