-- ==== Sys2Proof/Laws/Host.lean ====
section
/-! SUPPORT. What free choices of bytes can do to memory, what a race leaves of a command, and what the sequencer and the reset input do
as a whole. -/

namespace Sys2Proof.Machine

/-! ### Free choices -/

/-- A free choice is one of the bytes offered. -/
theorem pick_mem (n : Nat) (b : Byte) (bs : List Byte) : pick n b bs ∈ b :: bs := by
  unfold pick
  have h : Config.freeChoice n % (bs.length + 1) < (b :: bs).length := by
    rw [List.length_cons]; exact Nat.mod_lt _ (by omega)
  rw [List.getD_eq_getElem _ _ h]
  exact List.getElem_mem h

theorem mem_bytesAt (log : List Host.Cell) (a : Nat) (b : Byte) : b ∈ bytesAt log a ↔ (a, b) ∈ log := by
  simp only [bytesAt, List.mem_map, List.mem_filter, beq_iff_eq]
  constructor
  · rintro ⟨⟨x, y⟩, ⟨h, rfl⟩, rfl⟩; exact h
  · intro h; exact ⟨(a, b), ⟨h, rfl⟩, rfl⟩

/-- An abandoned command changes no byte but those it would write. -/
theorem read_oneOfWritesAt_outside (s : State) (m : Memory) (log : List Host.Cell) (as : List Nat) (a : Nat) (h : a ∉ as) :
    (s.oneOfWritesAt m log as).mem.read a = s.mem.read a := by
  induction as generalizing s with
  | nil => rfl
  | cons b rest ih =>
    simp only [List.mem_cons, not_or] at h
    rw [State.oneOfWritesAt, ih _ h.2, oneByteAt_mem, Memory.read_write, if_neg h.1]

/-- An abandoned command leaves each byte it would write as it was or as one of its writes makes it (70_reset_and_hazards.md R250). -/
theorem read_oneOfWritesAt (s : State) (m : Memory) (log : List Host.Cell) (as : List Nat) (a : Nat) (h : a ∈ as) :
    (s.oneOfWritesAt m log as).mem.read a = m.read a ∨ (a, (s.oneOfWritesAt m log as).mem.read a) ∈ log := by
  induction as generalizing s with
  | nil => simp at h
  | cons b rest ih =>
    by_cases hr : a ∈ rest
    · exact ih _ hr
    · have hb : a = b := by simpa [hr] using h
      subst hb
      rw [State.oneOfWritesAt, read_oneOfWritesAt_outside _ _ _ _ _ hr, oneByteAt_mem, Memory.read_write, if_pos rfl,
        ← mem_bytesAt]
      exact List.mem_cons.1 (pick_mem _ _ _)

/-- An abandoned command keeps memory canonical. -/
theorem wf_oneOfWritesAt (s : State) (m : Memory) (log : List Host.Cell) (as : List Nat) (h : s.mem.wf)
    (ha : ∀ a ∈ as, a < 2 ^ 32) : (s.oneOfWritesAt m log as).mem.wf := by
  induction as generalizing s with
  | nil => exact h
  | cons b rest ih =>
    exact ih _ (Memory.wf_write _ _ _ h (ha b (by simp))) (fun a h' => ha a (by simp [h']))

/-! ### Races -/

/-- Settling a race touches no byte but those both agents wrote. -/
theorem read_settle_outside (t : State) (m : Memory) (as : List Nat) (a : Nat) (h : a ∉ as) :
    (t.settle m as).mem.read a = t.mem.read a := by
  induction as generalizing t with
  | nil => rfl
  | cons b rest ih =>
    simp only [List.mem_cons, not_or] at h
    rw [State.settle, ih _ h.2, oneByteAt_mem, Memory.read_write, if_neg h.1]

/-- A byte both agents wrote is either's (20_memory.md R78). -/
theorem read_settle (t : State) (m : Memory) (as : List Nat) (a : Nat) :
    (t.settle m as).mem.read a = t.mem.read a ∨ (t.settle m as).mem.read a = m.read a := by
  induction as generalizing t with
  | nil => exact Or.inl rfl
  | cons b rest ih =>
    rcases ih (t.oneByteAt b (t.mem.read b) [m.read b]) with h | h
    · rw [oneByteAt_mem, Memory.read_write] at h
      by_cases hb : a = b
      · subst hb
        rw [if_pos rfl] at h
        have := pick_mem t.freeCount (t.mem.read a) [m.read a]
        simp only [List.mem_cons, List.not_mem_nil, or_false] at this
        rw [State.settle, h]; exact this
      · rw [if_neg hb] at h
        exact Or.inl h
    · exact Or.inr h

/-- Settling a race keeps memory canonical. -/
theorem wf_settle (t : State) (m : Memory) (as : List Nat) (h : t.mem.wf) (ha : ∀ a ∈ as, a < 2 ^ 32) :
    (t.settle m as).mem.wf := by
  induction as generalizing t with
  | nil => exact h
  | cons b rest ih =>
    exact ih _ (Memory.wf_write _ _ _ h (ha b (by simp))) (fun a h' => ha a (by simp [h']))

/-- What follows a command touches no byte but those that the host stored to in the run and the command wrote. -/
theorem read_after_outside (s t : State) (a : Nat) (h : a ∉ s.race.hostStored ∨ inSpans (written s) a = false) :
    (s.after t).mem.read a = t.mem.read a := by
  refine read_settle_outside t s.mem _ a (fun hm => ?_)
  rw [List.mem_filter] at hm
  rcases h with h | h
  · exact h hm.1
  · rw [h] at hm; exact absurd hm.2 (by simp)

/-- With no store of the host in the run, what follows a command is the record of its accesses alone. -/
theorem after_of_quiet (s t : State) (h : s.race.hostStored = []) : s.after t = { t with
    race := t.race.record s, freeCount := t.freeCount + 1 } := by
  simp [State.after, h]

/-- The bytes of a race (20_memory.md R78). -/
theorem mem_race_bytes (r : Race) (a : Nat) : a ∈ r.bytes ↔
    (a ∈ r.hostStored ∧ (inSpans r.runRead a = true ∨ inSpans r.runWrote a = true)) ∨
      (a ∈ r.hostLoaded ∧ inSpans r.runWrote a = true) := by
  simp [Race.bytes, inSpans]

/-- What a command accesses is on record. -/
theorem mem_record_runWrote (r : Race) (s : State) (p : Span) :
    p ∈ (r.record s).runWrote ↔ p ∈ written s ∨ p ∈ r.runWrote := by
  unfold Race.record
  generalize written s = l
  induction l with
  | nil => simp
  | cons q l ih => simp_all [or_assoc]

theorem mem_record_runRead (r : Race) (s : State) (p : Span) :
    p ∈ (r.record s).runRead ↔ p ∈ accessed s ∨ p ∈ r.runRead := by
  unfold Race.record
  generalize accessed s = l
  induction l with
  | nil => simp
  | cons q l ih => simp_all [or_assoc]

/-- A fetch that faults accesses no memory (20_memory.md R66, R67). -/
theorem accessed_of_fetchTrap {s : State} {t : Trap} (h : fetchTrap s = some t) : accessed s = [] := by
  simp [accessed, h]

/-- The run of s comes to t, in which it goes on, where the sequencer is alone. -/
def ComesTo : State → State → Prop := Relation.ReflTransGen (fun s t => sequencer s = .next t ∧ t.run = .run)

/-- What following a run alone answers is the record in a state that the run comes to, with the command there or without, or what `rest`
says in one: it holds no access that the run does not make. -/
theorem alone_eq (rest : State → Race) (fuel : Nat) (mark : State) (steps left : Nat) (s : State) : ∃ t, ComesTo s t ∧
    (alone rest fuel mark steps left s = rest t ∨ alone rest fuel mark steps left s = t.race ∨
      alone rest fuel mark steps left s = t.race.record t) := by
  induction fuel generalizing mark steps left s with
  | zero => exact ⟨s, .refl, .inl rfl⟩
  | succ fuel ih =>
    have later (u : State) (hu : sequencer s = .next u ∧ u.run = .run) (mark : State) (steps left : Nat) :
        ∃ t, ComesTo s t ∧ (alone rest fuel mark steps left u = rest t ∨ alone rest fuel mark steps left u = t.race ∨
          alone rest fuel mark steps left u = t.race.record t) :=
      let ⟨t, ht, h⟩ := ih mark steps left u
      ⟨t, .head hu ht, h⟩
    cases hq : sequencer s with
    | fault r => exact ⟨s, .refl, .inr (.inl (by simp [alone, hq]))⟩
    | refused r => exact ⟨s, .refl, .inr (.inl (by simp [alone, hq]))⟩
    | next u =>
      cases hr : u.run with
      | idle => exact ⟨s, .refl, .inr (.inr (by simp [alone, hq, hr]))⟩
      | run =>
        simp only [alone, hq, hr]
        split
        · exact later _ ⟨hq, hr⟩ _ _ _
        · split
          · exact ⟨u, .single ⟨hq, hr⟩, .inr (.inl rfl)⟩
          · cases left with
            | zero => exact later _ ⟨hq, hr⟩ _ _ _
            | succ left => exact later _ ⟨hq, hr⟩ _ _ _

/-- The accesses found by following a run alone are on record in a state that the run comes to, or are those of its command. -/
theorem aloneInSight_eq (s : State) : ∃ t, ComesTo s t ∧ (aloneInSight s = t.race ∨ aloneInSight s = t.race.record t) := by
  obtain ⟨t, ht, h | h⟩ := alone_eq (fun t => alone State.race (Config.freeSight t.freeCount) t 1 1 t) (2 ^ 64) s 1 1 s
  · obtain ⟨u, hu, h'⟩ := alone_eq State.race (Config.freeSight t.freeCount) t 1 1 t
    exact ⟨u, ht.trans hu, by unfold aloneInSight; rw [h]; tauto⟩
  · exact ⟨t, ht, h⟩

/-! ### The command in progress, the sequencer, reset -/

/-- Where a command is in progress: it could be fetched, it decodes, and it completes with the run going on. -/
theorem inProgress_eq_some {s : State} {i : Instr} (h : inProgress s = some i) :
    fetchTrap s = none ∧ decode (fetchWord s) = .ok i ∧ ∃ t, exec i s = .next t ∧ t.run = .run := by
  unfold inProgress at h
  split at h
  · rename_i hf hd
    split at h
    · rename_i he
      split at h
      · rename_i hr
        simp only [Option.some.injEq] at h
        subst h
        exact ⟨hf, hd, _, he, hr⟩
      · simp at h
    · simp at h
  · simp at h

/-- A command that can be fetched and decodes is executed (40_sequencer.md R110). -/
theorem command_eq {s : State} {i : Instr} (h1 : fetchTrap s = none) (h2 : decode (fetchWord s) = .ok i) : command s = exec i s := by
  simp [command, h1, h2]

/-- A command that can be fetched, decodes, and completes with the run going on is in progress. -/
theorem inProgress_eq {s t : State} {i : Instr} (h1 : fetchTrap s = none) (h2 : decode (fetchWord s) = .ok i)
    (h3 : exec i s = .next t) (h4 : t.run = .run) : inProgress s = some i := by
  simp [inProgress, h1, h2, h3, h4]

/-- The reset input while IDLE leaves memory as it is (70_reset_and_hazards.md R250). -/
@[simp] theorem abandon_idle (s : State) (h : s.run = .idle) : s.abandon = s := by
  simp [State.abandon, h]

/-- The sequencer while IDLE does nothing (10_state.md R35). -/
@[simp] theorem sequencer_idle (s : State) (h : s.run = .idle) : sequencer s = .next s := by
  simp [sequencer, h]

/-- The sequencer while RUN: one command, what follows it, its boundary (40_sequencer.md R110). -/
theorem sequencer_run {s t : State} (h : s.run = .run) (hc : command s = .next t) :
    sequencer s = .next (s.after t).boundary := by
  simp [sequencer, h, hc]

end Sys2Proof.Machine
end

