-- ==== Sys2Proof/Laws/PerInstr.lean ====
section
/-! SUPPORT. A property of every command, one lemma each: bits 31:24 of its word are the op and ty of its row in the opcode map
(spec/30_encoding.md R86, R91; spec/opcode_table.json). The table of rows here is written out once more, from the "match" words. -/

namespace Sys2Proof.Laws.OpcodeMap

/-- Bits 31:26 and 25:24 of the row's match word in spec/opcode_table.json. -/
def rowCode : Instr → BitVec 6 × BitVec 2
  | .halt => (0x00#6, 0#2)
  | .lui .. => (0x01#6, 0#2)
  | .addi .. => (0x02#6, 0#2)
  | .add .. => (0x03#6, 0#2)
  | .sub .. => (0x04#6, 0#2)
  | .lw .. => (0x05#6, 0#2)
  | .sw .. => (0x06#6, 0#2)
  | .beq .. => (0x07#6, 0#2)
  | .bne .. => (0x08#6, 0#2)
  | .setvl .. => (0x09#6, 0#2)
  | .hrsS16 .. => (0x0A#6, 0#2)
  | .hrsS32 .. => (0x0A#6, 1#2)
  | .calcAddS16 .. => (0x10#6, 0#2)
  | .calcAddS32 .. => (0x10#6, 1#2)
  | .calcAddC16 .. => (0x10#6, 2#2)
  | .calcAddC32 .. => (0x10#6, 3#2)
  | .calcMulS16 .. => (0x11#6, 0#2)
  | .calcMulS32 .. => (0x11#6, 1#2)
  | .calcCmulC16 .. => (0x12#6, 2#2)
  | .calcCmulC32 .. => (0x12#6, 3#2)
  | .calcScaleS16 .. => (0x13#6, 0#2)
  | .calcScaleS32 .. => (0x13#6, 1#2)
  | .calcScaleC16 .. => (0x13#6, 2#2)
  | .calcScaleC32 .. => (0x13#6, 3#2)
  | .calcMagC16 .. => (0x14#6, 2#2)
  | .calcMagC32 .. => (0x14#6, 3#2)
  | .calcSqmagC16 .. => (0x15#6, 2#2)
  | .calcSqmagC32 .. => (0x15#6, 3#2)
  | .vshlS16 .. => (0x20#6, 0#2)
  | .vshlS32 .. => (0x20#6, 1#2)
  | .vshlC16 .. => (0x20#6, 2#2)
  | .vshlC32 .. => (0x20#6, 3#2)
  | .vaddS16 .. => (0x21#6, 0#2)
  | .vaddS32 .. => (0x21#6, 1#2)
  | .vaddC16 .. => (0x21#6, 2#2)
  | .vaddC32 .. => (0x21#6, 3#2)
  | .vsubS16 .. => (0x22#6, 0#2)
  | .vsubS32 .. => (0x22#6, 1#2)
  | .vsubC16 .. => (0x22#6, 2#2)
  | .vsubC32 .. => (0x22#6, 3#2)
  | .vmulS16 .. => (0x23#6, 0#2)
  | .vmulS32 .. => (0x23#6, 1#2)
  | .vcmulC16 .. => (0x24#6, 2#2)
  | .vcmulC32 .. => (0x24#6, 3#2)
  | .vcmulcC16 .. => (0x25#6, 2#2)
  | .vcmulcC32 .. => (0x25#6, 3#2)
  | .vscaleS16 .. => (0x26#6, 0#2)
  | .vscaleS32 .. => (0x26#6, 1#2)
  | .vscaleC16 .. => (0x26#6, 2#2)
  | .vscaleC32 .. => (0x26#6, 3#2)
  | .vmagC16 .. => (0x27#6, 2#2)
  | .vmagC32 .. => (0x27#6, 3#2)
  | .vsqmagC16 .. => (0x28#6, 2#2)
  | .vsqmagC32 .. => (0x28#6, 3#2)
  | .vhrS16 .. => (0x29#6, 0#2)
  | .vhrS32 .. => (0x29#6, 1#2)
  | .vhrC16 .. => (0x29#6, 2#2)
  | .vhrC32 .. => (0x29#6, 3#2)
  | .vbitrevC32 .. => (0x30#6, 3#2)
  | .fftfC32 .. => (0x31#6, 3#2)
  | .fftiC32 .. => (0x32#6, 3#2)

/-- The word of a command carries its row's op and ty, in the places of R86. -/
def Statement (i : Instr) : Prop := ((fieldsOf (encode i)).op, (fieldsOf (encode i)).ty) = rowCode i

/-- The fields of a command's word are those it was built from. -/
theorem ofFields (i : Instr) (h : ((encodeFields i).op, (encodeFields i).ty) = rowCode i) : Statement i := by
  rw [Statement, encode, fieldsOf_wordOf, h]

theorem halt : Statement (.halt) := ofFields _ rfl
theorem lui (d : Reg) (imm20 : BitVec 20) : Statement (.lui d imm20) := ofFields _ rfl
theorem addi (d a : Reg) (imm16 : BitVec 16) : Statement (.addi d a imm16) := ofFields _ rfl
theorem add (d a b : Reg) : Statement (.add d a b) := ofFields _ rfl
theorem sub (d a b : Reg) : Statement (.sub d a b) := ofFields _ rfl
theorem lw (d a : Reg) (imm16 : BitVec 16) : Statement (.lw d a imm16) := ofFields _ rfl
theorem sw (d a : Reg) (imm16 : BitVec 16) : Statement (.sw d a imm16) := ofFields _ rfl
theorem beq (d a : Reg) (imm16 : BitVec 16) : Statement (.beq d a imm16) := ofFields _ rfl
theorem bne (d a : Reg) (imm16 : BitVec 16) : Statement (.bne d a imm16) := ofFields _ rfl
theorem setvl (a : Reg) : Statement (.setvl a) := ofFields _ rfl
theorem hrsS16 (d a : Reg) : Statement (.hrsS16 d a) := ofFields _ rfl
theorem hrsS32 (d a : Reg) : Statement (.hrsS32 d a) := ofFields _ rfl
theorem calcAddS16 (d b c sh t : Reg) : Statement (.calcAddS16 d b c sh t) := ofFields _ rfl
theorem calcAddS32 (d b c sh t : Reg) : Statement (.calcAddS32 d b c sh t) := ofFields _ rfl
theorem calcAddC16 (d b c sh t : Reg) : Statement (.calcAddC16 d b c sh t) := ofFields _ rfl
theorem calcAddC32 (d b c sh t : Reg) : Statement (.calcAddC32 d b c sh t) := ofFields _ rfl
theorem calcMulS16 (d b c sh t : Reg) : Statement (.calcMulS16 d b c sh t) := ofFields _ rfl
theorem calcMulS32 (d b c sh t : Reg) : Statement (.calcMulS32 d b c sh t) := ofFields _ rfl
theorem calcCmulC16 (d b c sh t : Reg) : Statement (.calcCmulC16 d b c sh t) := ofFields _ rfl
theorem calcCmulC32 (d b c sh t : Reg) : Statement (.calcCmulC32 d b c sh t) := ofFields _ rfl
theorem calcScaleS16 (d b c sh t : Reg) : Statement (.calcScaleS16 d b c sh t) := ofFields _ rfl
theorem calcScaleS32 (d b c sh t : Reg) : Statement (.calcScaleS32 d b c sh t) := ofFields _ rfl
theorem calcScaleC16 (d b c sh t : Reg) : Statement (.calcScaleC16 d b c sh t) := ofFields _ rfl
theorem calcScaleC32 (d b c sh t : Reg) : Statement (.calcScaleC32 d b c sh t) := ofFields _ rfl
theorem calcMagC16 (d b sh : Reg) : Statement (.calcMagC16 d b sh) := ofFields _ rfl
theorem calcMagC32 (d b sh : Reg) : Statement (.calcMagC32 d b sh) := ofFields _ rfl
theorem calcSqmagC16 (d b sh : Reg) : Statement (.calcSqmagC16 d b sh) := ofFields _ rfl
theorem calcSqmagC32 (d b sh : Reg) : Statement (.calcSqmagC32 d b sh) := ofFields _ rfl
theorem vshlS16 (d a b sh : Reg) : Statement (.vshlS16 d a b sh) := ofFields _ rfl
theorem vshlS32 (d a b sh : Reg) : Statement (.vshlS32 d a b sh) := ofFields _ rfl
theorem vshlC16 (d a b sh : Reg) : Statement (.vshlC16 d a b sh) := ofFields _ rfl
theorem vshlC32 (d a b sh : Reg) : Statement (.vshlC32 d a b sh) := ofFields _ rfl
theorem vaddS16 (d a b c sh t : Reg) : Statement (.vaddS16 d a b c sh t) := ofFields _ rfl
theorem vaddS32 (d a b c sh t : Reg) : Statement (.vaddS32 d a b c sh t) := ofFields _ rfl
theorem vaddC16 (d a b c sh t : Reg) : Statement (.vaddC16 d a b c sh t) := ofFields _ rfl
theorem vaddC32 (d a b c sh t : Reg) : Statement (.vaddC32 d a b c sh t) := ofFields _ rfl
theorem vsubS16 (d a b c sh t : Reg) : Statement (.vsubS16 d a b c sh t) := ofFields _ rfl
theorem vsubS32 (d a b c sh t : Reg) : Statement (.vsubS32 d a b c sh t) := ofFields _ rfl
theorem vsubC16 (d a b c sh t : Reg) : Statement (.vsubC16 d a b c sh t) := ofFields _ rfl
theorem vsubC32 (d a b c sh t : Reg) : Statement (.vsubC32 d a b c sh t) := ofFields _ rfl
theorem vmulS16 (d a b c sh : Reg) : Statement (.vmulS16 d a b c sh) := ofFields _ rfl
theorem vmulS32 (d a b c sh : Reg) : Statement (.vmulS32 d a b c sh) := ofFields _ rfl
theorem vcmulC16 (d a b c sh : Reg) : Statement (.vcmulC16 d a b c sh) := ofFields _ rfl
theorem vcmulC32 (d a b c sh : Reg) : Statement (.vcmulC32 d a b c sh) := ofFields _ rfl
theorem vcmulcC16 (d a b c sh : Reg) : Statement (.vcmulcC16 d a b c sh) := ofFields _ rfl
theorem vcmulcC32 (d a b c sh : Reg) : Statement (.vcmulcC32 d a b c sh) := ofFields _ rfl
theorem vscaleS16 (d a b c sh : Reg) : Statement (.vscaleS16 d a b c sh) := ofFields _ rfl
theorem vscaleS32 (d a b c sh : Reg) : Statement (.vscaleS32 d a b c sh) := ofFields _ rfl
theorem vscaleC16 (d a b c sh : Reg) : Statement (.vscaleC16 d a b c sh) := ofFields _ rfl
theorem vscaleC32 (d a b c sh : Reg) : Statement (.vscaleC32 d a b c sh) := ofFields _ rfl
theorem vmagC16 (d a b sh : Reg) : Statement (.vmagC16 d a b sh) := ofFields _ rfl
theorem vmagC32 (d a b sh : Reg) : Statement (.vmagC32 d a b sh) := ofFields _ rfl
theorem vsqmagC16 (d a b sh : Reg) : Statement (.vsqmagC16 d a b sh) := ofFields _ rfl
theorem vsqmagC32 (d a b sh : Reg) : Statement (.vsqmagC32 d a b sh) := ofFields _ rfl
theorem vhrS16 (d b : Reg) : Statement (.vhrS16 d b) := ofFields _ rfl
theorem vhrS32 (d b : Reg) : Statement (.vhrS32 d b) := ofFields _ rfl
theorem vhrC16 (d b : Reg) : Statement (.vhrC16 d b) := ofFields _ rfl
theorem vhrC32 (d b : Reg) : Statement (.vhrC32 d b) := ofFields _ rfl
theorem vbitrevC32 (a : Reg) : Statement (.vbitrevC32 a) := ofFields _ rfl
theorem fftfC32 (d a b : Reg) : Statement (.fftfC32 d a b) := ofFields _ rfl
theorem fftiC32 (d a b : Reg) : Statement (.fftiC32 d a b) := ofFields _ rfl

end Sys2Proof.Laws.OpcodeMap
end

