-- ==== Sys2Proof/Tests/Slice0.lean ====
section
/-! SUPPORT. The tests of the model, on fixed values that the spec gives (spec/95_test_vectors.md; "§" is a section of that file) or
that were worked out by hand from the rule named; and for every statement with hypotheses a state and operands that meet them. -/

namespace Sys2Proof.Tests

set_option Elab.async false

open Sys2Proof.Machine Sys2Proof.Claims

/-! ### Small states -/

/-- 16-bit values from an address on. -/
def words16 (a : Nat) : List Int → Memory → Memory
  | [], m => m
  | w :: rest, m => words16 (a + 2) rest (m.writeLE a 2 (BitVec.ofInt 16 w).toNat)

/-- 32-bit values from an address on. -/
def words32 (a : Nat) : List Int → Memory → Memory
  | [], m => m
  | w :: rest, m => words32 (a + 4) rest (m.writeLE a 4 (BitVec.ofInt 32 w).toNat)

/-- The reset state, running, with some registers, VL and memory. -/
def start (regs : List (Reg × Int)) (vl : Nat) (m : Memory) : State :=
  regs.foldl (fun s r => s.setReg r.1 (BitVec.ofInt 32 r.2)) { State.reset with vl := BitVec.ofNat 32 vl, mem := m, run := .run }

/-- The next state of an outcome. -/
def out (o : Host.Outcome State Fault Refusal) : State :=
  match o with
  | .next s => s
  | _ => State.reset

/-- Some registers after a command, as signed numbers. -/
def regsAfter (i : Instr) (s : State) (rs : List Reg) : List Int := rs.map (fun r => s32 ((out (exec i s)).reg r))

/-- The CAUSE, FINFO and EPC after a command. -/
def reportAfter (i : Instr) (s : State) : Cause × Word × Word :=
  ((out (exec i s)).cause, (out (exec i s)).finfo, (out (exec i s)).epc)

/-- A vector in memory after a command, and x[1]. -/
def vecAfter (i : Instr) (s : State) (ty : ElemTy) (n : Nat) : List (Int × Int) × Int :=
  ((vecRead (out (exec i s)).mem ⟨ty, 0x200, 0x280⟩ n).map (fun e => (e.re, e.im)), s32 ((out (exec i s)).reg 1))

/-- Kernel operands of 16-bit types: a at 0x200 (im 0x280), b at 0x100 (im 0x140), c at 0x180 (im 0x1C0), shifts in x[8], x[9]. -/
def kernel16 (n : Nat) (b bi c ci : List Int) (sh u : Int) : State :=
  start [(2, 0x200), (3, 0x280), (4, 0x100), (5, 0x140), (6, 0x180), (7, 0x1C0), (8, sh), (9, u)] n
    (words16 0x100 b (words16 0x140 bi (words16 0x180 c (words16 0x1C0 ci []))))

/-- Kernel operands of 32-bit types: a at 0x200, b at 0x100, c at 0x180, shifts in x[8], x[9]. -/
def kernel32 (n : Nat) (b c : List Int) (sh u : Int) : State :=
  start [(2, 0x200), (4, 0x100), (6, 0x180), (8, sh), (9, u)] n (words32 0x100 b (words32 0x180 c []))

/-- −2^31. -/
def min32 : Int := -2 ^ 31

/-! ### Well-formedness (30_encoding.md R88, R89, R92) -/

theorem test_wellFormed_refuses_odd_c16_output : (Instr.vaddC16 1 3 2 4 0 0).wellFormed = false := by decide
theorem test_wellFormed_refuses_odd_c16_input : (Instr.vscaleC16 1 2 3 3 5).wellFormed = false := by decide
theorem test_wellFormed_refuses_group_of_three_past_r15 : (Instr.calcAddS16 14 0 0 0 0).wellFormed = false := by decide
theorem test_wellFormed_refuses_group_of_two_past_r15 : (Instr.fftfC32 15 1 5).wellFormed = false := by decide
theorem test_wellFormed_admits_odd_real_output : (Instr.vmagC16 1 3 2 1).wellFormed = true := by decide
theorem test_wellFormed_admits_group_up_to_r15 : (Instr.calcAddS16 13 0 0 0 0).wellFormed = true := by decide

/-! ### Decoding: one word for each command -/

/-- Every word of the list decodes to its command, and the command encodes to the word. -/
def Words (l : List (Nat × Instr)) : Prop := ∀ p ∈ l, decodeTableWord 32 p.1 = some p.2 ∧ encode p.2 = BitVec.ofNat 32 p.1

/-- §3.1. -/
theorem test_words_scalar : Words
    [(0x00000000, .halt), (0x04112350, .lui 1 0x12350#20), (0x08118000, .addi 1 1 0x8000#16), (0x0C312000, .add 3 1 2),
     (0x10312000, .sub 3 1 2), (0x1412FFFC, .lw 1 2 0xFFFC#16), (0x18520000, .sw 5 2 0#16), (0x1C34FFFE, .beq 3 4 0xFFFE#16),
     (0x2030FFFA, .bne 3 0 0xFFFA#16), (0x24040000, .setvl 4), (0x28520000, .hrsS16 5 2), (0x29520000, .hrsS32 5 2)] := by
  unfold Words; decide

/-- §3.1; the types it does not list by R86: ty in bits 25:24. -/
theorem test_words_calculators : Words
    [(0x40A00056, .calcAddS16 10 0 0 5 6), (0x41203456, .calcAddS32 2 3 4 5 6), (0x42203456, .calcAddC16 2 3 4 5 6),
     (0x43203456, .calcAddC32 2 3 4 5 6), (0x44203400, .calcMulS16 2 3 4 0 0), (0x45203456, .calcMulS32 2 3 4 5 6),
     (0x4AA00089, .calcCmulC16 10 0 0 8 9), (0x4B203456, .calcCmulC32 2 3 4 5 6), (0x4C203456, .calcScaleS16 2 3 4 5 6),
     (0x4D203456, .calcScaleS32 2 3 4 5 6), (0x4E203456, .calcScaleC16 2 3 4 5 6), (0x4F203456, .calcScaleC32 2 3 4 5 6),
     (0x52203050, .calcMagC16 2 3 5), (0x53203050, .calcMagC32 2 3 5), (0x56203050, .calcSqmagC16 2 3 5),
     (0x57203050, .calcSqmagC32 2 3 5)] := by
  unfold Words; decide

/-- §3.1; the types it does not list by R86. -/
theorem test_words_shift_add_subtract : Words
    [(0x80611050, .vshlS16 6 1 1 5), (0x81611050, .vshlS32 6 1 1 5), (0x82624050, .vshlC16 6 2 4 5), (0x83611050, .vshlC32 6 1 1 5),
     (0x84124689, .vaddS16 1 2 4 6 8 9), (0x85124689, .vaddS32 1 2 4 6 8 9), (0x86124689, .vaddC16 1 2 4 6 8 9),
     (0x87124689, .vaddC32 1 2 4 6 8 9), (0x88D123BC, .vsubS16 13 1 2 3 11 12), (0x89D123BC, .vsubS32 13 1 2 3 11 12),
     (0x8AD246BC, .vsubC16 13 2 4 6 11 12), (0x8BD123BC, .vsubC32 13 1 2 3 11 12)] := by
  unfold Words; decide

/-- §3.1; the types it does not list by R86. -/
theorem test_words_products : Words
    [(0x8C123450, .vmulS16 1 2 3 4 5), (0x8D123450, .vmulS32 1 2 3 4 5), (0x92C624B0, .vcmulC16 12 6 2 4 11),
     (0x93C624B0, .vcmulC32 12 6 2 4 11), (0x96124650, .vcmulcC16 1 2 4 6 5), (0x97123450, .vcmulcC32 1 2 3 4 5),
     (0x98124350, .vscaleS16 1 2 4 3 5), (0x99124350, .vscaleS32 1 2 4 3 5), (0x9A124350, .vscaleC16 1 2 4 3 5),
     (0x9B124350, .vscaleC32 1 2 4 3 5)] := by
  unfold Words; decide

/-- §3.1; the types it does not list by R86. -/
theorem test_words_magnitude_headroom_fft : Words
    [(0x9E132040, .vmagC16 1 3 2 4), (0x9F132040, .vmagC32 1 3 2 4), (0xA2132040, .vsqmagC16 1 3 2 4), (0xA3123040, .vsqmagC32 1 2 3 4),
     (0xA4502000, .vhrS16 5 2), (0xA5502000, .vhrS32 5 2), (0xA6502000, .vhrC16 5 2), (0xA7502000, .vhrC32 5 2),
     (0xC3010000, .vbitrevC32 1), (0xC7615000, .fftfC32 6 1 5), (0xCB816000, .fftiC32 8 1 6)] := by
  unfold Words; decide

/-- §3.2: the legal words at the edges. -/
theorem test_words_legal_edges : Words
    [(0x40D00000, .calcAddS16 13 0 0 0 0), (0x9E132010, .vmagC16 1 3 2 1), (0x9A124350, .vscaleC16 1 2 4 3 5),
     (0x08000000, .addi 0 0 0#16)] := by
  unfold Words; decide

/-- §3.2: the illegal words, each with the condition of R92 that fails. -/
theorem test_decode_refuses_by_name :
    decode 0x2C000000#32 = .error .unallocatedOp ∧ decode 0x00000001#32 = .error .unusedField ∧
      decode 0x0C123100#32 = .error .unusedField ∧ decode 0x09000000#32 = .error .typeNotAdmitted ∧
      decode 0x86132460#32 = .error .oddPair ∧ decode 0x8E000000#32 = .error .typeNotAdmitted ∧
      decode 0x40E00000#32 = .error .groupOverrun ∧ decode 0xC7F15000#32 = .error .groupOverrun ∧
      decode 0xC5615000#32 = .error .typeNotAdmitted ∧ decode 0xA6803000#32 = .error .oddPair ∧
      decode 0x9A123350#32 = .error .oddPair ∧ decode 0xC3110000#32 = .error .unusedField ∧
      decode 0x24041000#32 = .error .unusedField ∧ decode 0xFFFFFFFF#32 = .error .unallocatedOp := by
  decide

/-- 30_encoding.md R85: less than four bytes are no command. -/
theorem test_decode_refuses_truncated : decodeBytes [0x10#8, 0x10#8, 0x10#8] = .error .truncated := by decide

/-! ### Scalar commands (§6.1) -/

theorem test_lui : regsAfter (.lui 1 0x12350#20) (start [] 0 []) [1] = [0x12350000] := by decide
theorem test_addi_sign_extends : regsAfter (.addi 1 1 0x8000#16) (start [(1, 0x12350000)] 0 []) [1] = [0x12348000] := by decide
theorem test_addi_wraps : regsAfter (.addi 3 3 1#16) (start [(3, -1)] 0 []) [3] = [0] := by decide
theorem test_add_wraps : regsAfter (.add 3 1 2) (start [(1, 0x7FFFFFFF), (2, 1)] 0 []) [3] = [min32] := by decide
theorem test_sub : regsAfter (.sub 3 1 2) (start [(1, 0), (2, 5)] 0 []) [3] = [-5] := by decide
theorem test_write_to_x0_discarded : regsAfter (.addi 0 0 5#16) (start [] 0 []) [0] = [0] := by decide
theorem test_lw_negative_offset : regsAfter (.lw 1 2 0xFFFC#16) (start [(2, 0x104)] 0 (words32 0x100 [-5] [])) [1] = [-5] := by decide
theorem test_lw_misaligned : reportAfter (.lw 1 0 2#16) (start [] 0 []) = (.dataAlign, 2#32, 0#32) := by decide
theorem test_lw_out_of_memory : reportAfter (.lw 1 2 0#16) (start [(2, 0x10000)] 0 []) = (.dataBus, 0x10000#32, 0#32) := by decide
theorem test_sw_little_endian :
    (out (exec (.sw 5 2 0#16) (start [(5, -5), (2, 0x100)] 0 []))).mem = [(0x100, 0xFB#8), (0x101, 0xFF#8), (0x102, 0xFF#8), (0x103, 0xFF#8)] := by
  decide
theorem test_beq_taken : (out (exec (.beq 3 4 0xFFFE#16) { start [(3, 7), (4, 7)] 0 [] with pc := 0x40#32 })).pc = 0x38#32 := by decide
theorem test_beq_not_taken : (out (exec (.beq 3 4 0xFFFE#16) { start [(3, 7)] 0 [] with pc := 0x40#32 })).pc = 0x44#32 := by decide
theorem test_bne_taken : (out (exec (.bne 3 0 0xFFFA#16) { start [(3, 2)] 0 [] with pc := 0x40#32 })).pc = 0x28#32 := by decide
theorem test_bne_not_taken : (out (exec (.bne 0 0 0xFFFA#16) { start [] 0 [] with pc := 0x40#32 })).pc = 0x44#32 := by decide
theorem test_setvl : (out (exec (.setvl 4) (start [(4, 1)] 9 []))).vl = 1#32 := by decide
theorem test_hrs_s16 : regsAfter (.hrsS16 5 2) (start [(2, 0x100)] 0 []) [5] = [6] := by decide
theorem test_hrs_s16_ignores_high_half : regsAfter (.hrsS16 5 2) (start [(2, 0xABCDFFFF)] 0 []) [5] = [15] := by decide
theorem test_hrs_s32 : regsAfter (.hrsS32 5 2) (start [(2, min32)] 0 []) [5] = [0] := by decide
theorem test_halt : out (exec .halt { start [] 0 [] with pc := 0x28#32, abortReq := true }) =
    { State.reset with pc := 0x2C#32, doneBit := true } := by decide

/-! ### Calculators (§2): the exponents in x[3], x[4], the headrooms in x[5], x[6], the results from x[7] on -/

/-- The results of a calculator. -/
def calcAfter (i : Instr) (S : Bool) (eb ec hb hc : Int) : List Int :=
  regsAfter i { start [(3, eb), (4, ec), (5, hb), (6, hc)] 0 [] with allowSat := S } [7, 8, 9]

theorem test_calc_add_s16_scenario_1 : calcAfter (.calcAddS16 7 3 4 5 6) false 0 0 7 6 = [-5, -5, -5] := by decide
theorem test_calc_add_s16_clamps_shift : calcAfter (.calcAddS16 7 3 4 5 6) false (-100) 0 3 0 = [1, 16, 1] := by decide
theorem test_calc_add_s32_clamps_headroom : calcAfter (.calcAddS32 7 3 4 5 6) false 0 0 1000 0xFFFFFFFF = [-30, -30, -30] := by decide
theorem test_calc_add_c16 : calcAfter (.calcAddC16 7 3 4 5 6) false 10 (-10) 2 2 = [9, -1, 16] := by decide
/-- R136 by hand: max(0 − 21, 0 − 31) + 1 − 1 = −21. -/
theorem test_calc_add_c32_allow_sat : calcAfter (.calcAddC32 7 3 4 5 6) true 0 0 21 31 = [-21, -21, -21] := by decide
theorem test_calc_mul_s16 : calcAfter (.calcMulS16 7 3 4 5 6) false (-3) 5 2 3 = [13, 11, 0] := by decide
theorem test_calc_mul_s16_allow_sat : calcAfter (.calcMulS16 7 3 4 5 6) true (-3) 5 2 3 = [12, 10, 0] := by decide
theorem test_calc_mul_s32 : calcAfter (.calcMulS32 7 3 4 5 6) false 0 0 0 0 = [32, 32, 0] := by decide
theorem test_calc_mul_overflow :
    reportAfter (.calcMulS16 2 3 4 0 0) (start [(3, 0x7FFFFFFF), (4, 1)] 0 []) = (.expOverflow, 0x44203400#32, 0#32) := by decide
theorem test_calc_cmul_c16 : calcAfter (.calcCmulC16 7 3 4 5 6) false (-3) 5 2 3 = [14, 12, 0] := by decide
theorem test_calc_cmul_c32 : calcAfter (.calcCmulC32 7 3 4 5 6) false 0 0 0 0 = [33, 33, 0] := by decide
theorem test_calc_scale_s16 : calcAfter (.calcScaleS16 7 3 4 5 6) false (-4) 2 3 0x4000 = [11, 13, 0] := by decide
theorem test_calc_scale_s16_ignores_high_half : calcAfter (.calcScaleS16 7 3 4 5 6) false 0 0 0 0x12344000 = [16, 16, 0] := by decide
theorem test_calc_scale_s32 : calcAfter (.calcScaleS32 7 3 4 5 6) false 0 5 1 3 = [7, 2, 0] := by decide
/-- R140 by hand: h_α = 15 for α = −1, so sat_shr = 16 − 0 − 15 = 1. -/
theorem test_calc_scale_c16 : calcAfter (.calcScaleC16 7 3 4 5 6) false 0 0 0 0xFFFF = [1, 1, 0] := by decide
/-- R140 by hand: h_α = 0 for α = MIN32, so sat_shr = 32 − 4 − 0 = 28 and a_exp = −4 + 2 + 28. -/
theorem test_calc_scale_c32 : calcAfter (.calcScaleC32 7 3 4 5 6) false (-4) 2 4 min32 = [26, 28, 0] := by decide
theorem test_calc_mag_c16 : calcAfter (.calcMagC16 7 3 5) false 10 0 15 0 = [-4, -14, 0] := by decide
theorem test_calc_mag_c32 : calcAfter (.calcMagC32 7 3 5) true 0 0 31 0 = [-30, -30, 0] := by decide
theorem test_calc_sqmag_c16 : calcAfter (.calcSqmagC16 7 3 5) true 2 0 3 0 = [14, 10, 0] := by decide
theorem test_calc_sqmag_c32 : calcAfter (.calcSqmagC32 7 3 5) false (-1) 0 0 0 = [31, 33, 0] := by decide
/-- R89: only x[0] of a group is discarded. -/
theorem test_calc_group_at_x0 : regsAfter (.calcAddS16 0 3 4 5 6) (start [(5, 7), (6, 6)] 0 []) [0, 1, 2] = [0, -5, -5] := by decide

/-! ### Kernels (§4) -/

theorem test_vshl_s16 : vecAfter (.vshlS16 1 2 4 8) (kernel16 4 [0x1234, -0x8000, 1, 0] [] [] [] 4 0) .s16 4 =
    ([(0x7FFF, 0), (-0x8000, 0), (0x10, 0), (0, 0)], 0) := by decide +kernel
theorem test_vshl_s16_far_right : vecAfter (.vshlS16 1 2 4 8) (kernel16 4 [-1, 5, -0x8000, 0x7FFF] [] [] [] (-20) 0) .s16 4 =
    ([(-1, 0), (0, 0), (-1, 0), (0, 0)], 15) := by decide +kernel
theorem test_vshl_s32 : vecAfter (.vshlS32 1 2 4 8) (kernel32 2 [1, -3] [] 29 0) .s32 2 =
    ([(0x20000000, 0), (-0x60000000, 0)], 0) := by decide +kernel
/-- R162 by hand: 3 → 1 and −3 → −2, re and im apart. -/
theorem test_vshl_c16 : vecAfter (.vshlC16 1 2 4 8) (kernel16 1 [3] [-3] [] [] (-1) 0) .c16 1 = ([(1, -2)], 14) := by decide +kernel
/-- R162 by hand: 5 × 4 = 20 (26 redundant sign bits), MIN32 saturates. -/
theorem test_vshl_c32 : vecAfter (.vshlC32 1 2 4 8) (kernel32 1 [5, min32] [] 2 0) .c32 1 = ([(20, min32)], 0) := by decide +kernel
theorem test_vadd_s16 :
    vecAfter (.vaddS16 1 2 4 6 8 9) (kernel16 4 [0x4000, -0x8000, 0x7FFF, -1] [] [0x4000, -0x8000, 1, -1] [] 0 0) .s16 4 =
    ([(0x7FFF, 0), (-0x8000, 0), (0x7FFF, 0), (-2, 0)], 0) := by decide +kernel
/-- R163 by hand: floor(3/2) + floor(5/4) = 2, floor(−3/2) + floor(−5/4) = −4. -/
theorem test_vadd_s32_floors_each_term : vecAfter (.vaddS32 1 2 4 6 8 9) (kernel32 2 [3, -3] [5, -5] 1 2) .s32 2 =
    ([(2, 0), (-4, 0)], 29) := by decide +kernel
theorem test_vadd_c16 : vecAfter (.vaddC16 1 2 4 6 8 9) (kernel16 2 [100, -200] [-300, 0x7000] [1, 2] [3, 0x2000] 0 0) .c16 2 =
    ([(101, -297), (-198, 0x7FFF)], 0) := by decide +kernel
/-- R163 by hand: 1 + 10, 2 + 20. -/
theorem test_vadd_c32 : vecAfter (.vaddC32 1 2 4 6 8 9) (kernel32 1 [1, 2] [10, 20] 0 0) .c32 1 = ([(11, 22)], 26) := by decide +kernel
theorem test_vsub_s16_scenario_1 : vecAfter (.vsubS16 1 2 4 6 8 9) (kernel16 1 [-0x100] [] [0x100] [] (-5) (-5)) .s16 1 =
    ([(-0x4000, 0)], 1) := by decide +kernel
/-- R164: floor, then negate: 0 − MINB saturates, −3 − floor(−3/2) = −1. -/
theorem test_vsub_s32 : vecAfter (.vsubS32 1 2 4 6 8 9) (kernel32 2 [-3, min32] [-3, 0] 0 1) .s32 2 = ([(-1, 0), (min32, 0)], 0) := by
  decide +kernel
/-- R164 by hand. -/
theorem test_vsub_c16 : vecAfter (.vsubC16 1 2 4 6 8 9) (kernel16 1 [0] [7] [-0x8000] [9] 0 0) .c16 1 = ([(0x7FFF, -2)], 0) := by
  decide +kernel
/-- R164 by hand. -/
theorem test_vsub_c32 : vecAfter (.vsubC32 1 2 4 6 8 9) (kernel32 1 [1, 2] [10, 20] 0 0) .c32 1 = ([(-9, -18)], 26) := by decide +kernel
theorem test_vmul_s16 : vecAfter (.vmulS16 1 2 4 6 8) (kernel16 5 [0x4000, -0x8000, -0x8000, -1, 3] [] [0x4000, -0x8000, 0x7FFF, 1, -3] [] 15 0)
    .s16 5 = ([(0x2000, 0), (0x7FFF, 0), (-0x7FFF, 0), (-1, 0), (-1, 0)], 0) := by decide +kernel
/-- R165 by hand: 2^62 / 2^31 saturates, 2^60 / 2^31 = 2^29, −1 / 2^31 floors to −1. -/
theorem test_vmul_s32 : vecAfter (.vmulS32 1 2 4 6 8) (kernel32 3 [min32, 2 ^ 30, -1] [min32, 2 ^ 30, 1] 31 0) .s32 3 =
    ([(0x7FFFFFFF, 0), (2 ^ 29, 0), (-1, 0)], 0) := by decide +kernel
theorem test_vcmul_c16 : vecAfter (.vcmulC16 1 2 4 6 8) (kernel16 1 [1] [2] [3] [4] 0 0) .c16 1 = ([(-5, 10)], 11) := by decide +kernel
theorem test_vcmul_c32 : vecAfter (.vcmulC32 1 2 4 6 8) (kernel32 1 [min32, min32] [min32, min32] 31 0) .c32 1 =
    ([(0, 0x7FFFFFFF)], 0) := by decide +kernel
theorem test_vcmulc_c16 : vecAfter (.vcmulcC16 1 2 4 6 8) (kernel16 1 [1] [2] [3] [4] 0 0) .c16 1 = ([(11, 2)], 11) := by decide +kernel
/-- R167: b = c gives the squared magnitude and 0. -/
theorem test_vcmulc_c32 : vecAfter (.vcmulcC32 1 2 4 6 8) (kernel32 1 [min32, min32] [min32, min32] 31 0) .c32 1 =
    ([(0x7FFFFFFF, 0)], 0) := by decide +kernel
theorem test_vscale_s16 : vecAfter (.vscaleS16 1 2 4 9 8) (kernel16 4 [0x100, -0x8000, 0x7FFF, -1] [] [] [] 13 0x4000) .s16 4 =
    ([(0x200, 0), (-0x8000, 0), (0x7FFF, 0), (-2, 0)], 0) := by decide +kernel
/-- R168: α = −1 negates with saturation. -/
theorem test_vscale_s32 : vecAfter (.vscaleS32 1 2 4 9 8) (kernel32 2 [min32, 5] [] 0 (-1)) .s32 2 = ([(0x7FFFFFFF, 0), (-5, 0)], 0) := by
  decide +kernel
/-- R168: the high half of x[c] does not count. -/
theorem test_vscale_c16 : vecAfter (.vscaleC16 1 2 4 9 8) (kernel16 1 [5] [-6] [] [] 0 0x70002) .c16 1 = ([(10, -12)], 11) := by
  decide +kernel
/-- R168 by hand: floor(5 × 3 / 2), floor(−5 × 3 / 2). -/
theorem test_vscale_c32 : vecAfter (.vscaleC32 1 2 4 9 8) (kernel32 1 [5, -5] [] 1 3) .c32 1 = ([(7, -8)], 28) := by decide +kernel
theorem test_vmag_c16 : vecAfter (.vmagC16 1 2 4 8) (kernel16 4 [3, -0x8000, 0x7FFF, -1] [4, -0x8000, 0x7FFF, 0] [] [] 1 0) .s16 4 =
    ([(2, 0), (23170, 0), (23169, 0), (1, 0)], 0) := by decide +kernel
/-- R169 by hand: isqrt(2 × 2^60) = 1518500249. -/
theorem test_vmag_c32 : vecAfter (.vmagC32 1 2 4 8) (kernel32 1 [min32, min32] [] 1 0) .s32 1 = ([(1518500249, 0)], 0) := by decide +kernel
theorem test_vsqmag_c16 :
    vecAfter (.vsqmagC16 1 2 4 8) (kernel16 4 [3, -0x8000, 0x4000, -0x4000] [4, -0x8000, 0x4000, -0x4000] [] [] 17 0) .s16 4 =
    ([(0, 0), (0x4000, 0), (0x1000, 0), (0x1000, 0)], 0) := by decide +kernel
/-- R170 by hand: 3² + 4² = 25. -/
theorem test_vsqmag_c32 : vecAfter (.vsqmagC32 1 2 4 8) (kernel32 1 [3, 4] [] 0 0) .s32 1 = ([(25, 0)], 26) := by decide +kernel
theorem test_vhr_s16 : regsAfter (.vhrS16 1 4) (kernel16 2 [0x100, -0x100] [] [] [] 0 0) [1] = [6] := by decide +kernel
theorem test_vhr_s16_empty : regsAfter (.vhrS16 1 4) (kernel16 0 [0x100] [] [] [] 0 0) [1] = [15] := by decide +kernel
theorem test_vhr_s32 : regsAfter (.vhrS32 1 4) (kernel32 3 [1, 2, 3] [] 0 0) [1] = [29] := by decide +kernel
theorem test_vhr_c16 : regsAfter (.vhrC16 1 4) (kernel16 1 [1] [-0x300] [] [] 0 0) [1] = [5] := by decide +kernel
theorem test_vhr_c32 : regsAfter (.vhrC32 1 4) (kernel32 1 [1, 0x40000000] [] 0 0) [1] = [0] := by decide +kernel
/-- 20_memory.md R74: the output one element behind the input; each stored element feeds the next. -/
theorem test_kernel_partial_overlap :
    (vecRead (out (exec (.vshlS32 1 2 4 8) (start [(2, 0x104), (4, 0x100), (8, 1)] 3 (words32 0x100 [1, 2, 3, 4] [])))).mem
      ⟨.s32, 0x100, 0⟩ 4).map Elem.re = [1, 2, 4, 8] := by decide +kernel
/-- §4's checks: alignment of every operand comes before every range. -/
theorem test_kernel_alignment_before_range :
    reportAfter (.vaddS32 1 2 3 4 0 0) (start [(2, 0x1002), (3, 0x1010), (4, 0xFFF8)] 4 []) = (.dataAlign, 0x1002#32, 0#32) ∧
      reportAfter (.vaddS32 1 2 3 4 0 0) (start [(2, 0x1000), (3, 0x1010), (4, 0xFFF8)] 4 []) = (.dataBus, 0xFFF8#32, 0#32) := by
  decide +kernel
/-- R88: the im base of a c16 operand is x[n+1]. -/
theorem test_kernel_c16_im_base_checked :
    reportAfter (.vaddC16 1 2 4 6 0 0) (start [(2, 0x1000), (3, 0x1002), (4, 0x1010), (5, 0x1018)] 2 []) =
      (.dataAlign, 0x1002#32, 0#32) := by decide +kernel

/-! ### FFT (§5) -/

/-- The buffer at 0x200 after an FFT command, x[6] and x[7]. -/
def fftAfter (i : Instr) (n : Nat) (e : Int) (x : List Int) : List (Int × Int) × Int × Int :=
  let t := out (exec i (start [(1, 0x200), (5, e)] n (words32 0x200 x [])))
  ((vecRead t.mem ⟨.c32, 0x200, 0⟩ n).map (fun e => (e.re, e.im)), s32 (t.reg 6), s32 (t.reg 7))

/-- F1. -/
theorem test_fftf_f1 : fftAfter (.fftfC32 6 1 5) 4 0 [1, 0, 2, 0, 3, 0, 4, 0] = ([(10, 0), (-2, 2), (-2, 0), (-2, -2)], 0, 27) := by
  decide +kernel
/-- F6: the scaling before passes 0 and 1. -/
theorem test_fftf_f6 : fftAfter (.fftfC32 6 1 5) 4 3 [min32, min32, min32, min32, min32, min32, min32, min32] =
    ([(min32, min32), (0, 0), (0, 0), (0, 0)], 5, 0) := by decide +kernel
/-- 43_fft.md R201's example. -/
theorem test_ffti : fftAfter (.fftiC32 6 1 5) 4 0 [10, 0, -2, 2, -2, 0, -2, -2] = ([(4, 0), (8, 0), (12, 0), (16, 0)], -2, 26) := by
  decide +kernel
/-- 43_fft.md R197's example. -/
theorem test_vbitrev : fftAfter (.vbitrevC32 1) 8 0 [0, 9, 1, 0, 2, 0, 3, 0, 4, 0, 5, 0, 6, 0, 7, 0] =
    ([(0, 9), (4, 0), (2, 0), (6, 0), (1, 0), (5, 0), (3, 0), (7, 0)], 0, 0) := by decide +kernel
/-- §5.1: TW for NMAX = 16. -/
theorem test_twiddles :
    (List.range 8).map (fun k => (twiddleRe 4 k, twiddleIm 4 k)) =
      [(1073741824, 0), (992008094, -410903207), (759250125, -759250125), (410903207, -992008094), (0, -1073741824),
       (-410903207, -992008094), (-759250125, -759250125), (-992008094, -410903207)] := by decide +kernel
/-- F-CK3, F-CK12: the length is checked first. -/
theorem test_fft_bad_length : reportAfter (.fftfC32 6 1 5) (start [(1, 0x3002), (5, 0x7FFFFFFF)] 6 []) = (.badLength, 6#32, 0#32) ∧
    reportAfter (.fftfC32 6 1 5) (start [(1, 0x3000)] 32 []) = (.badLength, 32#32, 0#32) := by decide +kernel
/-- F-CK9, F-CK11. -/
theorem test_fft_exponent_overflow :
    reportAfter (.fftfC32 6 1 5) (start [(1, 0x3000), (5, 0x7FFFFFFC)] 4 []) = (.expOverflow, 0x7FFFFFFC#32, 0#32) ∧
      reportAfter (.fftiC32 6 1 5) (start [(1, 0x3000), (5, -2 ^ 31 + 1)] 4 []) = (.expOverflow, 0x80000001#32, 0#32) := by decide +kernel

/-! ### The sequencer and the host (§6.2-§6.4) -/

/-- A word where the next step fetches it. -/
theorem test_step_runs_placed_word : s32 ((out (step (State.reset.withFetchWord 32 0x08101010))).reg 1) = 0x1010 := by decide
/-- E1. -/
theorem test_fetch_misaligned : out (step { start [] 0 [] with pc := 2#32 }) =
    { State.reset with pc := 2#32, epc := 2#32, finfo := 2#32, cause := .fetchAlign, faultBit := true, freeCount := 1 } := by decide
/-- E2. -/
theorem test_fetch_out_of_memory : out (step { start [] 0 [] with pc := 0x10000#32 }) =
    { State.reset with
      pc := 0x10000#32, epc := 0x10000#32, finfo := 0x10000#32, cause := .fetchBus, faultBit := true, freeCount := 1 } := by decide
/-- E3. -/
theorem test_illegal_word : (out (step (start [] 0 (words32 0 [0x2C000000] [])))).finfo = 0x2C000000#32 ∧
    (out (step (start [] 0 (words32 0 [0x2C000000] [])))).cause = .illegal := by decide
/-- P6's last command: the abort is taken after it, at the branch target. -/
theorem test_abort_at_boundary :
    let t := out (step { start [] 0 (words32 8 [0x1C00FFFF] []) with pc := 8#32, abortReq := true })
    t.run = .idle ∧ t.cause = .aborted ∧ t.epc = 4#32 ∧ t.pc = 4#32 ∧ t.finfo = 0#32 ∧ t.abortReq = false := by decide
/-- W1, W2. -/
theorem test_window_id_cfg : (out (step { State.reset with hostQueue := [.read 0] })).hostData = 0x42465031#32 ∧
    (out (step { State.reset with hostQueue := [.read 4] })).hostData = 4#32 := by decide
/-- W4. -/
theorem test_ctrl_policy_bits : let t := out (step { State.reset with hostQueue := [.write 8 6#32] })
    t.allowSat = true ∧ t.irqEn = true ∧ t.run = .idle ∧ ctrlWord t = 6#32 := by decide
/-- W5, W6. -/
theorem test_ctrl_start_and_idle_abort : (out (step { State.reset with hostQueue := [.write 8 1#32] })).run = .run ∧
    out (step { State.reset with hostQueue := [.write 8 8#32] }) = State.reset := by decide
/-- W7. -/
theorem test_pc_write_dropped_while_run : (out (step { start [] 0 [] with hostQueue := [.write 0x10 0x100#32] })).pc = 0#32 := by decide
/-- W8, W10. -/
theorem test_x0_write_ignored_and_reserved_reads_zero : out (step { State.reset with hostQueue := [.write 0x40 5#32] }) = State.reset ∧
    (out (step { State.reset with hostData := 7#32, hostQueue := [.read 0x20] })).hostData = 0#32 := by decide
/-- W9. -/
theorem test_status_write_clears_done : (out (step { State.reset with doneBit := true, hostQueue := [.write 0x0C 2#32] })).doneBit = false := by
  decide
/-- 10_state.md R50: a misaligned window access has no move. -/
theorem test_misaligned_window_access_refused : step { State.reset with hostQueue := [.read 2] } = .refused .hostAccess := by rfl
/-- 20_memory.md R78: a byte that the run did not touch takes the host's value, and reads as it. -/
theorem test_host_store_while_run :
    let t := out (step { start [] 0 [] with hostQueue := [.store 0x500#32 7#8, .load 0x500#32] })
    t.mem.read 0x500 = 7#8 ∧ t.run = .run ∧ (out (step t)).hostData = 7#32 := by decide
/-- 20_memory.md R78: host accesses in the middle of the bytes of an LW; those the run does not touch are exact. -/
theorem test_host_load_outside_run_is_exact :
    (out (step { start [] 0 (words32 0x100 [0x11223344] []) with hostQueue := [.load 0x102#32] })).hostData = 0x22#32 := by decide
/-- 20_memory.md R78: a host load of a byte that the next command will write is a race before either access, also where that command comes
after the host's last move; a load of another byte is none. -/
theorem test_races_are_foreseen :
    let s := start [(5, -5), (2, 0x300)] 0 (words32 0 [0x18520000] [])
    racesAhead [.load 0x300#32, .pass] s = [0x300] ∧ racesAhead [.load 0x300#32] s = [0x300] ∧ racesAhead [.load 0x304#32] s = [] ∧
      racesAhead [.pass, .load 0x300#32, .pass] s = [0x300] := by decide
/-- 20_memory.md R78: a run that loops for ever and stores nothing does not race for a byte that the host loaded. -/
theorem test_endless_run_without_race :
    racesAhead [.load 0x300#32] (start [(2, 0x300)] 0 (words32 0 [0x08320001, 0x1C00FFFF] [])) = [] := by decide +kernel
/-- 20_memory.md R78: a run that for ever reads a byte the host stored to (LW x0, 0(x2); BEQ back to it) touches just that word and its two
command words, however far it is followed. -/
theorem test_polling_run_touches_its_own_bytes :
    let s := start [(2, 0x300)] 0 (words32 0 [0x14020000, 0x1C00FFFF] [])
    let r := alone State.race 9 s 1 1 { s with race := { Race.none with hostStored := [0x300], hostLoaded := [0x500] } }
    r.bytes = [0x300] ∧ r.runWrote = [] ∧ r.runRead.all (fun p => p.base = 0 ∨ p.base = 4 ∨ p.base = 0x300) = true := by decide +kernel
/-- 20_memory.md R78: the run has ended, by the HALT, when the host loads; there is no race, also where one is foretold. -/
theorem test_no_race_after_the_run : racesAhead [.foretell 0x300#32, .pass, .pass, .load 0x300#32]
    (start [(5, -5), (2, 0x300)] 0 (words32 0 [0x18520000] [])) = [] := by decide
/-- 20_memory.md R66: a fetch that faults reads no memory. -/
theorem test_faulting_fetch_reads_nothing : accessed { start [] 0 [] with pc := 2#32 } = [] ∧
    racesAhead [.store 2#32 1#8, .load 2#32, .pass] { start [] 0 [] with pc := 2#32 } = [] := by decide
/-- 20_memory.md R78: what a run reads and writes is recorded. -/
theorem test_run_accesses_recorded :
    (out (step (start [(5, -5), (2, 0x100)] 0 (words32 0 [0x18520000] [])))).race =
      { Race.none with runRead := [⟨0, 4⟩], runWrote := [⟨0x100, 4⟩] } := by decide
/-- 70_reset_and_hazards.md R250 by hand: the byte writes of a VSHL that doubles two 16-bit elements, and of VBITREV on zeros. -/
theorem test_command_cells :
    commandCells (.vshlS16 1 2 4 8) (kernel16 2 [1, -1] [] [] [] 1 0) = [(0x200, 2#8), (0x201, 0#8), (0x202, 0xFE#8), (0x203, 0xFF#8)] ∧
      (commandCells (.fftfC32 6 1 5) (start [(1, 0x200)] 4 [])).all (fun c => c.2 == 0#8) = true := by decide +kernel
/-- 70_reset_and_hazards.md R250: a reset inside an SW. -/
theorem test_reset_inside_store :
    let t := out (step { start [(5, -5), (2, 0x100)] 0 (words32 0 [0x18520000] []) with hostQueue := [.reset] })
    t.run = .idle ∧ t.reg 5 = 0#32 ∧ t.pc = 0#32 := by decide

/-! ### The hypotheses of the statements can be met: for each statement that has some, a state and operands that meet them, clause by
clause at the edges of their ranges -/

theorem rangeOk_of {c : Config} {a n : Nat} (h : rangeValid c a n = true) : RangeOk c a n := (rangeValid_iff c a n).1 h

theorem not_rangeOk_of {c : Config} {a n : Nat} (h : rangeValid c a n = false) : ¬RangeOk c a n := fun h' => by
  rw [(rangeValid_iff c a n).2 h'] at h; cases h

/-- The operands pass their checks. -/
def checksPass (s : State) (vs : List Vec) : Bool :=
  vs.all (fun v => v.arrays.all (fun r => r.start % r.align == 0 && rangeValid s.cfg r.start (r.elemBytes * u32 s.vl)))

theorem operandsOk_of {s : State} {vs : List Vec} (h : checksPass s vs = true) : OperandsOk s vs := by
  intro v hv r hr
  have := List.all_eq_true.1 (List.all_eq_true.1 h v hv) r hr
  simp only [Bool.and_eq_true, beq_iff_eq] at this
  exact ⟨this.1, rangeOk_of this.2⟩

/-- A command word in the last word of memory, PC on it. -/
def atEnd (w : Int) : State := { start [] 0 (words32 0xFFFC [w] []) with pc := 0xFFFC#32 }

/-- A run whose next command stores x[5] at x[2] = 0x300, with host accesses in it. -/
def racing : State := { start [(2, 0x300)] 0 (words32 0 [0x18520000] []) with
  race := { Race.none with foretold := [0x400], hostStored := [0x300], hostLoaded := [0x404, 0x408], runWrote := [⟨0x404, 4⟩] } }

/-- The host's next move at a state. -/
def hosted (s : State) (h : HostAct) : State := { s with hostQueue := [h] }

theorem witness_DecodeOfEncodeIsIdentity :
    (Instr.calcAddC32 13 15 0 15 7).wellFormed = true ∧ (Instr.vaddC16 15 14 0 2 15 15).wellFormed = true := by decide

theorem witness_EncodeOfDecodeIsIdentity : decode 0x40D00000#32 = .ok (.calcAddS16 13 0 0 0 0) := by decide

theorem witness_DecodeFollowsOpcodeTable :
    decode 0x40D00000#32 = .ok (.calcAddS16 13 0 0 0 0) ∧ (20, 4, 13) ∈ operandFields (.calcAddS16 13 0 0 0 0) ∧
      ∃ r ∈ opcodeRows, RowMatches r 0x40D00000#32 ∧ 0x40D00000#32 &&& r.mask = r.bits :=
  ⟨by decide, by decide, ⟨"CALC.ADD.s16", 0xFF0F0000#32, 0x40000000#32, 13⟩, by decide, ⟨by decide, by decide⟩, by decide⟩

theorem witness_StepRunsDecodedCommand : ∃ t, (atEnd 0x08101010).hostQueue = [] ∧ (atEnd 0x08101010).run = .run ∧
    u32 (atEnd 0x08101010).pc % 4 = 0 ∧ RangeOk (atEnd 0x08101010).cfg (u32 (atEnd 0x08101010).pc) 4 ∧
    decode (((atEnd 0x08101010).view (atEnd 0x08101010).mem 0).readWord (u32 (atEnd 0x08101010).pc)) = .ok (.addi 1 0 0x1010#16) ∧
    exec (.addi 1 0 0x1010#16) (atEnd 0x08101010) = .next t ∧ (atEnd 0x08101010).clouded = [] :=
  ⟨_, by decide, by decide, by decide, rangeOk_of (by decide), by decide, rfl, by decide⟩

theorem witness_BoundaryTakesAbort :
    ({ start [] 0 [] with abortReq := true }.run = .run ∧ { start [] 0 [] with abortReq := true }.abortReq = true) ∧
      ((start [] 0 []).run = .run ∧ (start [] 0 []).abortReq = false) ∧ State.reset.run = .idle := by decide

theorem witness_FetchFaultsAreRaised :
    (∃ s : State, s.hostQueue = [] ∧ s.run = .run ∧ u32 s.pc % 4 ≠ 0) ∧
      (∃ s : State, s.hostQueue = [] ∧ s.run = .run ∧ u32 s.pc % 4 = 0 ∧ ¬RangeOk s.cfg (u32 s.pc) 4) ∧
      ∃ s : State, s.hostQueue = [] ∧ s.run = .run ∧ u32 s.pc % 4 = 0 ∧ RangeOk s.cfg (u32 s.pc) 4 ∧
        ∀ i, decode ((s.view s.mem 0).readWord (u32 s.pc)) ≠ .ok i := by
  refine ⟨⟨{ start [] 0 [] with pc := 0xFFFF#32 }, by decide⟩,
    ⟨{ start [] 0 [] with pc := 0x10000#32 }, by decide, by decide, by decide, not_rangeOk_of (by decide)⟩,
    ⟨atEnd 0x2C000000, by decide, by decide, by decide, rangeOk_of (by decide), fun i h => ?_⟩⟩
  have e : decode (((atEnd 0x2C000000).view (atEnd 0x2C000000).mem 0).readWord (u32 (atEnd 0x2C000000).pc)) = .error .unallocatedOp := by
    decide
  rw [e] at h; cases h

theorem witness_IdleMachineStaysAsItIs : State.reset.hostQueue = [] ∧ State.reset.run = .idle := by decide

theorem witness_CommandsLeaveControlAlone : ∃ t, exec (.setvl 4) (start [(4, 1)] 0 []) = .next t := ⟨_, rfl⟩

theorem witness_OnlySetvlWritesVl : ∃ t, exec (.setvl 4) (start [(4, 1)] 0 []) = .next t ∧ t.vl ≠ (start [(4, 1)] 0 []).vl :=
  ⟨_, rfl, by decide⟩

theorem witness_CommandsWriteOnlyTheirResults : ∃ t, exec (.fftfC32 14 1 5) (start [(1, 0x200)] 4 []) = .next t ∧
    (13 : Reg) ∉ destinations (.fftfC32 14 1 5) := ⟨_, rfl, by decide⟩

theorem witness_CommandsWriteOnlyTheirBytes : ∃ t, exec (.sw 5 2 0#16) (start [(2, 0x100)] 0 []) = .next t ∧
    inSpans (storeSpans (.sw 5 2 0#16) (start [(2, 0x100)] 0 [])) 0xFF = false ∧
    inSpans (storeSpans (.sw 5 2 0#16) (start [(2, 0x100)] 0 [])) 0x104 = false := ⟨_, rfl, by decide, by decide⟩

/-- A running state with no host access meets the invariant. -/
theorem inv_start (m : Memory) (h : m.wf) (pc : Word) (abort : Bool) :
    Inv { start [] 0 m with pc := pc, abortReq := abort } :=
  ⟨h, (show Config.reference.wf by decide), by simp [start, State.reset, State.afterReset], by simp [start, State.reset, State.afterReset],
    by simp [start, State.reset, State.afterReset], by simp [start], by simp [start],
    by simp [start, State.reset, State.afterReset, Race.none]⟩

theorem witness_RunsEndInOneOfThreeWays :
    (∃ t, Inv { start [] 0 [] with pc := 0#32, abortReq := false } ∧ step { start [] 0 [] with pc := 0#32, abortReq := false } = .next t ∧
        t.run = .idle ∧ runEnd t = some .done) ∧
      (∃ t, Inv { start [] 0 [] with pc := 2#32, abortReq := false } ∧ step { start [] 0 [] with pc := 2#32, abortReq := false } = .next t ∧
        t.run = .idle ∧ runEnd t = some .fault) ∧
      ∃ t, Inv { start [] 0 (words32 0 [0x08000000] []) with pc := 0#32, abortReq := true } ∧
        step { start [] 0 (words32 0 [0x08000000] []) with pc := 0#32, abortReq := true } = .next t ∧ t.run = .idle ∧
        runEnd t = some .aborted :=
  ⟨⟨_, inv_start _ (by decide) _ _, rfl, by decide, by decide⟩, ⟨_, inv_start _ (by decide) _ _, rfl, by decide, by decide⟩,
    ⟨_, inv_start _ (by decide) _ _, rfl, by decide, by decide⟩⟩

theorem witness_PlacedWordRunsNext : ∃ t, decode 0x08101010#32 = .ok (.addi 1 0 0x1010#16) ∧
    exec (.addi 1 0 0x1010#16) (State.reset.withFetchWord 32 (u32 0x08101010#32)) = .next t := ⟨_, by decide, rfl⟩

theorem witness_StepKeepsInvariant : ∃ t, Inv { start [] 0 [] with pc := 0#32, abortReq := true } ∧
    step { start [] 0 [] with pc := 0#32, abortReq := true } = .next t := ⟨_, inv_start _ (by decide) _ _, rfl⟩

theorem witness_ResetMeetsInvariant : Config.reference.wf ∧ Memory.wf [(0, 1#8), (0xFFFFFFFF, 2#8)] ∧
    { Config.reference with maxFftLog2 := 28, coreBase := 256 }.wf := by decide

/-- Below the window, at its end, and misaligned in it. -/
theorem witness_OnlyIllegalHostAccessIsRefused :
    ({ Config.reference with coreBase := 256 }.wf ∧ 255 < { Config.reference with coreBase := 256 }.coreBase) ∧
      (hosted State.reset (.read 256)).hostQueue = .read 256 :: [] ∧ (hosted State.reset (.read 256)).cfg.coreBase + 256 ≤ 256 ∧
      (hosted State.reset (.write 2 0#32)).hostQueue = .write 2 0#32 :: [] ∧ (2 - (hosted State.reset (.write 2 0#32)).cfg.coreBase) % 4 ≠ 0 := by
  decide

theorem witness_ShiftFloorsForEveryAmount : (0 : Int) ≤ 0 ∧ (-1 : Int) < 0 ∧ minB 16 ≤ -32768 ∧ (-32768 : Int) ≤ maxB 16 ∧
    ((16 : Nat) : Int) ≤ 16 := by decide

theorem witness_HeadroomCountsRedundantSignBits : minB 16 ≤ -32768 ∧ (-32768 : Int) ≤ maxB 16 ∧ (0 : Nat) < cls 16 (-32768) ∧
    cls 16 (-32768) < 16 ∧ 15 ≤ 16 - 1 := by decide

theorem witness_BitReversalReversesBits : 7 < 2 ^ 3 ∧ 2 < 3 := by decide

theorem witness_TwiddleRomIsNearest : 2 ≤ 2 ∧ 1 < 2 ^ (2 - 1) ∧ 2 ≤ 28 ∧ 2 ^ 27 - 1 < 2 ^ (28 - 1) := by decide

theorem witness_LoadWordLoadsOrFaults :
    (2#32 = wrap32 ((u32 ((start [] 0 []).reg 0) : Int) + (2#16).toInt) ∧ u32 2#32 % 4 ≠ 0) ∧
      (0x10000#32 = wrap32 ((u32 ((start [(2, 0x10000)] 0 []).reg 2) : Int) + (0#16).toInt) ∧ u32 0x10000#32 % 4 = 0 ∧
        ¬RangeOk (start [] 0 []).cfg (u32 0x10000#32) 4) ∧
      (0xFFFC#32 = wrap32 ((u32 ((start [(2, 0x10000)] 0 []).reg 2) : Int) + (0xFFFC#16).toInt) ∧ u32 0xFFFC#32 % 4 = 0 ∧
        RangeOk (start [] 0 []).cfg (u32 0xFFFC#32) 4) :=
  ⟨⟨by decide, by decide⟩, ⟨by decide, by decide, not_rangeOk_of (by decide)⟩, ⟨by decide, by decide, rangeOk_of (by decide)⟩⟩

theorem witness_StoreWordStoresOrFaults :
    (1#32 = wrap32 ((u32 ((start [] 0 []).reg 0) : Int) + (1#16).toInt) ∧ u32 1#32 % 4 ≠ 0) ∧
      (0x10000#32 = wrap32 ((u32 ((start [(2, 0x10000)] 0 []).reg 2) : Int) + (0#16).toInt) ∧ u32 0x10000#32 % 4 = 0 ∧
        ¬RangeOk (start [] 0 []).cfg (u32 0x10000#32) 4) ∧
      (0xFFFC#32 = wrap32 ((u32 ((start [(2, 0x10000)] 0 []).reg 2) : Int) + (0xFFFC#16).toInt) ∧ u32 0xFFFC#32 % 4 = 0 ∧
        RangeOk (start [] 0 []).cfg (u32 0xFFFC#32) 4) :=
  ⟨⟨by decide, by decide⟩, ⟨by decide, by decide, not_rangeOk_of (by decide)⟩, ⟨by decide, by decide, rangeOk_of (by decide)⟩⟩

theorem witness_ScalarHeadroomIsWritten :
    (Instr.hrsS32 15 0, ElemTy.s32) ∈ [(Instr.hrsS16 15 0, ElemTy.s16), (Instr.hrsS32 15 0, ElemTy.s32)] := by decide

/-- Scenario 1 of §1.1 with the last legal group; and the ends of the signed 32-bit range. -/
theorem witness_CalcAddWritesItsGroup :
    (Instr.calcAddS16 13 0 0 5 6, ElemTy.s16) ∈ [(Instr.calcAddS16 13 0 0 5 6, ElemTy.s16), (Instr.calcAddS32 13 0 0 5 6, ElemTy.s32)] ∧
      (13 : Reg).val ≤ 13 ∧ addOutputs (bits .s16) (start [(5, 7), (6, 6)] 0 []) 0 0 5 6 = [-5, -5, -5] ∧ Fits (-5) ∧
      Fits (2 ^ 31 - 1) ∧ Fits (-2 ^ 31) := by
  unfold Fits; decide

theorem witness_ProductCalculatorsWriteTheirGroup : (14 : Reg).val ≤ 14 ∧
    (Fits 32 ∧ (Instr.calcMulS32 14 0 0 0 0, ElemTy.s32) ∈ [(Instr.calcMulS16 14 0 0 0 0, ElemTy.s16), (Instr.calcMulS32 14 0 0 0 0, ElemTy.s32)] ∧
      mulOutputs (bits .s32) (start [] 0 []) 0 0 0 0 = [32, 32]) ∧
    (Fits 0 ∧ (Instr.calcCmulC16 14 0 0 8 9, ElemTy.c16) ∈ [(Instr.calcCmulC16 14 0 0 8 9, ElemTy.c16), (Instr.calcCmulC32 14 0 0 8 9, ElemTy.c32)] ∧
      cmulOutputs (bits .c16) (start [(8, 8), (9, 9)] 0 []) 0 0 8 9 = [0, 0]) ∧
    (Fits 1 ∧ (Instr.calcScaleS16 14 0 0 0 6, ElemTy.s16) ∈ [(Instr.calcScaleS16 14 0 0 0 6, ElemTy.s16)] ∧
      scaleOutputs (bits .s16) (start [(6, 0xFFFF)] 0 []) 0 0 0 6 = [1, 1]) := by unfold Fits; decide

theorem witness_MagnitudeCalculatorsWriteTheirGroup : (14 : Reg).val ≤ 14 ∧
    (Fits (-30) ∧ (Instr.calcMagC32 14 0 5, ElemTy.c32) ∈ [(Instr.calcMagC16 14 0 5, ElemTy.c16), (Instr.calcMagC32 14 0 5, ElemTy.c32)] ∧
      magOutputs (bits .c32) (start [(5, 31)] 0 []) 0 5 = [-30, -30]) ∧
    (Fits 0 ∧ (Instr.calcSqmagC16 14 0 5, ElemTy.c16) ∈ [(Instr.calcSqmagC16 14 0 5, ElemTy.c16), (Instr.calcSqmagC32 14 0 5, ElemTy.c32)] ∧
      sqmagOutputs (bits .c16) (start [(5, 15)] 0 []) 0 5 = [0, 0]) := by unfold Fits; decide

theorem witness_CalculatorOverflowFaults :
    calcOutputs (.calcMulS16 2 3 4 0 0) (start [(3, 0x7FFFFFFF), (4, 1)] 0 []) = some [2 ^ 31 + 16, 16] ∧ ¬Fits (2 ^ 31 + 16) := by
  unfold Fits; decide

theorem witness_CalcAddRulesOutSaturation : (15 : Nat) ≤ 16 - 1 ∧ calcAddOut 16 0 0 0 15 15 = [-14, -14, -14] ∧
    calcAddOut 16 1 0 0 15 15 = [-15, -15, -15] ∧ HeadroomAtLeast 16 15 (-1) ∧ HeadroomAtLeast 16 15 0 := by
  unfold HeadroomAtLeast; decide

theorem witness_CalculatorsAreMonotoneInHeadroom : (0 : Int) ≤ 15 ∧
    (calcAddOut 16 0 0 0 15 15).head? = some (-14) ∧ (calcAddOut 16 0 0 0 0 0).head? = some 1 := by decide

theorem witness_PairedKernelsNeverSaturate : (0 : Nat) ≤ 16 - 1 ∧ HeadroomAtLeast 16 0 (-32768) ∧ HeadroomAtLeast 16 0 32767 ∧
    calcAddOut 16 0 0 0 0 0 = [1, 1, 1] ∧ calcMulOut 16 0 0 0 0 0 = [16, 16] ∧ calcCmulOut 16 0 0 0 0 0 = [17, 17] ∧
    calcMagOut 0 0 = [1, 1] ∧ calcSqmagOut 16 0 0 0 = [17, 17] := by unfold HeadroomAtLeast; decide

/-- A c16 addition whose second array is misaligned, and an s32 one whose last array passes the end of memory. -/
theorem witness_KernelChecksFaultInOrder :
    (∃ vs pre post r, kernelOperands (.vaddC16 1 2 4 6 0 0) (start [(2, 0x1000), (3, 0x1002)] 2 []) = some vs ∧
      vs.flatMap Vec.arrays = pre ++ r :: post ∧ (∀ q ∈ pre, q.start % q.align = 0) ∧ r.start % r.align ≠ 0) ∧
    ∃ vs pre post r, kernelOperands (.vaddS32 1 2 3 4 0 0) (start [(2, 0x1000), (3, 0xFFF0), (4, 0xFFF4)] 4 []) = some vs ∧
      vs.flatMap Vec.arrays = pre ++ r :: post ∧ (∀ q ∈ pre ++ r :: post, q.start % q.align = 0) ∧
      (∀ q ∈ pre, RangeOk Config.reference q.start (q.elemBytes * 4)) ∧ ¬RangeOk Config.reference r.start (r.elemBytes * 4) := by
  refine ⟨⟨[⟨.c16, 0x1000, 0x1002⟩, ⟨.c16, 0, 0⟩, ⟨.c16, 0, 0⟩], [⟨0x1000, 2, 8⟩],
      [⟨0, 2, 8⟩, ⟨0, 2, 8⟩, ⟨0, 2, 8⟩, ⟨0, 2, 8⟩], ⟨0x1002, 2, 8⟩, by decide, by decide, by decide, by decide⟩,
    [⟨.s32, 0x1000, 0xFFF0⟩, ⟨.s32, 0xFFF0, 0xFFF4⟩, ⟨.s32, 0xFFF4, 0⟩], [⟨0x1000, 4, 4⟩, ⟨0xFFF0, 4, 4⟩], [], ⟨0xFFF4, 4, 4⟩,
    by decide, by decide, by decide, fun q h => ?_, not_rangeOk_of (by decide)⟩
  simp only [List.mem_cons, List.not_mem_nil, or_false] at h
  rcases h with rfl | rfl <;> exact rangeOk_of (by decide)

theorem witness_VshlShiftsEveryPart : ∃ s, s = kernel16 4 [] [] [] [] 4 0 ∧
    (Instr.vshlC16 1 2 4 8, ElemTy.c16) ∈ [(Instr.vshlS16 1 2 4 8, ElemTy.s16), (Instr.vshlS32 1 2 4 8, ElemTy.s32), (Instr.vshlC16 1 2 4 8, ElemTy.c16), (Instr.vshlC32 1 2 4 8, ElemTy.c32)] ∧
      OperandsOk s [vecOf s .c16 2, vecOf s .c16 4] := ⟨_, rfl, by decide, operandsOk_of (by decide)⟩

theorem witness_SumKernelsAddAndSubtract : ∃ s, s = kernel16 4 [] [] [] [] 4 0 ∧
    (Instr.vaddC16 1 2 4 6 8 9, ElemTy.c16) ∈ [(Instr.vaddS16 1 2 4 6 8 9, ElemTy.s16), (Instr.vaddS32 1 2 4 6 8 9, ElemTy.s32), (Instr.vaddC16 1 2 4 6 8 9, ElemTy.c16), (Instr.vaddC32 1 2 4 6 8 9, ElemTy.c32)] ∧
      (Instr.vsubC16 1 2 4 6 8 9, ElemTy.c16) ∈ [(Instr.vsubS16 1 2 4 6 8 9, ElemTy.s16), (Instr.vsubS32 1 2 4 6 8 9, ElemTy.s32), (Instr.vsubC16 1 2 4 6 8 9, ElemTy.c16), (Instr.vsubC32 1 2 4 6 8 9, ElemTy.c32)] ∧
      OperandsOk s [vecOf s .c16 2, vecOf s .c16 4, vecOf s .c16 6] := ⟨_, rfl, by decide, by decide, operandsOk_of (by decide)⟩

theorem witness_VmulMultipliesThenShifts : ∃ s, s = kernel32 4 [] [] 0 0 ∧
    (Instr.vmulS32 1 2 4 6 8, ElemTy.s32) ∈ [(Instr.vmulS16 1 2 4 6 8, ElemTy.s16), (Instr.vmulS32 1 2 4 6 8, ElemTy.s32)] ∧
      OperandsOk s [vecOf s .s32 2, vecOf s .s32 4, vecOf s .s32 6] := ⟨_, rfl, by decide, operandsOk_of (by decide)⟩

theorem witness_ComplexProductsAreExact : ∃ s, s = kernel32 4 [] [] 0 0 ∧
    (Instr.vcmulC32 1 2 4 6 8, ElemTy.c32) ∈ [(Instr.vcmulC16 1 2 4 6 8, ElemTy.c16), (Instr.vcmulC32 1 2 4 6 8, ElemTy.c32)] ∧
      (Instr.vcmulcC32 1 2 4 6 8, ElemTy.c32) ∈ [(Instr.vcmulcC16 1 2 4 6 8, ElemTy.c16), (Instr.vcmulcC32 1 2 4 6 8, ElemTy.c32)] ∧
      OperandsOk s [vecOf s .c32 2, vecOf s .c32 4, vecOf s .c32 6] := ⟨_, rfl, by decide, by decide, operandsOk_of (by decide)⟩

theorem witness_VscaleMultipliesByTheScalar : ∃ s, s = kernel32 0 [] [] 0 0 ∧
    (Instr.vscaleC32 1 2 4 9 8, ElemTy.c32) ∈ [(Instr.vscaleS16 1 2 4 9 8, ElemTy.s16), (Instr.vscaleS32 1 2 4 9 8, ElemTy.s32), (Instr.vscaleC16 1 2 4 9 8, ElemTy.c16), (Instr.vscaleC32 1 2 4 9 8, ElemTy.c32)] ∧
      OperandsOk s [vecOf s .c32 2, vecOf s .c32 4] := ⟨_, rfl, by decide, operandsOk_of (by decide)⟩

theorem witness_MagnitudeKernelsWriteRealVectors : ∃ s, s = kernel16 4 [] [] [] [] 4 0 ∧
    (Instr.vmagC16 1 2 4 8, ElemTy.c16) ∈ [(Instr.vmagC16 1 2 4 8, ElemTy.c16), (Instr.vmagC32 1 2 4 8, ElemTy.c32)] ∧
      (Instr.vsqmagC16 1 2 4 8, ElemTy.c16) ∈ [(Instr.vsqmagC16 1 2 4 8, ElemTy.c16), (Instr.vsqmagC32 1 2 4 8, ElemTy.c32)] ∧
      OperandsOk s [vecOf s (realType .c16) 2, vecOf s .c16 4] := ⟨_, rfl, by decide, by decide, operandsOk_of (by decide)⟩

theorem witness_VhrWritesTheVectorHeadroom : ∃ s, s = kernel16 4 [] [] [] [] 4 0 ∧
    (Instr.vhrC16 1 4, ElemTy.c16) ∈ [(Instr.vhrS16 1 4, ElemTy.s16), (Instr.vhrS32 1 4, ElemTy.s32), (Instr.vhrC16 1 4, ElemTy.c16), (Instr.vhrC32 1 4, ElemTy.c32)] ∧
      OperandsOk s [vecOf s .c16 4] := ⟨_, rfl, by decide, operandsOk_of (by decide)⟩

/-- Two adjacent c16 arrays, in place and beside a disjoint operand. -/
theorem witness_AliasedKernelEqualsDisjointCopy :
    PartsApart ⟨.c16, 0x100, 0x102⟩ 1 ∧ SameVec ⟨.c16, 0x100, 0x102⟩ ⟨.c16, 0x100, 0x102⟩ ∧
      Apart ⟨.c16, 0x104, 0x200⟩ ⟨.c16, 0x100, 0x102⟩ 1 ∧ InBounds 16 ⟨-32768, 32767⟩ := by
  refine ⟨fun _ => by decide, ⟨rfl, rfl, fun _ => rfl⟩, fun a h => ?_, by unfold InBounds; decide⟩
  simp only [inSpans, vecSpans, Vec.arrays, List.map, List.any, Bool.or_false, Bool.or_eq_true, decide_eq_true_eq,
    Bool.or_eq_false_iff, decide_eq_false_iff_not] at *
  omega

/-- The check states of §5.5: lengths 6 and 32; a misaligned base; a range past the end of memory; an exponent one too great. -/
theorem witness_FftChecksFaultInOrder :
    Instr.fftfC32 6 1 5 ∈ [Instr.vbitrevC32 1, .fftfC32 6 1 5, .fftiC32 6 1 5] ∧ Instr.fftfC32 6 1 5 ≠ .vbitrevC32 1 ∧
      (∀ L, u32 (start [(1, 0x3000)] 6 []).vl = 2 ^ L → L < 2 ∨ 4 < L) ∧ (∀ L, u32 (start [(1, 0x3000)] 32 []).vl = 2 ^ L → L < 2 ∨ 4 < L) ∧
      (u32 (start [(1, 0x3002)] 4 []).vl = 2 ^ 2 ∧ 2 ≤ 2 ∧ 2 ≤ (start [(1, 0x3002)] 4 []).cfg.maxFftLog2 ∧
        u32 ((start [(1, 0x3002)] 4 []).reg 1) % 4 ≠ 0) ∧
      (u32 (start [(1, 0xFFF0)] 4 []).vl = 2 ^ 2 ∧ u32 ((start [(1, 0xFFF0)] 4 []).reg 1) % 4 = 0 ∧
        ¬RangeOk Config.reference (u32 ((start [(1, 0xFFF0)] 4 []).reg 1)) (8 * 2 ^ 2)) ∧
      FftBufferOk (start [(1, 0x3000), (5, 0x7FFFFFFC)] 4 []) 1 2 ∧ ¬FftExponentOk (start [(1, 0x3000), (5, 0x7FFFFFFC)] 4 []) 5 2 := by
  refine ⟨by decide, by decide, fun L h => ?_, fun L h => ?_, by decide, ⟨by decide, by decide, not_rangeOk_of (by decide)⟩,
    ⟨by decide, by decide, by decide, by decide, rangeOk_of (by decide)⟩, by unfold FftExponentOk; decide⟩
  · have e : (6 : Nat) = 2 ^ L := h
    by_contra hc
    have : L = 2 ∨ L = 3 ∨ L = 4 := by omega
    rcases this with rfl | rfl | rfl <;> simp at e
  · have e : (2 : Nat) ^ 5 = 2 ^ L := h
    exact .inr (by have := Nat.pow_right_injective (le_refl 2) e; omega)

theorem witness_VbitrevPermutesTheBuffer : FftBufferOk (start [(1, 0xFFE0)] 4 []) 1 2 ∧ FftBufferOk (start [(1, 0x3004)] 16 []) 1 4 :=
  ⟨⟨by decide, by decide, by decide, by decide, rangeOk_of (by decide)⟩, ⟨by decide, by decide, by decide, by decide, rangeOk_of (by decide)⟩⟩

theorem witness_TransformsRunScaledPasses : (14 : Reg).val ≤ 14 ∧ FftBufferOk (start [(1, 0x3000), (5, 0x7FFFFFFB)] 4 []) 1 2 ∧
    FftExponentOk (start [(1, 0x3000), (5, 0x7FFFFFFB)] 4 []) 5 2 ∧ FftExponentOk (start [(1, 0x3000), (5, -2 ^ 31 + 2)] 4 []) 5 2 :=
  ⟨by decide, ⟨by decide, by decide, by decide, by decide, rangeOk_of (by decide)⟩, by unfold FftExponentOk; decide,
    by unfold FftExponentOk; decide⟩

theorem witness_FftNeverSaturates : 2 ≤ 2 ∧ 2 ≤ 28 ∧ (1 : Nat) < 2 ∧ 1 < 2 ^ 1 ∧ (∀ x ∈ [(⟨min32, min32⟩ : Elem)], InBounds 32 x) ∧
    (⟨-2 ^ 30, -2 ^ 30⟩ : Elem) ∈ scaleBy (scaleShift 1 [⟨min32, min32⟩]) [⟨min32, min32⟩] ∧
    (⟨-2 ^ 30, 2 ^ 30⟩ : Elem) = twiddleProduct (twiddle 2 false 1 1) ⟨-2 ^ 30, -2 ^ 30⟩ := by
  unfold InBounds; decide +kernel

theorem witness_FftExponentStaysInRange : (2 : Nat) ≤ 2 ∧ -2 ^ 31 + ((2 : Nat) : Int) ≤ 2 ^ 31 - 1 - 2 * ((2 : Nat) : Int) := by decide

/-- The first and last registers of the window, and the edges of its reserved offsets. -/
theorem witness_IdleWindowReadsAreCurrent :
    (∀ off, (hosted State.reset (.read off)).run = .idle ∧
        (hosted State.reset (.read off)).hostQueue = .read ((hosted State.reset (.read off)).cfg.coreBase + off) :: []) ∧
      (0x00, 0x42465031#32) ∈ windowTable (hosted State.reset (.read 0x00)) ∧ (0x7C, 0#32) ∈ windowTable (hosted State.reset (.read 0x7C)) ∧
      ∀ off ∈ [0x20, 0x3C, 0x80, 0xFC], off % 4 = 0 ∧ ((0x20 ≤ off ∧ off < 0x40) ∨ (0x80 ≤ off ∧ off < 0x100)) :=
  ⟨fun off => ⟨rfl, by simp [hosted, State.reset, State.afterReset, Config.reference]⟩, by decide, by decide, by decide⟩

theorem witness_RunningWindowReadsAreCurrentOrFree :
    ∀ off ∈ [0x0C, 0x10, 0x14, 0x20, 0x3C, 0x40, 0x7C, 0x80, 0xFC], (hosted (start [] 0 []) (.read off)).run = .run ∧
      (hosted (start [] 0 []) (.read off)).hostQueue = .read ((hosted (start [] 0 []) (.read off)).cfg.coreBase + off) :: [] ∧ off % 4 = 0 := by
  decide

/-- While IDLE with START 0 and with START 1, and while RUN. -/
theorem witness_CtrlWriteStartsOrAborts :
    ((hosted State.reset (.write 8 6#32)).hostQueue = .write ((hosted State.reset (.write 8 6#32)).cfg.coreBase + 0x08) 6#32 :: [] ∧
        (hosted State.reset (.write 8 6#32)).run = .idle ∧ (6#32).getLsbD 0 = false) ∧
      ((hosted State.reset (.write 8 1#32)).hostQueue = .write ((hosted State.reset (.write 8 1#32)).cfg.coreBase + 0x08) 1#32 :: [] ∧
        (hosted State.reset (.write 8 1#32)).run = .idle ∧ (1#32).getLsbD 0 = true) ∧
      (hosted (start [] 0 []) (.write 8 8#32)).hostQueue = .write ((hosted (start [] 0 []) (.write 8 8#32)).cfg.coreBase + 0x08) 8#32 :: [] ∧
      (hosted (start [] 0 []) (.write 8 8#32)).run = .run := by decide

theorem witness_StatusWriteClearsBits : (hosted State.reset (.write 0x0C 6#32)).hostQueue =
    .write ((hosted State.reset (.write 0x0C 6#32)).cfg.coreBase + 0x0C) 6#32 :: [] := by decide

theorem witness_RegisterWritesTakeEffectOnlyWhileIdle :
    (hosted State.reset (.write 0x7C 5#32)).hostQueue =
        .write ((hosted State.reset (.write 0x7C 5#32)).cfg.coreBase + 0x40 + 4 * (15 : Reg).val) 5#32 :: [] ∧
      (hosted (start [] 0 []) (.write 0x40 5#32)).hostQueue =
        .write ((hosted (start [] 0 []) (.write 0x40 5#32)).cfg.coreBase + 0x40 + 4 * (0 : Reg).val) 5#32 :: [] ∧
      (hosted State.reset (.write 0x10 5#32)).hostQueue = .write ((hosted State.reset (.write 0x10 5#32)).cfg.coreBase + 0x10) 5#32 :: [] ∧
      (hosted State.reset (.write 0x14 5#32)).hostQueue = .write ((hosted State.reset (.write 0x14 5#32)).cfg.coreBase + 0x14) 5#32 :: [] ∧
      (hosted State.reset (.write 0x7C 5#32)).run = .idle ∧ (hosted (start [] 0 []) (.write 0x40 5#32)).run = .run ∧
      ∀ off ∈ [0x00, 0x1C, 0x20, 0x3C, 0x80, 0xFC], (hosted (start [] 0 []) (.write off 5#32)).hostQueue =
        .write ((hosted (start [] 0 []) (.write off 5#32)).cfg.coreBase + off) 5#32 :: [] := by decide

theorem witness_IdleResetGivesResetState :
    (hosted State.reset .reset).run = .idle ∧ (hosted State.reset .reset).hostQueue = .reset :: [] := by decide

/-- A reset while an SW is in progress, which writes each of its bytes once; while an FFT is, which writes them in turn; and one on an
illegal word. -/
theorem witness_RunningResetAbandonsOneCommand :
    ((hosted (atEnd 0x18520000) .reset).run = .run ∧ (hosted (atEnd 0x18520000) .reset).hostQueue = .reset :: [] ∧
      decode (((atEnd 0x18520000).view (atEnd 0x18520000).mem 0).readWord (u32 (atEnd 0x18520000).pc)) = .ok (.sw 5 2 0#16) ∧
      WritesOnce (.sw 5 2 0#16) (atEnd 0x18520000) ∧ ∃ u, exec (.sw 5 2 0#16) (hosted (atEnd 0x18520000) .reset) = .next u) ∧
    decode (((atEnd 0xC7615000).view (atEnd 0xC7615000).mem 0).readWord (u32 (atEnd 0xC7615000).pc)) = .ok (.fftfC32 6 1 5) ∧
    ∀ i, decode (((atEnd 0x2C000000).view (atEnd 0x2C000000).mem 0).readWord (u32 (atEnd 0x2C000000).pc)) ≠ .ok i := by
  refine ⟨⟨by decide, by decide, by decide, ⟨fun d a b => ⟨by simp, by simp⟩, fun p q h => ?_⟩, _, rfl⟩, by decide, fun i h => ?_⟩
  · simp [storeSpans] at h
  · have e : decode (((atEnd 0x2C000000).view (atEnd 0x2C000000).mem 0).readWord (u32 (atEnd 0x2C000000).pc)) = .error .unallocatedOp := by
      decide
    rw [e] at h; cases h

theorem witness_InterruptFollowsDoneAndFault : (∃ t, exec .halt (start [] 0 []) = .next t) ∧
    ∃ t, exec (.lw 1 0 2#16) (start [] 0 []) = .next t ∧ (start [] 0 []).faultBit = false ∧ t.faultBit = true :=
  ⟨⟨_, rfl⟩, _, rfl, by decide, by decide⟩

/-- The last address while IDLE; while RUN a byte with no race on it, and one that the run has written. -/
theorem witness_HostAccessesReachMemory :
    ((hosted State.reset (.load 0xFFFFFFFF#32)).hostQueue = .load 0xFFFFFFFF#32 :: [] ∧ (hosted State.reset (.load 0xFFFFFFFF#32)).run = .idle) ∧
      (∀ h ∈ [HostAct.load 0x500#32, .store 0x500#32 1#8, .foretell 0x500#32], (hosted racing h).hostQueue = h :: [] ∧
        (hosted racing h).run = .run) ∧
      (inSpans racing.race.runWrote 0x500 = false ∧ 0x500 ∉ racing.race.hostStored) ∧
      inSpans racing.race.runWrote 0x404 = true ∧ racesAhead [.load 0x500#32] (start [] 0 []) = [] := by decide

theorem racing_clouded : racing.clouded = [0x400, 0x300, 0x404] := by decide

theorem racing_fetches : decode (fetchWord racing) = .ok (.sw 5 2 0#16) := by decide

/-- A load of a byte that the next command stores: the clause about what is foretold. -/
theorem witness_foreseen : ∃ s : State, s = hosted (start [(5, -5), (2, 0x300)] 0 (words32 0 [0x18520000] [])) .pass ∧ s.run = .run ∧
    s.race.foreseen = false ∧ racesWith (.load 0x300#32 :: s.hostQueue) s [] = [0x300] ∧
    racesWith (.load 0x300#32 :: s.hostQueue) s [0x300] = [0x300] ∧ s.race.named = [] ∧
    namedBytes (.load 0x300#32 :: s.hostQueue) = [] ∧ hostAccesses (.load 0x300#32 :: s.hostQueue) s.race ≠ 0 := ⟨_, rfl, by decide⟩

/-- The host has stored to 0x300, a race for 0x400 is foretold, and 0x404 is loaded and written: all three are open, 0x408 is not. The next
command, an SW to 0x300, writes a byte that the host stored to, and some that it did not. -/
theorem witness_RacesOpenOnlyTheirBytes : ∃ t u, racing.clouded = [0x400, 0x300, 0x404] ∧
    (∀ a, partAddr ⟨.s32, 0x408, 0⟩ 0 .re ≤ a → a < partAddr ⟨.s32, 0x408, 0⟩ 0 .re + bits .s32 / 8 → a ∉ racing.clouded) ∧
    racing.hostQueue = [] ∧ racing.run = .run ∧ command racing = .next u ∧ step racing = .next t ∧
    inSpans (written racing) 0x300 = true ∧ 0x301 ∉ racing.race.hostStored ∧ inSpans (written racing) 0x304 = false := by
  have hc : command racing = .next _ := (command_eq (by decide) racing_fetches).trans rfl
  have hw : written racing = storeSpans (.sw 5 2 0#16) racing := by
    unfold written; rw [inProgress_eq (by decide) racing_fetches rfl (by decide)]
  refine ⟨_, _, racing_clouded, fun a h1 h2 => ?_, by decide, by decide, hc, sequencer_run (by decide) hc, ?_, by decide, ?_⟩
  · simp only [partAddr, bits] at h1 h2
    rw [racing_clouded]; simp only [List.mem_cons, List.not_mem_nil, or_false]; omega
  · rw [hw]; decide
  · rw [hw]; decide

end Sys2Proof.Tests
end

section
/-! The arithmetic of spec/00_scope.md §5: signed shift (R16), headroom (R17), magnitude (R6) and bit reversal (R19). -/

namespace Sys2Proof.Machine

/-! ### Signed shift (00_scope.md R16) -/

/-- Floor division by p of a value in [−p, p) gives the sign alone. -/
theorem ediv_eq_sign_of_mem (v p : Int) (hlo : -p ≤ v) (hhi : v < p) : v / p = if 0 ≤ v then 0 else -1 := by
  split
  · exact Int.ediv_eq_zero_of_lt ‹_› hhi
  · exact (Int.ediv_eq_iff_of_pos (by omega)).2 ⟨by omega, by omega⟩

theorem shr_eq_floor (v s : Int) (h : 0 ≤ s) : shr v s = ⌊(v : ℚ) / 2 ^ s.toNat⌋ := by
  rw [shr_of_nonneg v s h]
  exact_mod_cast (Rat.floor_intCast_div_natCast v (2 ^ s.toNat)).symm

/-- Shifted right past its width, a mantissa keeps only its sign (conflict C5). -/
theorem shr_of_width_le (B : Nat) (v s : Int) (hlo : minB B ≤ v) (hhi : v ≤ maxB B) (hs : (B : Int) ≤ s) :
    shr v s = if 0 ≤ v then 0 else -1 := by
  have hp : (2 : Int) ^ (B - 1) ≤ 2 ^ s.toNat := pow_le_pow_right₀ (by norm_num) (by omega)
  unfold minB at hlo
  unfold maxB at hhi
  rw [shr_of_nonneg v s (by omega)]
  exact ediv_eq_sign_of_mem v _ (by omega) (by omega)

/-! ### Headroom (00_scope.md R17) -/

/-- Bit j of the pattern of an integer is the parity of its floor by 2^j. -/
theorem getLsbD_ofInt (B : Nat) (m : Int) (j : Nat) (hj : j < B) :
    (BitVec.ofInt B m).getLsbD j = decide (m / 2 ^ j % 2 = 1) := by
  obtain ⟨n, rfl⟩ : ∃ n, B = j + n + 1 := ⟨B - j - 1, by omega⟩
  have hsplit : m = m % 2 ^ (j + n + 1) + 2 ^ j * (2 * (2 ^ n * (m / 2 ^ (j + n + 1)))) :=
    calc m = m % 2 ^ (j + n + 1) + 2 ^ (j + n + 1) * (m / 2 ^ (j + n + 1)) := (Int.emod_add_mul_ediv ..).symm
      _ = _ := by ring
  have hnn : 0 ≤ m % 2 ^ (j + n + 1) := Int.emod_nonneg _ (by positivity)
  have hdiv : m / 2 ^ j = m % 2 ^ (j + n + 1) / 2 ^ j + 2 * (2 ^ n * (m / 2 ^ (j + n + 1))) := by
    conv_lhs => rw [hsplit]
    exact Int.add_mul_ediv_left _ _ (by positivity)
  have hnat : (((BitVec.ofInt (j + n + 1) m).toNat / 2 ^ j : Nat) : Int) = m % 2 ^ (j + n + 1) / 2 ^ j := by
    rw [BitVec.toNat_ofInt]; push_cast; rw [Int.toNat_of_nonneg hnn]
  rw [← BitVec.testBit_toNat, Nat.testBit_eq_decide_div_mod_eq]
  exact decide_eq_decide.2 (by omega)

theorem ediv_two_pow_neg_iff (n : Nat) (m : Int) : m / 2 ^ n < 0 ↔ m < 0 := by
  rw [Int.ediv_lt_iff_lt_mul (by positivity), zero_mul]

/-- A value fits n + 1 signed bits when its floor by 2^n is 0 or −1. -/
theorem fits_iff_ediv (n : Nat) (m : Int) : -2 ^ n ≤ m ∧ m ≤ 2 ^ n - 1 ↔ -1 ≤ m / 2 ^ n ∧ m / 2 ^ n ≤ 0 := by
  have hp : (0 : Int) < 2 ^ n := by positivity
  rw [Int.le_ediv_iff_mul_le hp, ← Int.lt_add_one_iff (b := 0), Int.ediv_lt_iff_lt_mul hp]
  omega

/-- A value that fits n + 2 signed bits fits n + 1 exactly when bit n is its sign. -/
theorem fits_iff_of_fits_succ (n : Nat) (m : Int) (h : -2 ^ (n + 1) ≤ m ∧ m ≤ 2 ^ (n + 1) - 1) :
    -2 ^ n ≤ m ∧ m ≤ 2 ^ n - 1 ↔ (m / 2 ^ n % 2 = 1 ↔ m < 0) := by
  have hhalf : m / 2 ^ (n + 1) = m / 2 ^ n / 2 := by rw [pow_succ, Int.ediv_ediv_of_nonneg (by positivity)]
  rw [fits_iff_ediv, hhalf] at h
  rw [fits_iff_ediv, ← ediv_two_pow_neg_iff n m]
  omega

/-- The topmost bit of the pattern of a value within the bounds is its sign. -/
theorem getLsbD_ofInt_sign (B : Nat) (hB : 0 < B) (m : Int) (hlo : minB B ≤ m) (hhi : m ≤ maxB B) :
    (BitVec.ofInt B m).getLsbD (B - 1) = decide (m < 0) := by
  have hq := (fits_iff_ediv (B - 1) m).1 ⟨hlo, hhi⟩
  have hsign := ediv_two_pow_neg_iff (B - 1) m
  rw [getLsbD_ofInt B m _ (by omega)]
  exact decide_eq_decide.2 (by omega)

/-- The k bits below the sign bit equal it exactly when the value fits B − k signed bits. -/
theorem topBits_eq_sign_iff (B : Nat) (hB : 0 < B) (m : Int) (hlo : minB B ≤ m) (hhi : m ≤ maxB B) (k : Nat)
    (hk : k ≤ B - 1) :
    (∀ j, j ≤ k → (BitVec.ofInt B m).getLsbD (B - 1 - j) = (BitVec.ofInt B m).getLsbD (B - 1)) ↔
      -2 ^ (B - 1 - k) ≤ m ∧ m ≤ 2 ^ (B - 1 - k) - 1 := by
  induction k with
  | zero => exact ⟨fun _ => ⟨hlo, hhi⟩, fun _ j hj => by rw [Nat.le_zero.1 hj, Nat.sub_zero]⟩
  | succ k ih =>
    have hn : B - 1 - k = (B - 1 - (k + 1)) + 1 := by omega
    have hbit : (BitVec.ofInt B m).getLsbD (B - 1 - (k + 1)) = (BitVec.ofInt B m).getLsbD (B - 1) ↔
        (m / 2 ^ (B - 1 - (k + 1)) % 2 = 1 ↔ m < 0) := by
      rw [getLsbD_ofInt_sign B hB m hlo hhi, getLsbD_ofInt B m _ (by omega), decide_eq_decide]
    have ih := ih (by omega)
    rw [hn] at ih
    constructor
    · intro hall
      exact (fits_iff_of_fits_succ _ m (ih.1 fun j hj => hall j (by omega))).2 (hbit.1 (hall _ le_rfl))
    · intro hfit j hj
      have hfit' : -2 ^ (B - 1 - (k + 1) + 1) ≤ m ∧ m ≤ 2 ^ (B - 1 - (k + 1) + 1) - 1 := by
        rw [pow_succ]; omega
      rcases Nat.le_succ_iff.1 hj with hj | rfl
      · exact ih.2 hfit' j hj
      · exact hbit.2 ((fits_iff_of_fits_succ _ m hfit').1 hfit)

/-- What cls counts, on the bits of the pattern: a maximal run of bits equal to the sign bit. -/
theorem cls_spec (B : Nat) (m : Int) :
    (∀ j, j < cls B m → (BitVec.ofInt B m).getLsbD (B - 1 - j) = (BitVec.ofInt B m).getLsbD (B - 1)) ∧
      (cls B m < B → (BitVec.ofInt B m).getLsbD (B - 1 - cls B m) ≠ (BitVec.ofInt B m).getLsbD (B - 1)) := by
  obtain ⟨-, hrun, hend⟩ := runLength_spec (BitVec.ofInt B m).toNat ((BitVec.ofInt B m).toNat.testBit (B - 1)) B
  exact ⟨hrun, hend⟩

/-- Headroom at least k means that the k bits below the sign bit equal it. -/
theorem le_hr_iff_topBits (B : Nat) (hB : 0 < B) (m : Int) (k : Nat) (hk : k ≤ B - 1) :
    k ≤ hr B m ↔ ∀ j, j ≤ k → (BitVec.ofInt B m).getLsbD (B - 1 - j) = (BitVec.ofInt B m).getLsbD (B - 1) := by
  obtain ⟨hpos, -⟩ := cls_bounds B hB m
  obtain ⟨hrun, hend⟩ := cls_spec B m
  unfold hr
  constructor
  · exact fun h j hj => hrun j (by omega)
  · intro hall
    by_contra hc
    exact hend (by omega) (hall _ (by omega))

/-- Headroom at least k means that the value fits B − k signed bits. -/
theorem le_hr_iff (B : Nat) (hB : 0 < B) (m : Int) (hlo : minB B ≤ m) (hhi : m ≤ maxB B) (k : Nat) (hk : k ≤ B - 1) :
    k ≤ hr B m ↔ -2 ^ (B - 1 - k) ≤ m ∧ m ≤ 2 ^ (B - 1 - k) - 1 :=
  (le_hr_iff_topBits B hB m k hk).trans (topBits_eq_sign_iff B hB m hlo hhi k hk)

/-! ### Magnitude (00_scope.md R6) -/

theorem magReference_eq_sqrt (x y : Int) : magReference x y = Nat.sqrt (x ^ 2 + y ^ 2).toNat := by
  have hsq : ((x.natAbs * x.natAbs + y.natAbs * y.natAbs : Nat) : Int) = x ^ 2 + y ^ 2 := by
    push_cast; rw [abs_mul_abs_self, abs_mul_abs_self, sq, sq]
  rw [magReference, isqrt_eq_sqrt, ← hsq, Int.toNat_natCast]

/-- Every build's mag_fn meets MAG_TOL against the reference one. -/
theorem magFn_within_one (g : MagInstance) (x y : Int) :
    0 ≤ magFn g x y ∧ (magReference x y : Int) - 1 ≤ magFn g x y ∧ magFn g x y ≤ (magReference x y : Int) + 1 := by
  cases g with
  | reference => simp only [magFn]; omega
  | tuned n =>
    have := (Config.magDeviation n x y).isLt
    simp only [magFn]; omega

/-! ### Bit reversal (00_scope.md R19) -/

theorem rev_lt (L i : Nat) : rev L i < 2 ^ L := by
  induction L generalizing i with
  | zero => simp [rev]
  | succ L ih =>
    have hrest := ih (i / 2)
    have hbit : i % 2 * 2 ^ L ≤ 1 * 2 ^ L := Nat.mul_le_mul_right _ (by omega)
    rw [rev, pow_succ]; omega

/-- Bit j of rev_L(i) is bit L−1−j of i. -/
theorem testBit_rev (L i j : Nat) (hj : j < L) : (rev L i).testBit j = i.testBit (L - 1 - j) := by
  induction L generalizing i with
  | zero => omega
  | succ L ih =>
    rw [rev, Nat.mul_comm, Nat.testBit_two_pow_mul_add _ (rev_lt L (i / 2))]
    split
    · next hlt => rw [ih _ hlt, Nat.testBit_div_two, show L - 1 - j + 1 = L + 1 - 1 - j by omega]
    · next hge =>
      obtain rfl : j = L := by omega
      simp [Nat.testBit_zero]

theorem rev_rev (L i : Nat) (hi : i < 2 ^ L) : rev L (rev L i) = i := by
  refine Nat.eq_of_testBit_eq fun j => ?_
  by_cases hj : j < L
  · rw [testBit_rev L _ j hj, testBit_rev L i _ (by omega), show L - 1 - (L - 1 - j) = j by omega]
  · have hpow : 2 ^ L ≤ 2 ^ j := Nat.pow_le_pow_right (by omega) (by omega)
    rw [Nat.testBit_lt_two_pow (lt_of_lt_of_le (rev_lt L _) hpow), Nat.testBit_lt_two_pow (lt_of_lt_of_le hi hpow)]

/-! ### The obligations -/

/-- Settles O19: to the right the floor, to the left the product, past the width the sign. -/
theorem shiftFloorsForEveryAmount : Obligations.ShiftFloorsForEveryAmount :=
  ⟨shr_eq_floor, shr_of_neg, fun B v s _ => shr_of_width_le B v s⟩

/-- Settles O20: cls counts a maximal run of sign bits, and each further bit of the run halves the range of the value. -/
theorem headroomCountsRedundantSignBits : Obligations.HeadroomCountsRedundantSignBits := by
  intro B m hB hlo hhi
  have hpos : 0 < B := by omega
  obtain ⟨hge, hle⟩ := cls_bounds B hpos m
  obtain ⟨hrun, hend⟩ := cls_spec B m
  exact ⟨⟨hge, hle, rfl⟩, hrun, hend, le_hr_iff B hpos m hlo hhi⟩

/-- Settles O21: the reference mag_fn is the integer square root, and that of every build is within one of it. -/
theorem magnitudeMeetsMagTol : Obligations.MagnitudeMeetsMagTol := by
  refine ⟨fun g x y => ?_, fun x y => ?_⟩
  · rw [← magReference_eq_sqrt]; exact magFn_within_one g x y
  · rw [← magReference_eq_sqrt]; rfl

/-- Settles O22: the bits of rev_L are proved by induction on L, the involution from them. -/
theorem bitReversalReversesBits : Obligations.BitReversalReversesBits :=
  fun L i hi => ⟨rev_lt L i, testBit_rev L i, rev_rev L i hi⟩

end Sys2Proof.Machine
end

section
/-! VHR (spec/42_kernels.md R171) and the headroom of a vector (00_scope.md R18): the least headroom over every part. -/

namespace Sys2Proof.Machine

open Sys2Proof.Claims

/-! ### One register written, operands checked -/

/-- The end of a one-register command writes that register and moves on; nothing else changes. -/
theorem regWritten_finish (s : State) (d : Reg) (v : Word) : RegWritten s (s.finish d v) d v := by
  refine ⟨?_, (finish_spec s d v).1⟩
  unfold State.finish State.setReg
  split <;> rfl

/-- Operands that meet the rules of 20_memory.md R65 and R67 pass the checks. -/
theorem operandTrap_of_operandsOk {s : State} {vs : List Vec} (h : OperandsOk s vs) :
    operandTrap s.cfg (u32 s.vl) (vs.flatMap Vec.arrays) = none := by
  refine (operandTrap_eq_none _ _ _).2 ⟨fun r hr => ?_, fun r hr => ?_⟩ <;>
    obtain ⟨v, hv, hr⟩ := List.mem_flatMap.1 hr
  · exact (h v hv r hr).1
  · exact (rangeValid_iff ..).2 (h v hv r hr).2

theorem vhrOf_of_operandsOk {ty : ElemTy} {d b : Reg} {s : State} (h : OperandsOk s [vecOf s ty b]) :
    vhrOf ty d b s =
      .next (s.finish d (BitVec.ofNat 32 (elemsHr ty (s.vecIn s.mem (vecOf s ty b) (u32 s.vl))))) := by
  have hchecks := operandTrap_of_operandsOk h
  rw [List.flatMap_singleton] at hchecks
  calc vhrOf ty d b s
      = orTrap (operandTrap s.cfg (u32 s.vl) (vecOf s ty b).arrays) s
          (s.finish d (BitVec.ofNat 32 (elemsHr ty (s.vecIn s.mem (vecOf s ty b) (u32 s.vl))))) := rfl
    _ = _ := by rw [hchecks, orTrap_none]

/-! ### Least headroom (00_scope.md R18) -/

theorem elemHr_le_part (ty : ElemTy) (e : Elem) (p : Part) (hp : p = .re ∨ isComplex ty = true) :
    elemHr ty e ≤ hr (bits ty) (part e p) := by
  unfold elemHr
  rcases hp with rfl | hc
  · split <;> simp [part]
  · rw [if_pos hc]
    cases p <;> simp [part]

/-- The headroom of an element is that of one of its parts. -/
theorem exists_part_elemHr (ty : ElemTy) (e : Elem) :
    ∃ p, (p = .re ∨ isComplex ty = true) ∧ elemHr ty e = hr (bits ty) (part e p) := by
  unfold elemHr
  split
  · next hc =>
    rcases min_choice (hr (bits ty) e.re) (hr (bits ty) e.im) with h | h
    · exact ⟨.re, .inl rfl, h⟩
    · exact ⟨.im, .inr hc, h⟩
  · exact ⟨.re, .inl rfl, rfl⟩

/-- The headroom of a list is B − 1 or that of one of its elements. -/
theorem elemsHr_eq_or_exists (ty : ElemTy) (xs : List Elem) :
    elemsHr ty xs = bits ty - 1 ∨ ∃ e ∈ xs, elemsHr ty xs = elemHr ty e := by
  induction xs with
  | nil => exact .inl rfl
  | cons x xs ih =>
    have hcons : elemsHr ty (x :: xs) = min (elemHr ty x) (elemsHr ty xs) := rfl
    rcases min_choice (elemHr ty x) (elemsHr ty xs) with h | h
    · exact .inr ⟨x, List.mem_cons_self, hcons.trans h⟩
    · rw [hcons, h]
      exact ih.imp_right fun ⟨e, he, heq⟩ => ⟨e, List.mem_cons_of_mem _ he, heq⟩

theorem mem_vecIn {s : State} {m : Memory} {v : Vec} {N : Nat} {e : Elem} :
    e ∈ s.vecIn m v N ↔ ∃ k, k < N ∧ s.elemIn m 0 v k = e := by
  simp [State.vecIn]

/-- A part that an element of the type has, as the CORE reads the element. -/
theorem part_elemIn (s : State) (m : Memory) (slot : Nat) (v : Vec) (i : Nat) (p : Part)
    (hp : p = .re ∨ isComplex v.ty = true) : part (s.elemIn m slot v i) p = s.partIn m slot v i p := by
  cases p with
  | re => rfl
  | im => exact if_pos (hp.resolve_left (by simp))

/-- The headroom of a vector as the CORE reads it bounds that of every part from below. -/
theorem elemsHr_vecIn_le (s : State) (m : Memory) (v : Vec) (N k : Nat) (hk : k < N) (p : Part)
    (hp : p = .re ∨ isComplex v.ty = true) :
    elemsHr v.ty (s.vecIn m v N) ≤ hr (bits v.ty) (s.partIn m 0 v k p) := by
  rw [← part_elemIn s m 0 v k p hp]
  exact (elemsHr_le_elemHr _ _ _ (mem_vecIn.2 ⟨k, hk, rfl⟩)).trans (elemHr_le_part _ _ p hp)

/-- The headroom of a vector as the CORE reads it is B − 1 or attained by a part. -/
theorem elemsHr_vecIn_attained (s : State) (m : Memory) (v : Vec) (N : Nat) :
    elemsHr v.ty (s.vecIn m v N) = bits v.ty - 1 ∨ ∃ k, k < N ∧ ∃ p, (p = .re ∨ isComplex v.ty = true) ∧
      elemsHr v.ty (s.vecIn m v N) = hr (bits v.ty) (s.partIn m 0 v k p) := by
  refine (elemsHr_eq_or_exists v.ty (s.vecIn m v N)).imp_right fun ⟨e, he, heq⟩ => ?_
  obtain ⟨k, hk, rfl⟩ := mem_vecIn.1 he
  obtain ⟨p, hp, hpart⟩ := exists_part_elemHr v.ty (s.elemIn m 0 v k)
  exact ⟨k, hk, p, hp, by rw [heq, hpart, part_elemIn s m 0 v k p hp]⟩

/-! ### VHR -/

/-- The four rows of VHR run the one command of their element type. -/
theorem exec_vhr (d b : Reg) (s : State) {i : Instr} {ty : ElemTy}
    (h : (i, ty) ∈ [(Instr.vhrS16 d b, ElemTy.s16), (Instr.vhrS32 d b, ElemTy.s32), (Instr.vhrC16 d b, ElemTy.c16),
      (Instr.vhrC32 d b, ElemTy.c32)]) : exec i s = vhrOf ty d b s := by
  simp only [List.mem_cons, Prod.mk.injEq, List.not_mem_nil, or_false] at h
  rcases h with ⟨rfl, rfl⟩ | ⟨rfl, rfl⟩ | ⟨rfl, rfl⟩ | ⟨rfl, rfl⟩ <;> rfl

/-- Settles O44: the checks pass, and the headroom folded over the elements is a lower bound that a part attains. -/
theorem vhrWritesTheVectorHeadroom : Obligations.VhrWritesTheVectorHeadroom := by
  intro d b s i ty hi hok
  refine ⟨_, elemsHr ty (s.vecIn s.mem (vecOf s ty b) (u32 s.vl)), (exec_vhr d b s hi).trans (vhrOf_of_operandsOk hok),
    regWritten_finish s d _, elemsHr_le ty _, ?_, ?_⟩
  · exact elemsHr_vecIn_le s s.mem (vecOf s ty b) (u32 s.vl)
  · exact elemsHr_vecIn_attained s s.mem (vecOf s ty b) (u32 s.vl)

end Sys2Proof.Machine
end

section
/-! How a command can end, said once for all 61 of them (spec/40_sequencer.md R110, 60_exceptions.md R222, 20_memory.md R69), and that what it
does has nothing to do with the host's pending moves. -/

namespace Sys2Proof.Machine

open Sys2Proof.Claims

/-! ### The two ends that commands share -/

/-- The command raised one of the faults of execution (60_exceptions.md R221), and the fault's entry is all that happened. -/
def Faults (s t : State) : Prop :=
  ∃ x : Trap, x.cause ∈ [Cause.badLength, .dataAlign, .dataBus, .expOverflow] ∧ t = s.raise x

/-- The command completed: it wrote no register but `ds`, no byte outside the ranges `sp`, and moved on to pc + 4. The ranges lie in the
address space, so memory stays canonical. -/
structure Completes (ds : List Reg) (sp : List Span) (s t : State) : Prop where
  frame : t = { s with regs := t.regs, mem := t.mem, pc := s.pc + 4#32 }
  regs : ∀ n, n ∉ ds → t.reg n = s.reg n
  bytes : ∀ a, inSpans sp a = false → t.mem.read a = s.mem.read a
  inSpace : ∀ a, inSpans sp a = true → a < 2 ^ 32
  canonical : s.mem.wf → t.mem.wf

namespace Completes

variable {ds : List Reg} {sp : List Span} {s t : State}

theorem vl_eq (h : Completes ds sp s t) : t.vl = s.vl := by rw [h.frame]
theorem faultBit_eq (h : Completes ds sp s t) : t.faultBit = s.faultBit := by rw [h.frame]

end Completes

/-! ### Registers -/

theorem setReg_frame (s : State) (d : Reg) (v : Word) : s.setReg d v = { s with regs := (s.setReg d v).regs } := by
  unfold State.setReg; split <;> rfl

theorem setGroup_frame (s : State) (d : Reg) (vs : List Word) :
    s.setGroup d vs = { s with regs := (s.setGroup d vs).regs } := by
  induction vs generalizing s d with
  | nil => rfl
  | cons v vs ih =>
    rw [State.setGroup, ih, setReg_frame]

/-- Registers written over some memory, then the next command: the registers, memory and PC are all that changes. -/
theorem advance_frame {s u : State} {m : Memory} (h : u = { s.setMem m with regs := u.regs }) :
    u.advance = { s with regs := u.advance.regs, mem := u.advance.mem, pc := s.pc + 4#32 } := by
  rw [h]; rfl

theorem reg_setGroup_two_other (s : State) (d : Reg) (u v : Word) (n : Reg) (h : n ∉ [d, d + 1]) :
    (s.setGroup d [u, v]).reg n = s.reg n := by
  simp only [List.mem_cons, List.not_mem_nil, or_false, not_or] at h
  simp [reg_setGroup_two, h]

theorem reg_setGroup_three_other (s : State) (d : Reg) (u v w : Word) (n : Reg) (h : n ∉ [d, d + 1, d + 2]) :
    (s.setGroup d [u, v, w]).reg n = s.reg n := by
  have hd : d + 1 + 1 = d + 2 := add_assoc d 1 1
  simp only [List.mem_cons, List.not_mem_nil, or_false, not_or] at h
  simp [reg_setGroup_three, hd, h]

/-! ### Commands that write no memory -/

theorem completes_of_mem_eq {ds : List Reg} {s t : State} (hf : t = { s with regs := t.regs, mem := t.mem, pc := s.pc + 4#32 })
    (hr : ∀ n, n ∉ ds → t.reg n = s.reg n) (hm : t.mem = s.mem) : Completes ds [] s t where
  frame := hf
  regs := hr
  bytes := fun a _ => by rw [hm]
  inSpace := fun a h => by simp [inSpans] at h
  canonical := fun h => by rwa [hm]

theorem completes_advance (s : State) : Completes [] [] s s.advance :=
  completes_of_mem_eq rfl (fun _ _ => rfl) rfl

theorem completes_finish (s : State) (d : Reg) (v : Word) : Completes [d] [] s (s.finish d v) := by
  refine completes_of_mem_eq (advance_frame (setReg_frame s d v)) (fun n hn => ?_) ?_
  · exact reg_setReg_other s d n v (by simpa using hn)
  · simp [State.finish]

/-! ### The checks and the space they leave -/

theorem operandTrap_cause {c : Config} {N : Nat} {arrays : List OperandArray} {x : Trap}
    (h : operandTrap c N arrays = some x) : x.cause ∈ [Cause.badLength, .dataAlign, .dataBus, .expOverflow] := by
  obtain ⟨_, -, -, ⟨hc, -⟩ | ⟨hc, -⟩⟩ := operandTrap_eq_some h <;> simp [hc]

theorem faults_of_operandTrap {c : Config} {N : Nat} {arrays : List OperandArray} {x : Trap} {s t : State}
    (h : operandTrap c N arrays = some x) (ht : t = s.raise x) : Faults s t :=
  ⟨x, operandTrap_cause h, ht⟩

/-- An operand whose ranges are valid lies in the address space, be it empty or not (20_memory.md R67). -/
theorem lt_of_inSpans_vecSpans {c : Config} {N : Nat} {v : Vec}
    (h : ∀ r ∈ v.arrays, rangeValid c r.start (r.elemBytes * N) = true) (a : Nat) (ha : inSpans (vecSpans v N) a = true) :
    a < 2 ^ 32 := by
  simp only [inSpans, vecSpans, List.any_map, List.any_eq_true, Function.comp_apply, decide_eq_true_eq] at ha
  obtain ⟨r, hr, hlo, hhi⟩ := ha
  have := end_le_of_rangeValid (h r hr) (by omega)
  omega

/-- Operands that pass their checks: the ranges of the output are valid. -/
theorem rangeValid_of_operandTrap {c : Config} {N : Nat} {v : Vec} {arrays : List OperandArray}
    (h : operandTrap c N arrays = none) (hv : ∀ r ∈ v.arrays, r ∈ arrays) :
    ∀ r ∈ v.arrays, rangeValid c r.start (r.elemBytes * N) = true :=
  fun r hr => ((operandTrap_eq_none c N arrays).1 h).2 r (hv r hr)

/-! ### The shared operations, one each -/

/-- What an `orTrap` of checks ends in: a fault, or its effect after checks that passed. -/
theorem ends_of_orTrap {c : Config} {N : Nat} {arrays : List OperandArray} {s e t : State} {P : Prop}
    (h : orTrap (operandTrap c N arrays) s e = .next t) (hP : operandTrap c N arrays = none → t = e → P) :
    Faults s t ∨ P := by
  rcases orTrap_eq_next h with ⟨x, hx, ht⟩ | ⟨hx, ht⟩
  · exact .inl (faults_of_operandTrap hx ht)
  · exact .inr (hP hx ht)

theorem calculate_ends {s t : State} {w : Word} {d : Reg} {outs : List Int} {ds : List Reg}
    (h : calculate s w d outs = .next t)
    (hr : ∀ n, n ∉ ds → (s.setGroup d (outs.map wrap32)).reg n = s.reg n) : Faults s t ∨ Completes ds [] s t := by
  rw [calculate_eq] at h
  split at h
  · cases h; exact .inl ⟨_, by simp, rfl⟩
  · cases h
    exact .inr (completes_of_mem_eq (advance_frame (setGroup_frame s d _)) hr (setGroup_mem ..))

theorem calculate_pair_ends {s t : State} {w : Word} {d : Reg} {u v : Int} (h : calculate s w d [u, v] = .next t) :
    Faults s t ∨ Completes [d, d + 1] [] s t :=
  calculate_ends h (reg_setGroup_two_other s d _ _)

theorem calculate_triple_ends {s t : State} {w : Word} {d : Reg} {u v x : Int} (h : calculate s w d [u, v, x] = .next t) :
    Faults s t ∨ Completes [d, d + 1, d + 2] [] s t :=
  calculate_ends h (reg_setGroup_three_other s d _ _ _)

theorem vhrOf_ends {ty : ElemTy} {d b : Reg} {s t : State} (h : vhrOf ty d b s = .next t) :
    Faults s t ∨ Completes [d] [] s t :=
  ends_of_orTrap h fun _ ht => ht ▸ completes_finish s d _

theorem execLw_ends {d a : Reg} {imm16 : BitVec 16} {s t : State} (h : execLw d a imm16 s = .next t) :
    Faults s t ∨ Completes [d] [] s t :=
  ends_of_orTrap h fun _ ht => ht ▸ completes_finish s d _

theorem execSw_ends {d a : Reg} {imm16 : BitVec 16} {s t : State} (h : execSw d a imm16 s = .next t) :
    Faults s t ∨ Completes [] [⟨u32 (effectiveAddr s a imm16), 4⟩] s t := by
  refine ends_of_orTrap h fun hx ht => ?_
  obtain ⟨-, hvalid⟩ := (operandTrap_eq_none ..).1 hx
  have hend := end_le_of_rangeValid (hvalid _ (List.mem_singleton.2 rfl)) (by simp [wordArray])
  simp only [wordArray] at hend
  subst ht
  exact {
    frame := rfl
    regs := fun _ _ => rfl
    bytes := fun x hout => Memory.read_writeLE_outside _ _ _ _ _ (by simp [inSpans] at hout; omega)
    inSpace := fun x hin => by simp [inSpans] at hin; omega
    canonical := fun hm => Memory.wf_writeLE _ _ _ _ hm (by omega) }

/-- A kernel writes x[d] and its output operand (42_kernels.md R160, R161). -/
theorem kernel_ends {s t : State} {d : Reg} {out : Vec} {ins : List Vec} {f : Memory → Nat → Elem}
    (h : kernel s d out ins f = .next t) : Faults s t ∨ Completes [d] (vecSpans out (u32 s.vl)) s t := by
  refine ends_of_orTrap h fun hx ht => ?_
  have hvalid := rangeValid_of_operandTrap (v := out) hx (fun r hr => by simp [hr])
  subst ht
  exact {
    frame := advance_frame (setReg_frame _ d _)
    regs := fun n hn => reg_setReg_other (s.setMem _) d n _ (by simpa using hn)
    bytes := fun a ha => by simpa using read_kernelLoop_outside out f _ _ s.mem a le_rfl ha
    inSpace := lt_of_inSpans_vecSpans hvalid
    canonical := fun hm => by
      by_cases hN : u32 s.vl = 0
      · simpa [hN] using hm
      · simpa using wf_kernelLoop out f _ _ s.mem le_rfl hm (vecInSpace_of_checks hN hvalid) }

/-- An FFT command's checks that pass are those of its buffer and of its length, which is not 0 (43_fft.md R195). -/
theorem fftTrap_eq_none {s : State} {a : Reg} (h : fftTrap s a = none) :
    u32 s.vl ≠ 0 ∧ operandTrap s.cfg (u32 s.vl) (fftVec s a).arrays = none := by
  simp only [fftTrap] at h
  split at h
  · next hok =>
    simp only [fftLengthOk, Bool.and_eq_true, decide_eq_true_eq] at hok
    exact ⟨by omega, h⟩
  · simp at h

theorem fftTrap_cause {s : State} {a : Reg} {x : Trap} (h : fftTrap s a = some x) :
    x.cause ∈ [Cause.badLength, .dataAlign, .dataBus, .expOverflow] := by
  simp only [fftTrap] at h
  split at h
  · exact operandTrap_cause h
  · cases h; simp

theorem fftExpTrap_cause {s : State} {b : Reg} {x : Trap} (h : fftExpTrap s b = some x) :
    x.cause ∈ [Cause.badLength, .dataAlign, .dataBus, .expOverflow] := by
  simp only [fftExpTrap] at h
  split at h
  · cases h; simp
  · simp at h

/-- An FFT command that passes its checks and writes a list of VL elements back, and otherwise only registers. -/
theorem completes_of_vecWrite {ds : List Reg} {s t : State} {a : Reg} {xs : List Elem} (h : fftTrap s a = none)
    (hlen : xs.length = u32 s.vl) (hm : t.mem = vecWrite s.mem (fftVec s a) 0 xs)
    (hf : t = { s with regs := t.regs, mem := t.mem, pc := s.pc + 4#32 }) (hr : ∀ n, n ∉ ds → t.reg n = s.reg n) :
    Completes ds (vecSpans (fftVec s a) (u32 s.vl)) s t := by
  obtain ⟨hN, hx⟩ := fftTrap_eq_none h
  have hvalid := rangeValid_of_operandTrap (v := fftVec s a) hx (fun _ hr => hr)
  exact {
    frame := hf
    regs := hr
    bytes := fun x hx => by rw [hm, read_vecWrite_outside _ (u32 s.vl) _ _ _ _ (by omega) hx]
    inSpace := lt_of_inSpans_vecSpans hvalid
    canonical := fun hw => by
      rw [hm]; exact wf_vecWrite _ (u32 s.vl) _ _ _ (by omega) hw (vecInSpace_of_checks hN hvalid) }

theorem execVbitrevC32_ends {a : Reg} {s t : State} (h : execVbitrevC32 a s = .next t) :
    Faults s t ∨ Completes [] (vecSpans (fftVec s a) (u32 s.vl)) s t := by
  rcases orTrap_eq_next h with ⟨x, hx, ht⟩ | ⟨hx, rfl⟩
  · exact .inl ⟨x, fftTrap_cause hx, ht⟩
  · exact .inr (completes_of_vecWrite hx (by simp) rfl rfl (fun _ _ => rfl))

/-- FFTF and FFTI write x[d], x[d+1] and their buffer (43_fft.md R200, R201). -/
theorem fftCommand_ends {conj : Bool} {sub : Int} {d a b : Reg} {s t : State} (h : fftCommand conj sub d a b s = .next t) :
    Faults s t ∨ Completes [d, d + 1] (vecSpans (fftVec s a) (u32 s.vl)) s t := by
  rcases fftCommand_eq_next h with ⟨x, hx, ht⟩ | ⟨hx, y, hy, rfl⟩
  · rcases Option.or_eq_some_iff.1 hx with hx | ⟨-, hx⟩
    · exact .inl ⟨x, fftTrap_cause hx, ht⟩
    · exact .inl ⟨x, fftExpTrap_cause hx, ht⟩
  · obtain ⟨hx, -⟩ := Option.or_eq_none_iff.1 hx
    have hlen : y.1.length = u32 s.vl := by rw [hy, length_fft _ _ _ (by simp)]; simp
    exact .inr (completes_of_vecWrite hx hlen (by simp) (advance_frame (setGroup_frame _ d _))
      (fun n hn => reg_setGroup_two_other (s.setMem _) d _ _ n hn))

/-! ### Every command -/

/-- The ways of a command to end (40_sequencer.md R110): it raises a fault; it halts; it branches; it sets VL; or it completes, writing no
register and no byte but those its rule names. -/
inductive Ends (i : Instr) (s t : State) : Prop
  | faults (h : Faults s t)
  | halts (hi : i = .halt) (ht : t = s.halt)
  | branches (d a : Reg) (imm16 : BitVec 16) (hi : i = .beq d a imm16 ∨ i = .bne d a imm16) (ht : t = s.branch imm16)
  | setsVl (a : Reg) (hi : i = .setvl a) (ht : t = { s with vl := s.reg a }.advance)
  | completes (h : Completes (destinations i) (storeSpans i s) s t)

theorem Ends.of_faults_or_completes {i : Instr} {s t : State}
    (h : Faults s t ∨ Completes (destinations i) (storeSpans i s) s t) : Ends i s t :=
  h.elim .faults .completes

/-- All that a command can do, whatever the state. -/
theorem exec_ends {i : Instr} {s t : State} (h : exec i s = .next t) : Ends i s t := by
  cases i
  case halt => cases h; exact .halts rfl rfl
  case setvl a => cases h; exact .setsVl a rfl rfl
  case beq d a imm16 =>
    cases h
    by_cases heq : s.reg d = s.reg a
    · exact .branches d a imm16 (.inl rfl) (if_pos heq)
    · exact .completes (if_neg heq ▸ completes_advance s)
  case bne d a imm16 =>
    cases h
    by_cases heq : s.reg d = s.reg a
    · exact .completes (if_pos heq ▸ completes_advance s)
    · exact .branches d a imm16 (.inr rfl) (if_neg heq)
  case lui | addi | add | sub | hrsS16 | hrsS32 => cases h; exact .completes (completes_finish s _ _)
  case lw => exact .of_faults_or_completes (execLw_ends h)
  case sw => exact .of_faults_or_completes (execSw_ends h)
  case calcAddS16 | calcAddS32 | calcAddC16 | calcAddC32 => exact .of_faults_or_completes (calculate_triple_ends h)
  case vhrS16 | vhrS32 | vhrC16 | vhrC32 => exact .of_faults_or_completes (vhrOf_ends h)
  case vbitrevC32 => exact .of_faults_or_completes (execVbitrevC32_ends h)
  case fftfC32 | fftiC32 => exact .of_faults_or_completes (fftCommand_ends h)
  case calcMulS16 | calcMulS32 | calcCmulC16 | calcCmulC32 | calcScaleS16 | calcScaleS32 | calcScaleC16 | calcScaleC32 | calcMagC16 |
      calcMagC32 | calcSqmagC16 | calcSqmagC32 => exact .of_faults_or_completes (calculate_pair_ends h)
  all_goals exact .of_faults_or_completes (kernel_ends h)

end Sys2Proof.Machine
end

section
/-! What no command can do (spec/10_state.md R31, R34; 60_exceptions.md R222), and that every command and every step of the sequencer answers
a next state (40_sequencer.md R110). -/

namespace Sys2Proof.Machine

/-! ### VL, registers, the interrupt -/

/-- Settles O11: of the ends of a command only SETVL's touches VL. -/
theorem onlySetvlWritesVl : Obligations.OnlySetvlWritesVl := by
  intro i s t h hvl
  rcases exec_ends h with ⟨x, -, rfl⟩ | ⟨-, rfl⟩ | ⟨d, a, imm16, -, rfl⟩ | ⟨a, hi, rfl⟩ | hc
  · exact absurd (raise_vl s x) hvl
  · exact absurd (halt_vl s) hvl
  · exact absurd (branch_vl s imm16) hvl
  · exact ⟨a, hi, rfl⟩
  · exact absurd hc.vl_eq hvl

/-- Settles O12: a command that completes writes its destinations alone, and the other ends write no register. -/
theorem commandsWriteOnlyTheirResults : Obligations.CommandsWriteOnlyTheirResults := by
  intro i s t h
  refine ⟨fun n hn => ?_, reg_zero t⟩
  rcases exec_ends h with ⟨x, -, rfl⟩ | ⟨-, rfl⟩ | ⟨d, a, imm16, -, rfl⟩ | ⟨a, -, rfl⟩ | hc
  · exact raise_reg s x n
  · exact halt_reg s n
  · exact branch_reg s imm16 n
  · exact reg_congr rfl n
  · exact hc.regs n hn

theorem irq_iff (s : State) : irq s = true ↔ s.irqEn = true ∧ (s.doneBit = true ∨ s.faultBit = true) := by
  simp [irq]

/-- A command that sets FAULT is one that raised a fault. -/
theorem faults_of_faultBit {i : Instr} {s t : State} (h : exec i s = .next t) (hs : s.faultBit = false)
    (ht : t.faultBit = true) : Faults s t := by
  have hset : t.faultBit ≠ s.faultBit := by simp [hs, ht]
  rcases exec_ends h with hf | ⟨-, rfl⟩ | ⟨d, a, imm16, -, rfl⟩ | ⟨a, -, rfl⟩ | hc
  · exact hf
  · exact absurd (halt_faultBit s) hset
  · exact absurd (branch_faultBit s imm16) hset
  · exact absurd rfl hset
  · exact absurd hc.faultBit_eq hset

/-- Settles O58: HALT sets DONE, fault entry sets FAULT, and neither touches IRQ_EN. -/
theorem interruptFollowsDoneAndFault : Obligations.InterruptFollowsDoneAndFault := by
  refine fun s => ⟨irq_iff s, fun t h => ?_, fun i t h hs ht => ?_⟩
  · cases h; simp [irq]
  · obtain ⟨x, -, rfl⟩ := faults_of_faultBit h hs ht
    simp [irq]

/-! ### Every step answers -/

theorem orTrap_answers (x : Option Trap) (s e : State) : Safe (orTrap x s e) := by
  cases x with
  | none => exact ⟨e, rfl⟩
  | some x => exact ⟨s.raise x, rfl⟩

/-- Every command answers a next state: it is a state at once, or ends in checks that may raise a fault. -/
theorem exec_answers (i : Instr) (s : State) : Safe (exec i s) := by
  cases i
  case halt | lui | addi | add | sub | beq | bne | setvl | hrsS16 | hrsS32 => exact ⟨_, rfl⟩
  all_goals exact orTrap_answers _ _ _

theorem command_answers (s : State) : Safe (command s) := by
  unfold command
  split
  · exact ⟨_, rfl⟩
  · split
    · exact ⟨_, rfl⟩
    · exact exec_answers _ s

/-- The sequencer while RUN runs a command, which answers; the command's aftermath and its boundary follow. -/
theorem sequencer_run_answers {s : State} (h : s.run = .run) :
    ∃ t, command s = .next t ∧ sequencer s = .next (s.after t).boundary := by
  obtain ⟨t, ht⟩ := command_answers s
  exact ⟨t, ht, sequencer_run h ht⟩

theorem sequencer_answers (s : State) : Safe (sequencer s) := by
  cases h : s.run with
  | idle => exact ⟨s, sequencer_idle s h⟩
  | run =>
    obtain ⟨t, -, ht⟩ := sequencer_run_answers h
    exact ⟨_, ht⟩

end Sys2Proof.Machine
end

section
/-! The host's next move, and its accesses to the register window (spec/10_state.md R40-R52): which are legal, what they read, what they
write. -/

namespace Sys2Proof.Machine

open Sys2Proof.Claims

/-! ### One step -/

theorem step_of_nil {s : State} (h : s.hostQueue = []) : step s = sequencer s := by simp [step, h]

theorem step_of_cons {s : State} {act : HostAct} {rest : List HostAct} (h : s.hostQueue = act :: rest) :
    step s = hostMove act { s with hostQueue := rest } := by simp [step, h]

/-- Settles O8: with no host move pending a step is the sequencer's, which does nothing while IDLE. -/
theorem idleMachineStaysAsItIs : Obligations.IdleMachineStaysAsItIs :=
  fun s hq hidle => (step_of_nil hq).trans (sequencer_idle s hidle)

/-! ### Which window accesses are legal (10_state.md R50) -/

/-- The host must not make this window access: it is outside the window or misaligned. -/
def OutsideWindow (c : Config) (addr : Nat) : Prop :=
  addr < c.coreBase ∨ c.coreBase + 256 ≤ addr ∨ (addr - c.coreBase) % 4 ≠ 0

theorem windowOffset_eq_none (c : Config) (addr : Nat) : windowOffset c addr = none ↔ OutsideWindow c addr := by
  unfold windowOffset OutsideWindow
  split
  · next h => simp; omega
  · next h => simp; omega

theorem windowOffset_add {off : Nat} (c : Config) (h4 : off % 4 = 0) (hlt : off < 256) :
    windowOffset c (c.coreBase + off) = some off := by
  unfold windowOffset
  rw [Nat.add_sub_cancel_left, if_pos ⟨by omega, by omega, h4⟩]

/-- A host move is answered by a next state, unless it is a window access that the host must not make. -/
theorem hostMove_answers (act : HostAct) (s : State) :
    Safe (hostMove act s) ∨ (hostMove act s = .refused .hostAccess ∧
      ∃ addr, (act = .read addr ∨ ∃ v, act = .write addr v) ∧ OutsideWindow s.cfg addr) := by
  cases act with
  | pass => exact .inl (sequencer_answers _)
  | write addr v =>
    cases h : windowOffset s.cfg addr with
    | some off => exact .inl ⟨_, by simp only [hostMove, plainMove, h]; rfl⟩
    | none => exact .inr ⟨by simp only [hostMove, plainMove, h], addr, .inr ⟨v, rfl⟩, (windowOffset_eq_none _ _).1 h⟩
  | read addr =>
    cases h : windowOffset s.cfg addr with
    | some off => exact .inl ⟨_, by simp only [hostMove, plainMove, h]; rfl⟩
    | none => exact .inr ⟨by simp only [hostMove, plainMove, h], addr, .inl rfl, (windowOffset_eq_none _ _).1 h⟩
  | store a b => exact .inl ⟨_, rfl⟩
  | load a => exact .inl ⟨_, rfl⟩
  | reset => exact .inl ⟨_, rfl⟩
  | foretell a => exact .inl ⟨_, rfl⟩

/-- A window access that the host must not make is refused. -/
theorem hostMove_outside {act : HostAct} {s : State} {addr : Nat} (h : OutsideWindow s.cfg addr)
    (hact : act = .read addr ∨ ∃ v, act = .write addr v) : hostMove act s = .refused .hostAccess := by
  have hoff := (windowOffset_eq_none _ _).2 h
  rcases hact with rfl | ⟨v, rfl⟩ <;> simp [hostMove, plainMove, hoff]

/-- Settles O18: a step is the sequencer's, which answers, or a host move, and of those the illegal window accesses alone are refused. -/
theorem onlyIllegalHostAccessIsRefused : Obligations.OnlyIllegalHostAccessIsRefused := by
  intro s
  constructor
  · cases hq : s.hostQueue with
    | nil => rw [step_of_nil hq]; exact .inl (sequencer_answers s)
    | cons act rest =>
      rw [step_of_cons hq]
      refine (hostMove_answers act _).imp_right fun ⟨href, addr, hact, hout⟩ => ⟨href, addr, rest, ?_, hout⟩
      exact hact.imp (by rintro rfl; rfl) (fun ⟨v, hv⟩ => ⟨v, by rw [hv]⟩)
  · rintro addr rest (hq | ⟨v, hq⟩) hout
    · exact (step_of_cons hq).trans (hostMove_outside hout (.inl rfl))
    · exact (step_of_cons hq).trans (hostMove_outside hout (.inr ⟨v, rfl⟩))

theorem step_read {s : State} {rest : List HostAct} {off : Nat} (hq : s.hostQueue = .read (s.cfg.coreBase + off) :: rest)
    (h4 : off % 4 = 0) (hlt : off < 256) :
    step s = .next ({ s with hostQueue := rest }.readWindow (windowReg off)) := by
  simp [step_of_cons hq, hostMove, plainMove, windowOffset_add _ h4 hlt]

theorem step_write {s : State} {rest : List HostAct} {off : Nat} {v : Word}
    (hq : s.hostQueue = .write (s.cfg.coreBase + off) v :: rest) (h4 : off % 4 = 0) (hlt : off < 256) :
    step s = .next ({ s with hostQueue := rest }.writeWindow (windowReg off) v) := by
  simp [step_of_cons hq, hostMove, plainMove, windowOffset_add _ h4 hlt]

/-! ### The table of the window (10_state.md R40) -/

/-- The offsets that name nothing. -/
def ReservedOffset (off : Nat) : Prop := (0x20 ≤ off ∧ off < 0x40) ∨ (0x80 ≤ off ∧ off < 0x100)

theorem windowReg_reserved {off : Nat} (h : ReservedOffset off) : windowReg off = .reserved := by
  unfold ReservedOffset at h
  unfold windowReg
  split
  case h_9 => rw [if_neg (by omega)]
  all_goals omega

/-- X0 to X15 stand at 0x40, 0x44, …, 0x7C. -/
theorem windowReg_x (n : Reg) : windowReg (0x40 + 4 * n.val) = .x n := by
  revert n; decide

theorem exists_windowReg_x {off : Nat} (h4 : off % 4 = 0) (hlo : 0x40 ≤ off) (hhi : off < 0x80) :
    ∃ n, windowReg off = .x n :=
  ⟨⟨(off - 0x40) / 4, by omega⟩, by rw [← windowReg_x]; congr 1; simp only; omega⟩

/-! ### Reads -/

theorem readWindow_of_some {s : State} {r : WindowReg} {v : Word} (h : windowValue s r = some v) :
    s.readWindow r = { s with hostData := v } := by simp [State.readWindow, h]

theorem readWindow_of_none {s : State} {r : WindowReg} (h : windowValue s r = none) :
    s.readWindow r = { s with hostData := Config.freeWord s.freeCount, freeCount := s.freeCount + 1 } := by
  simp [State.readWindow, h]

/-- A legal read of a register that has a value there. -/
theorem step_read_of_some {s : State} {rest : List HostAct} {off : Nat} {v : Word}
    (hq : s.hostQueue = .read (s.cfg.coreBase + off) :: rest) (h4 : off % 4 = 0) (hlt : off < 256)
    (hval : windowValue s (windowReg off) = some v) : step s = .next { s with hostQueue := rest, hostData := v } :=
  (step_read hq h4 hlt).trans (congrArg _ (readWindow_of_some (s := { s with hostQueue := rest }) hval))

/-- A legal read of a register whose value is unspecified (10_state.md R52). -/
theorem step_read_of_none {s : State} {rest : List HostAct} {off : Nat}
    (hq : s.hostQueue = .read (s.cfg.coreBase + off) :: rest) (h4 : off % 4 = 0) (hlt : off < 256)
    (hval : windowValue s (windowReg off) = none) : step s = .next { s with
      hostQueue := rest, hostData := Config.freeWord s.freeCount, freeCount := s.freeCount + 1 } :=
  (step_read hq h4 hlt).trans (congrArg _ (readWindow_of_none (s := { s with hostQueue := rest }) hval))

theorem windowValue_reserved {off : Nat} (s : State) (h : ReservedOffset off) : windowValue s (windowReg off) = some 0#32 := by
  rw [windowReg_reserved h]; rfl

theorem cfgWord_eq (c : Config) : cfgWord c = BitVec.ofNat 32 (c.maxFftLog2 % 32) := by
  unfold cfgWord
  apply BitVec.eq_of_toNat_eq
  simp

theorem ctrlWord_eq (s : State) : ctrlWord s = BitVec.ofNat 32 (2 * s.allowSat.toNat + 4 * s.irqEn.toNat) := by
  unfold ctrlWord
  cases s.allowSat <;> cases s.irqEn <;> rfl

/-- The fields of STATUS at their weights (10_state.md R42). -/
theorem statusBits (busy done fault : Bool) (code : BitVec 4) :
    0#20 ++ code ++ 0#5 ++ BitVec.ofBool fault ++ BitVec.ofBool done ++ BitVec.ofBool busy =
      BitVec.ofNat 32 (busy.toNat + 2 * done.toNat + 4 * fault.toNat + 256 * code.toNat) := by
  revert busy done fault code; decide

theorem statusWord_eq (s : State) : statusWord s = BitVec.ofNat 32
    ((decide (s.run = .run)).toNat + 2 * s.doneBit.toNat + 4 * s.faultBit.toNat + 256 * s.cause.code.toNat) :=
  statusBits ..

theorem windowTable_eq (s : State) : windowTable s =
    (windowTable s).take 8 ++ (List.finRange 16).map (fun n => (0x40 + 4 * n.val, s.reg n)) := rfl

/-- Every window register reads as its value of the table while IDLE. -/
theorem windowValue_of_mem_windowTable {s : State} {off : Nat} {v : Word} (hidle : s.run = .idle)
    (h : (off, v) ∈ windowTable s) : off % 4 = 0 ∧ off < 256 ∧ windowValue s (windowReg off) = some v := by
  rw [windowTable_eq, List.mem_append, List.mem_map] at h
  rcases h with h | ⟨n, -, heq⟩
  · simp only [windowTable, List.take, List.mem_cons, Prod.mk.injEq, List.not_mem_nil, or_false] at h
    rcases h with ⟨rfl, rfl⟩ | ⟨rfl, rfl⟩ | ⟨rfl, rfl⟩ | ⟨rfl, rfl⟩ | ⟨rfl, rfl⟩ | ⟨rfl, rfl⟩ | ⟨rfl, rfl⟩ | ⟨rfl, rfl⟩ <;>
      refine ⟨by decide, by decide, ?_⟩ <;>
      simp [windowReg, windowValue, hidle, idWord, cfgWord_eq, ctrlWord_eq, statusWord_eq]
  · obtain ⟨rfl, rfl⟩ := Prod.mk.inj heq
    refine ⟨by omega, by omega, ?_⟩
    rw [windowReg_x, windowValue, hidle]

/-- Settles O51: each offset of the table reads its value, each reserved offset 0. -/
theorem idleWindowReadsAreCurrent : Obligations.IdleWindowReadsAreCurrent := by
  rintro s rest off v hidle hq (h | ⟨h4, rfl, hres⟩)
  · obtain ⟨h4, hlt, hval⟩ := windowValue_of_mem_windowTable hidle h
    exact step_read_of_some hq h4 hlt hval
  · exact step_read_of_some hq h4 (by omega) (windowValue_reserved s hres)

/-- Settles O52: the registers that stay readable while RUN, the reserved offsets, and those that read as a free value. -/
theorem runningWindowReadsAreCurrentOrFree : Obligations.RunningWindowReadsAreCurrentOrFree := by
  refine fun s rest off hrun hq => ⟨fun v h => ?_, fun h4 hres => ?_, fun h4 hoff => ?_⟩
  · simp only [List.mem_cons, Prod.mk.injEq, List.not_mem_nil, or_false] at h
    have hval : off % 4 = 0 ∧ off < 256 ∧ windowValue s (windowReg off) = some v := by
      rcases h with ⟨rfl, rfl⟩ | ⟨rfl, rfl⟩ | ⟨rfl, rfl⟩ | ⟨rfl, rfl⟩ | ⟨rfl, rfl⟩ | ⟨rfl, rfl⟩ <;>
        refine ⟨by decide, by decide, ?_⟩ <;>
        simp [windowReg, windowValue, hrun, idWord, cfgWord_eq, ctrlWord_eq, statusWord_eq]
    obtain ⟨h4, hlt, hval⟩ := hval
    exact step_read_of_some hq h4 hlt hval
  · exact step_read_of_some hq h4 (by omega) (windowValue_reserved s hres)
  · have hfree : windowValue s (windowReg off) = none := by
      rcases hoff with rfl | rfl | ⟨hlo, hhi⟩
      · simp [windowReg, windowValue, hrun]
      · simp [windowReg, windowValue, hrun]
      · obtain ⟨n, hn⟩ := exists_windowReg_x h4 hlo hhi
        simp [hn, windowValue, hrun]
    exact ⟨_, step_read_of_none hq h4 (by omega) hfree⟩

/-! ### Writes -/

theorem writeCtrl_idle_policy {s : State} {v : Word} (h : s.run = .idle) (h0 : v.getLsbD 0 = false) :
    s.writeCtrl v = { s with allowSat := v.getLsbD 1, irqEn := v.getLsbD 2 } := by
  simp only [State.writeCtrl, h, h0]; rfl

theorem writeCtrl_idle_start {s : State} {v : Word} (h : s.run = .idle) (h0 : v.getLsbD 0 = true) :
    s.writeCtrl v = { s with allowSat := v.getLsbD 1, irqEn := v.getLsbD 2 }.start := by
  simp only [State.writeCtrl, h, h0]; rfl

theorem writeCtrl_run {s : State} (h : s.run = .run) (v : Word) :
    s.writeCtrl v = { s with irqEn := v.getLsbD 2, abortReq := v.getLsbD 3 || s.abortReq } := by
  simp only [State.writeCtrl, h]

/-- Settles O53: the three cases of `State.writeCtrl`. -/
theorem ctrlWriteStartsOrAborts : Obligations.CtrlWriteStartsOrAborts := by
  intro s rest v hq
  have hstep : step s = .next ({ s with hostQueue := rest }.writeCtrl v) := step_write hq (by decide) (by decide)
  exact ⟨fun hidle h0 => hstep.trans (congrArg _ (writeCtrl_idle_policy hidle h0)),
    fun hidle h0 => hstep.trans (congrArg _ (writeCtrl_idle_start hidle h0)),
    fun hrun => hstep.trans (congrArg _ (writeCtrl_run (s := { s with hostQueue := rest }) hrun v))⟩

/-- Settles O54: a STATUS write is `State.writeStatus`. -/
theorem statusWriteClearsBits : Obligations.StatusWriteClearsBits := by
  intro s rest v hq
  rw [step_write hq (by decide) (by decide)]
  simp [windowReg, State.writeWindow, State.writeStatus, Bool.and_comm]

/-- The registers that ignore every write (10_state.md R43, R44, R47, R48; log entry 9). -/
theorem writeWindow_ignored {r : WindowReg} (s : State) (v : Word) (h : r ∈ [WindowReg.id, .cfg, .epc, .finfo, .reserved]) :
    s.writeWindow r v = s := by
  simp only [List.mem_cons, List.not_mem_nil, or_false] at h
  rcases h with rfl | rfl | rfl | rfl | rfl <;> rfl

/-- While RUN only CTRL and STATUS take a write (10_state.md R51). -/
theorem writeWindow_run {s : State} {r : WindowReg} (h : s.run = .run) (v : Word) (hc : r ≠ .ctrl) (hs : r ≠ .status) :
    s.writeWindow r v = s := by
  cases r with
  | ctrl => exact absurd rfl hc
  | status => exact absurd rfl hs
  | id | cfg | epc | finfo | reserved => rfl
  | pc | vl | x n => simp [State.writeWindow, h]

theorem writeWindow_pc_idle {s : State} (h : s.run = .idle) (v : Word) : s.writeWindow .pc v = { s with pc := v } := by
  simp only [State.writeWindow, h]

theorem writeWindow_vl_idle {s : State} (h : s.run = .idle) (v : Word) : s.writeWindow .vl v = { s with vl := v } := by
  simp only [State.writeWindow, h]

theorem writeWindow_x_idle {s : State} (h : s.run = .idle) (n : Reg) (v : Word) :
    s.writeWindow (.x n) v = s.setReg n v := by simp only [State.writeWindow, h]

/-- A legal write while RUN to anything but CTRL and STATUS is dropped. -/
theorem step_write_run {s : State} {rest : List HostAct} {off : Nat} {v : Word} {r : WindowReg}
    (hq : s.hostQueue = .write (s.cfg.coreBase + off) v :: rest) (h4 : off % 4 = 0) (hlt : off < 256)
    (hr : windowReg off = r) (hrun : s.run = .run) (hc : r ≠ .ctrl) (hs : r ≠ .status) :
    step s = .next { s with hostQueue := rest } :=
  (step_write hq h4 hlt).trans (congrArg _ (hr ▸ writeWindow_run (s := { s with hostQueue := rest }) hrun v hc hs))

/-- Settles O55: while IDLE each register takes its write, while RUN `step_write_run` drops it; the others ignore it always. -/
theorem registerWritesTakeEffectOnlyWhileIdle : Obligations.RegisterWritesTakeEffectOnlyWhileIdle := by
  intro s rest v
  refine ⟨fun hq => ⟨fun hidle => ?_, fun hrun => ?_⟩, fun hq => ⟨fun hidle => ?_, fun hrun => ?_⟩,
    fun n hq => ⟨fun hidle => ?_, fun hrun => ?_⟩, fun off h4 hoff hq => ?_⟩
  · exact (step_write hq (by decide) (by decide)).trans
      (congrArg _ (writeWindow_pc_idle (s := { s with hostQueue := rest }) hidle v))
  · exact step_write_run hq (by decide) (by decide) rfl hrun (by decide) (by decide)
  · exact (step_write hq (by decide) (by decide)).trans
      (congrArg _ (writeWindow_vl_idle (s := { s with hostQueue := rest }) hidle v))
  · exact step_write_run hq (by decide) (by decide) rfl hrun (by decide) (by decide)
  · rw [Nat.add_assoc] at hq
    refine ⟨_, ?_, setReg_frame { s with hostQueue := rest } n v, fun k => reg_setReg _ n k v⟩
    rw [step_write hq (by omega) (by omega), windowReg_x,
      writeWindow_x_idle (s := { s with hostQueue := rest }) hidle]
  · rw [Nat.add_assoc] at hq
    exact step_write_run hq (by omega) (by omega) (windowReg_x n) hrun (by simp) (by simp)
  · have hreg : windowReg off ∈ [WindowReg.id, .cfg, .epc, .finfo, .reserved] := by
      rcases hoff with hoff | hres
      · simp only [List.mem_cons, List.not_mem_nil, or_false] at hoff
        rcases hoff with rfl | rfl | rfl | rfl <;> decide
      · rw [windowReg_reserved hres]; decide
    have hlt : off < 256 := by
      simp only [List.mem_cons, List.not_mem_nil, or_false] at hoff; omega
    rw [step_write hq h4 hlt, writeWindow_ignored _ v hreg]

end Sys2Proof.Machine
end

section
/-! The invariant `Inv` (spec/10_state.md R37, R42; 20_memory.md R78): every step of the sequencer keeps it and every move of the host. -/

namespace Sys2Proof.Machine

/-! ### Commands -/

/-- The invariant at the end of a command, before its boundary: the record of a race may still be that of a run which has ended. -/
structure InvAtBoundary (s : State) : Prop where
  apartFromRace : Inv { s with race := .none }
  storesInSpace : ∀ a ∈ s.race.hostStored, a < 2 ^ 32

theorem inv_forget_race {s : State} (h : Inv s) : Inv { s with race := .none } :=
  { h with raceOnlyInRun := fun _ => rfl, storesInSpace := fun _ ha => absurd ha List.not_mem_nil }

theorem Inv.atBoundary {s : State} (h : Inv s) : InvAtBoundary s := ⟨inv_forget_race h, h.storesInSpace⟩

/-- Fault entry and abort: FAULT with a cause, where DONE was 0 because the machine ran (10_state.md R42). -/
theorem inv_of_fault {s : State} {c : Cause} {pc info : Word} (h : Inv s) (hrun : s.run = .run) (hc : c ≠ .none) :
    Inv { s with epc := pc, finfo := info, cause := c, faultBit := true, run := .idle, abortReq := false, race := .none } where
  memory := h.memory
  config := h.config
  notBoth := fun hb => by simpa [(h.runClear hrun).1] using hb.1
  runClear := fun hr => nomatch hr
  causeIffFault := by simp [hc]
  abortOnlyInRun := fun _ => rfl
  raceOnlyInRun := fun _ => rfl
  storesInSpace := fun _ ha => absurd ha List.not_mem_nil

theorem atBoundary_raise {s : State} {x : Trap} (h : Inv s) (hrun : s.run = .run) (hx : x.cause ≠ .none) :
    InvAtBoundary (s.raise x) :=
  ⟨inv_of_fault (s := s) h hrun hx, h.storesInSpace⟩

theorem atBoundary_halt {s : State} (h : Inv s) (hrun : s.run = .run) : InvAtBoundary s.halt where
  apartFromRace := { inv_forget_race h with
    notBoth := fun hb => by simpa [(h.runClear hrun).2] using hb.2
    runClear := fun hr => nomatch hr
    abortOnlyInRun := fun _ => rfl
    raceOnlyInRun := fun _ => rfl }
  storesInSpace := h.storesInSpace

/-- A command that completes keeps memory canonical and leaves what else the invariant is about as it was. -/
theorem Completes.inv {ds : List Reg} {sp : List Span} {s t : State} (hc : Completes ds sp s t) (h : Inv s) : Inv t := by
  have hm := hc.canonical h.memory
  rw [hc.frame]
  exact { h with memory := hm }

theorem exec_atBoundary {i : Instr} {s t : State} (h : Inv s) (hrun : s.run = .run) (he : exec i s = .next t) :
    InvAtBoundary t := by
  rcases exec_ends he with ⟨x, hx, rfl⟩ | ⟨-, rfl⟩ | ⟨d, a, imm16, -, rfl⟩ | ⟨a, -, rfl⟩ | hc
  · exact atBoundary_raise h hrun (by rintro hn; simp [hn] at hx)
  · exact atBoundary_halt h hrun
  · exact ⟨{ inv_forget_race h with }, h.storesInSpace⟩
  · exact ⟨{ inv_forget_race h with }, h.storesInSpace⟩
  · exact (hc.inv h).atBoundary

theorem fetchTrap_cause {s : State} {x : Trap} (h : fetchTrap s = some x) : x.cause ≠ .none := by
  unfold fetchTrap at h
  split at h
  · cases h; simp
  · split at h
    · cases h; simp
    · simp at h

theorem command_atBoundary {s t : State} (h : Inv s) (hrun : s.run = .run) (hc : command s = .next t) : InvAtBoundary t := by
  unfold command at hc
  split at hc
  · next x hx => cases hc; exact atBoundary_raise h hrun (fetchTrap_cause hx)
  · split at hc
    · cases hc; exact atBoundary_raise h hrun (by simp)
    · exact exec_atBoundary h hrun hc

/-- What a race leaves of a command keeps memory canonical: it writes only where the host stored (20_memory.md R78). -/
theorem after_atBoundary {s t : State} (h : Inv s) (ht : InvAtBoundary t) : InvAtBoundary (s.after t) where
  apartFromRace := {
    memory := wf_settle t s.mem _ ht.apartFromRace.memory fun a ha => h.storesInSpace a (List.mem_of_mem_filter ha)
    config := by simpa using ht.apartFromRace.config
    notBoth := by simpa using ht.apartFromRace.notBoth
    runClear := by simpa using ht.apartFromRace.runClear
    causeIffFault := by simpa using ht.apartFromRace.causeIffFault
    abortOnlyInRun := by simpa using ht.apartFromRace.abortOnlyInRun
    raceOnlyInRun := fun _ => rfl
    storesInSpace := fun _ ha => absurd ha List.not_mem_nil }
  storesInSpace := by simpa [State.after, Race.record] using ht.storesInSpace

/-- The command boundary (60_exceptions.md R226): a pending abort is a fault entry, and a race ends with its run. -/
theorem inv_boundary {s : State} (h : InvAtBoundary s) : Inv s.boundary := by
  have h0 := h.apartFromRace
  cases hrun : s.run with
  | idle => simpa [State.boundary, hrun] using h0
  | run =>
    by_cases habort : s.abortReq = true
    · have ha : s.boundary = { s.abort with race := .none } := by simp [State.boundary, hrun, habort]
      rw [ha]
      exact inv_of_fault (s := { s with race := .none }) h0 hrun (by simp)
    · rw [boundary_quiet s hrun (by simpa using habort)]
      exact { h0 with
        raceOnlyInRun := fun hidle => by simp [hrun] at hidle
        storesInSpace := h.storesInSpace }

theorem inv_sequencer {s t : State} (h : Inv s) (hs : sequencer s = .next t) : Inv t := by
  cases hrun : s.run with
  | idle => rw [sequencer_idle s hrun] at hs; cases hs; exact h
  | run =>
    obtain ⟨u, hu, hseq⟩ := sequencer_run_answers hrun
    rw [hseq] at hs
    cases hs
    exact inv_boundary (after_atBoundary h (command_atBoundary h hrun hu))

/-! ### Host moves -/

theorem inv_withQueue {s : State} (h : Inv s) (rest : List HostAct) : Inv { s with hostQueue := rest } := { h with }

theorem inv_foresee {s : State} (h : Inv s) (act : HostAct) : Inv (s.foresee act) := by
  unfold State.foresee
  split
  · next hrun => exact { h with raceOnlyInRun := fun hidle => absurd (hrun.1.symm.trans hidle) (by simp) }
  · exact h

theorem inv_start {s : State} (h : Inv s) : Inv s.start :=
  { h with
    notBoth := by simp
    runClear := by simp
    causeIffFault := by simp
    abortOnlyInRun := by simp
    raceOnlyInRun := by simp }

theorem inv_writeCtrl {s : State} (h : Inv s) (v : Word) : Inv (s.writeCtrl v) := by
  cases hrun : s.run with
  | idle =>
    cases h0 : v.getLsbD 0 with
    | false => rw [writeCtrl_idle_policy hrun h0]; exact { h with }
    | true => rw [writeCtrl_idle_start hrun h0]; exact inv_start { h with }
  | run =>
    rw [writeCtrl_run hrun]
    exact { h with abortOnlyInRun := fun hidle => by simp [hrun] at hidle }

theorem inv_writeStatus {s : State} (h : Inv s) (v : Word) : Inv (s.writeStatus v) :=
  { h with
    notBoth := fun hb => by
      simp only [State.writeStatus, Bool.and_eq_true] at hb
      exact h.notBoth ⟨hb.1.2, hb.2.2⟩
    runClear := fun hrun => by
      simp [State.writeStatus, h.runClear hrun]
    causeIffFault := by
      cases hv : v.getLsbD 2 <;> simp only [State.writeStatus, hv]
      · simpa using h.causeIffFault
      · simp }

theorem inv_setReg {s : State} (h : Inv s) (n : Reg) (v : Word) : Inv (s.setReg n v) := by
  rw [setReg_frame]; exact { h with }

theorem inv_writeWindow {s : State} (h : Inv s) (r : WindowReg) (v : Word) : Inv (s.writeWindow r v) := by
  cases r with
  | id | cfg | epc | finfo | reserved => exact h
  | ctrl => exact inv_writeCtrl h v
  | status => exact inv_writeStatus h v
  | pc =>
    cases hrun : s.run with
    | idle => rw [writeWindow_pc_idle hrun]; exact { h with }
    | run => rw [writeWindow_run hrun v (by simp) (by simp)]; exact h
  | vl =>
    cases hrun : s.run with
    | idle => rw [writeWindow_vl_idle hrun]; exact { h with }
    | run => rw [writeWindow_run hrun v (by simp) (by simp)]; exact h
  | x n =>
    cases hrun : s.run with
    | idle => rw [writeWindow_x_idle hrun]; exact inv_setReg h n v
    | run => rw [writeWindow_run hrun v (by simp) (by simp)]; exact h

theorem inv_readWindow {s : State} (h : Inv s) (r : WindowReg) : Inv (s.readWindow r) := by
  unfold State.readWindow
  split <;> exact { h with }

theorem inv_setMem {s : State} (h : Inv s) {m : Memory} (hm : m.wf) : Inv (s.setMem m) := { h with memory := hm }

theorem wf_write_word {m : Memory} (h : m.wf) (a : Word) (b : Byte) : (m.write (u32 a) b).wf :=
  m.wf_write (u32 a) b h a.isLt

/-- While RUN a store goes on record, at an address of the address space. -/
theorem inv_hostStored {s : State} (h : Inv s) (hrun : s.run = .run) (a : Word) :
    Inv { s with race := { s.race with hostStored := u32 a :: s.race.hostStored } } :=
  { h with
    raceOnlyInRun := fun hidle => absurd (hrun.symm.trans hidle) (by simp)
    storesInSpace := fun x hx => by
      rcases List.mem_cons.1 hx with rfl | hx
      · exact a.isLt
      · exact h.storesInSpace x hx }

theorem inv_hostStore {s : State} (h : Inv s) (a : Word) (b : Byte) : Inv (s.hostStore a b) := by
  unfold State.hostStore
  split
  · exact inv_setMem h (wf_write_word h.memory a b)
  · next hrun =>
    split
    · exact inv_hostStored (s := s.oneByteAt (u32 a) b _) { h with memory := wf_write_word h.memory a _ } hrun a
    · exact inv_hostStored (inv_setMem h (wf_write_word h.memory a b)) hrun a

theorem inv_hostLoad {s : State} (h : Inv s) (a : Word) : Inv (s.hostLoad a) := by
  unfold State.hostLoad
  split
  · exact { h with }
  · next hrun => exact { h with raceOnlyInRun := fun hidle => absurd (hrun.symm.trans hidle) (by simp) }

theorem inv_foretell {s : State} (h : Inv s) (a : Word) : Inv (s.foretell a) :=
  { h with
    raceOnlyInRun := fun hidle => by
      have hr := h.raceOnlyInRun hidle
      rw [foretell_race, hr] }

/-! ### Reset -/

/-- The reset state with any legal parameters and any canonical memory. -/
theorem inv_afterReset {c : Config} {m : Memory} (hc : c.wf) (hm : m.wf) : Inv (State.afterReset c m) where
  memory := hm
  config := hc
  notBoth := by simp [State.afterReset]
  runClear := by simp [State.afterReset]
  causeIffFault := by simp [State.afterReset]
  abortOnlyInRun := fun _ => rfl
  raceOnlyInRun := fun _ => rfl
  storesInSpace := fun _ ha => absurd ha List.not_mem_nil

/-- Settles O17: `inv_afterReset`, and State.reset is of that form. -/
theorem resetMeetsInvariant : Obligations.ResetMeetsInvariant :=
  ⟨fun _ _ => inv_afterReset, inv_afterReset (by decide) Memory.wf_nil⟩

theorem mem_spanAddrs {sp : List Span} {a : Nat} : a ∈ sp.flatMap spanAddrs ↔ inSpans sp a = true := by
  simp only [List.mem_flatMap, spanAddrs, List.mem_map, List.mem_range, inSpans, List.any_eq_true, decide_eq_true_eq]
  refine exists_congr fun p => and_congr_right fun _ => ⟨?_, fun h => ⟨a - p.base, by omega, by omega⟩⟩
  rintro ⟨k, hk, rfl⟩
  omega

/-- A command in progress writes within the address space (20_memory.md R67). -/
theorem lt_of_inSpans_storeSpans {s : State} {i : Instr} (hi : inProgress s = some i) (a : Nat)
    (ha : inSpans (storeSpans i s) a = true) : a < 2 ^ 32 := by
  obtain ⟨-, -, t, he, hrun⟩ := inProgress_eq_some hi
  rcases exec_ends he with ⟨x, -, rfl⟩ | ⟨rfl, -⟩ | ⟨d, b, imm16, rfl | rfl, -⟩ | ⟨b, rfl, -⟩ | hc
  · simp at hrun
  · simp [storeSpans, inSpans] at ha
  · simp [storeSpans, inSpans] at ha
  · simp [storeSpans, inSpans] at ha
  · simp [storeSpans, inSpans] at ha
  · exact hc.inSpace a ha

/-- A reset inside a command: what it leaves of the command in progress, or nothing (70_reset_and_hazards.md R250). -/
theorem abandon_cases (s : State) : s.abandon = s ∨ ∃ i, s.run = .run ∧ inProgress s = some i ∧
    s.abandon = s.oneOfWritesAt s.mem (commandCells i s) ((storeSpans i s).flatMap spanAddrs) := by
  unfold State.abandon
  split
  · next i hrun hi => exact .inr ⟨i, hrun, hi, rfl⟩
  · exact .inl rfl

theorem abandon_cfg (s : State) : s.abandon.cfg = s.cfg := by
  rcases abandon_cases s with h | ⟨i, -, -, h⟩ <;> rw [h]
  exact oneOfWritesAt_cfg ..

theorem wf_abandon {s : State} (h : s.mem.wf) : s.abandon.mem.wf := by
  rcases abandon_cases s with heq | ⟨i, -, hi, heq⟩ <;> rw [heq]
  · exact h
  · exact wf_oneOfWritesAt s s.mem _ _ h fun a ha => lt_of_inSpans_storeSpans hi a (mem_spanAddrs.1 ha)

theorem inv_hostReset {s : State} (h : Inv s) : Inv s.hostReset :=
  { inv_afterReset (c := s.abandon.cfg) (abandon_cfg s ▸ h.config) (wf_abandon h.memory) with }

/-! ### Every step -/

theorem inv_hostMove {act : HostAct} {s t : State} (h : Inv s) (hm : hostMove act s = .next t) : Inv t := by
  cases act with
  | pass => exact inv_sequencer (inv_foresee h .pass) hm
  | write addr v =>
    simp only [hostMove, plainMove] at hm
    split at hm
    · cases hm; exact inv_writeWindow h _ v
    · cases hm
  | read addr =>
    simp only [hostMove, plainMove] at hm
    split at hm
    · cases hm; exact inv_readWindow h _
    · cases hm
  | store a b => cases hm; exact inv_hostStore h a b
  | load a => cases hm; exact inv_hostLoad (inv_foresee h _) a
  | reset => cases hm; exact inv_hostReset h
  | foretell a => cases hm; exact inv_foretell h a

/-- Settles O16: by the next move, the sequencer's or the host's. -/
theorem stepKeepsInvariant : Obligations.StepKeepsInvariant := by
  intro s t h hstep
  cases hq : s.hostQueue with
  | nil => exact inv_sequencer h (step_of_nil hq ▸ hstep)
  | cons act rest => exact inv_hostMove (inv_withQueue h rest) (step_of_cons hq ▸ hstep)

end Sys2Proof.Machine
end

section
/-! The host's accesses to the shared memory (spec/10_state.md R30; 20_memory.md R60, R78): what its loads and stores do, and that what is
foretold does race. -/

namespace Sys2Proof.Machine

/-! ### What is foretold (log entry 6) -/

/-- Narrowing ends in bytes that do race where just they are read as free values. -/
theorem narrow_sound (acts : List HostAct) (s : State) (fuel : Nat) (l : List Nat) :
    ∀ a ∈ narrow acts s fuel l, a ∈ racesWith acts s (narrow acts s fuel l) := by
  induction fuel generalizing l with
  | zero => simp [narrow]
  | succ fuel ih =>
    rw [narrow]
    split
    · simp
    · by_cases hkept : l.filter (fun a => decide (a ∈ racesWith acts s l)) = l
      · rw [if_pos hkept]
        exact fun a ha => of_decide_eq_true (List.filter_eq_self.1 hkept a ha)
      · rw [if_neg hkept]
        exact ih _

theorem racesAhead_sound (acts : List HostAct) (s : State) :
    ∀ a ∈ racesAhead acts s, a ∈ racesWith acts s (racesAhead acts s) := by
  simp only [racesAhead]
  split
  · simp
  · exact narrow_sound acts s _ _

/-- Foreseeing changes what is foretold, once in a run, and to bytes that do race. -/
theorem foresee_sound (s : State) (act : HostAct) : ∃ l f,
    s.foresee act = { s with race := { s.race with foretold := l, foreseen := f } } ∧
      (s.race.foreseen = true → l = s.race.foretold) ∧
      (s.run = .run → s.race.foreseen = false → ∀ a ∈ l, a ∈ racesWith (act :: s.hostQueue) s l) := by
  by_cases h : s.run = .run ∧ s.race.foreseen = false
  · refine ⟨racesAhead (act :: s.hostQueue) s, true, by simp only [State.foresee, if_pos h]; rfl, ?_, fun _ _ => ?_⟩
    · simp [h.2]
    · exact racesAhead_sound _ s
  · exact ⟨s.race.foretold, s.race.foreseen, by simp only [State.foresee, if_neg h], fun _ => rfl,
      fun hrun hf => absurd ⟨hrun, hf⟩ h⟩

/-! ### Loads -/

theorem hostLoad_idle {s : State} (h : s.run = .idle) (a : Word) :
    s.hostLoad a = { s with hostData := (s.mem.read (u32 a)).setWidth 32 } := by
  simp only [State.hostLoad, h]

theorem hostLoad_run {s : State} (h : s.run = .run) (a : Word) : s.hostLoad a = { s with
    hostData := (if s.loadRaces (u32 a) then Config.freeByte s.freeCount else s.mem.read (u32 a)).setWidth 32
    race := { s.race with hostLoaded := u32 a :: s.race.hostLoaded }
    freeCount := s.freeCount + 1 } := by
  simp only [State.hostLoad, h]

theorem loadRaces_eq_false {s : State} {a : Nat} (hf : a ∉ s.race.foretold) (hw : inSpans s.race.runWrote a = false)
    (hr : a ∈ s.race.hostStored → inSpans s.race.runRead a = false) : s.loadRaces a = false := by
  simp only [State.loadRaces, hw, Bool.false_or, Bool.or_eq_false_iff, Bool.and_eq_false_iff, decide_eq_false_iff_not]
  exact ⟨or_iff_not_imp_left.2 fun h => hr (not_not.1 h), hf⟩

/-! ### Stores -/

/-- All that a store can do, IDLE or RUN: the byte is the host's, or that of the run where the run has written it; no other byte changes. -/
theorem hostStore_mem (s : State) (a : Word) (b : Byte) :
    (∀ x, x ≠ u32 a → (s.hostStore a b).mem.read x = s.mem.read x) ∧
      ((s.hostStore a b).mem.read (u32 a) = b ∨ s.run = .run ∧ inSpans s.race.runWrote (u32 a) = true ∧
        (s.hostStore a b).mem.read (u32 a) = s.mem.read (u32 a)) := by
  have written (c : Byte) : (∀ x, x ≠ u32 a → (s.mem.write (u32 a) c).read x = s.mem.read x) ∧
      (s.mem.write (u32 a) c).read (u32 a) = c :=
    ⟨fun x hx => by rw [Memory.read_write, if_neg hx], by rw [Memory.read_write, if_pos rfl]⟩
  unfold State.hostStore
  split
  · exact ⟨(written b).1, .inl (written b).2⟩
  · next hrun =>
    split
    · next hw =>
      have hpick := pick_mem s.freeCount b [s.mem.read (u32 a)]
      simp only [List.mem_cons, List.not_mem_nil, or_false] at hpick
      exact ⟨(written _).1, hpick.imp (written _).2.trans fun h => ⟨hrun, hw, (written _).2.trans h⟩⟩
    · exact ⟨(written b).1, .inl (written b).2⟩

theorem hostStore_idle_frame {s : State} (h : s.run = .idle) (a : Word) (b : Byte) :
    s.hostStore a b = { s with mem := (s.hostStore a b).mem } := by
  simp only [State.hostStore, h]

theorem hostStore_run_frame {s : State} (h : s.run = .run) (a : Word) (b : Byte) : s.hostStore a b = { s with
    mem := (s.hostStore a b).mem, freeCount := (s.hostStore a b).freeCount,
    race := { s.race with hostStored := u32 a :: s.race.hostStored } } := by
  simp only [State.hostStore, h]
  split
  · simp [State.oneByteAt, h]
  · rfl

/-! ### The obligation -/

theorem hostMove_load_idle {s : State} (hidle : s.run = .idle) (a : Word) :
    hostMove (.load a) s = .next { s with hostData := (s.mem.read (u32 a)).setWidth 32 } := by
  simp only [hostMove, plainMove]
  rw [foresee_idle _ _ hidle, hostLoad_idle hidle]

/-- A load while RUN: the races of the run are foreseen, then the byte is read, exactly where it does not race. -/
theorem hostMove_load_run {s : State} (hrun : s.run = .run) (a : Word) : ∃ t l f, hostMove (.load a) s = .next t ∧
    t = { s with
      hostData := t.hostData, freeCount := s.freeCount + 1,
      race := { s.race with foretold := l, foreseen := f, hostLoaded := u32 a :: s.race.hostLoaded } } ∧
    (s.race.foreseen = true → l = s.race.foretold) ∧
    (s.race.foreseen = false → ∀ x ∈ l, x ∈ racesWith (.load a :: s.hostQueue) s l) ∧
    (u32 a ∉ l → inSpans s.race.runWrote (u32 a) = false →
      (u32 a ∈ s.race.hostStored → inSpans s.race.runRead (u32 a) = false) →
      t.hostData = (s.mem.read (u32 a)).setWidth 32) := by
  obtain ⟨l, f, hfore, hkept, hsound⟩ := foresee_sound s (.load a)
  have hload : (s.foresee (.load a)).hostLoad a = _ := hostLoad_run (by simpa using hrun) a
  refine ⟨_, l, f, congrArg Host.Outcome.next hload, ?_, hkept, hsound hrun, fun hl hw hr => ?_⟩
  · simp only [hfore]
  · have hexact : (s.foresee (.load a)).loadRaces (u32 a) = false := by
      rw [hfore]; exact loadRaces_eq_false hl hw hr
    simp [hexact]

/-- Settles O59: loads while IDLE and while RUN, stores, and the move that names a byte. -/
theorem hostAccessesReachMemory : Obligations.HostAccessesReachMemory := by
  intro s rest a b
  refine ⟨fun hq => ⟨fun hidle => ?_, fun hrun => ?_⟩, fun hq => ?_, step_of_cons⟩
  · exact (step_of_cons hq).trans (hostMove_load_idle (s := { s with hostQueue := rest }) hidle a)
  · rw [step_of_cons hq]
    exact hostMove_load_run (s := { s with hostQueue := rest }) hrun a
  obtain ⟨hother, hbyte⟩ := hostStore_mem { s with hostQueue := rest } a b
  refine ⟨_, step_of_cons hq, hother, fun hidle => ⟨?_, ?_⟩, fun hrun => ⟨?_, fun hw => ?_, ?_⟩⟩
  · exact hostStore_idle_frame (s := { s with hostQueue := rest }) hidle a b
  · exact hbyte.resolve_right fun ⟨hrun, _⟩ => by simp [hidle] at hrun
  · exact hostStore_run_frame (s := { s with hostQueue := rest }) hrun a b
  · exact hbyte.resolve_right fun ⟨_, hwrote, _⟩ => by simp [hw] at hwrote
  · exact hbyte.imp_right fun ⟨_, _, h⟩ => h

end Sys2Proof.Machine
end

section
/-! A command does not depend on the host's pending moves (spec/10_state.md R30). -/

namespace Sys2Proof.Machine

/-- The state with other host moves pending. -/
def State.withQueue (q : List HostAct) (s : State) : State := { s with hostQueue := q }

/-- The outcome with the next state changed. -/
def onNext (f : State → State) : Host.Outcome State Fault Refusal → Host.Outcome State Fault Refusal
  | .next t => .next (f t)
  | .fault r => .fault r
  | .refused r => .refused r

theorem setReg_withQueue (q : List HostAct) (s : State) (d : Reg) (v : Word) :
    (s.withQueue q).setReg d v = (s.setReg d v).withQueue q := by
  unfold State.setReg
  split <;> rfl

theorem setGroup_withQueue (q : List HostAct) (s : State) (d : Reg) (vs : List Word) :
    (s.withQueue q).setGroup d vs = (s.setGroup d vs).withQueue q := by
  induction vs generalizing s d with
  | nil => rfl
  | cons v vs ih => rw [State.setGroup, State.setGroup, setReg_withQueue, ih]

theorem finish_withQueue (q : List HostAct) (s : State) (d : Reg) (v : Word) :
    (s.withQueue q).finish d v = (s.finish d v).withQueue q := by
  unfold State.finish; rw [setReg_withQueue]; rfl

theorem orTrap_withQueue (q : List HostAct) (x : Option Trap) {s e e' : State} (he : e' = e.withQueue q) :
    orTrap x (s.withQueue q) e' = onNext (State.withQueue q) (orTrap x s e) := by
  subst he
  cases x <;> rfl

theorem ite_withQueue (q : List HostAct) (c : Prop) [Decidable c] (s t : State) :
    Host.Outcome.next (if c then s.withQueue q else t.withQueue q) =
      onNext (State.withQueue q) (.next (if c then s else t)) := by
  split <;> rfl

theorem calculate_withQueue (q : List HostAct) (s : State) (w : Word) (d : Reg) (outs : List Int) :
    calculate (s.withQueue q) w d outs = onNext (State.withQueue q) (calculate s w d outs) :=
  orTrap_withQueue q _ (by rw [setGroup_withQueue]; rfl)

theorem kernel_withQueue (q : List HostAct) (s : State) (d : Reg) (out : Vec) (ins : List Vec) (f : Memory → Nat → Elem) :
    kernel (s.withQueue q) d out ins f = onNext (State.withQueue q) (kernel s d out ins f) :=
  orTrap_withQueue q _ (finish_withQueue q (s.setMem _) d _)

theorem vhrOf_withQueue (q : List HostAct) (ty : ElemTy) (d b : Reg) (s : State) :
    vhrOf ty d b (s.withQueue q) = onNext (State.withQueue q) (vhrOf ty d b s) :=
  orTrap_withQueue q _ (finish_withQueue q s d _)

theorem fftCommand_withQueue (q : List HostAct) (conj : Bool) (sub : Int) (d a b : Reg) (s : State) :
    fftCommand conj sub d a b (s.withQueue q) = onNext (State.withQueue q) (fftCommand conj sub d a b s) :=
  orTrap_withQueue q _ (congrArg State.advance (setGroup_withQueue q (s.setMem _) d _))

/-- A command does the same whatever host moves are pending. -/
theorem exec_withQueue (q : List HostAct) (i : Instr) (s : State) :
    exec i (s.withQueue q) = onNext (State.withQueue q) (exec i s) := by
  cases i
  case halt | setvl => rfl
  case lui | addi | add | sub | hrsS16 | hrsS32 => exact congrArg Host.Outcome.next (finish_withQueue q s _ _)
  case beq d a imm16 => exact ite_withQueue q _ (s.branch imm16) s.advance
  case bne d a imm16 => exact ite_withQueue q _ s.advance (s.branch imm16)
  case lw => exact orTrap_withQueue q _ (finish_withQueue q s _ _)
  case sw | vbitrevC32 => exact orTrap_withQueue q _ rfl
  case vhrS16 | vhrS32 | vhrC16 | vhrC32 => exact vhrOf_withQueue q _ _ _ s
  case fftfC32 | fftiC32 => exact fftCommand_withQueue q _ _ _ _ _ s
  case calcAddS16 | calcAddS32 | calcAddC16 | calcAddC32 | calcMulS16 | calcMulS32 | calcCmulC16 | calcCmulC32 | calcScaleS16 |
      calcScaleS32 | calcScaleC16 | calcScaleC32 | calcMagC16 | calcMagC32 | calcSqmagC16 | calcSqmagC32 =>
    exact calculate_withQueue q s _ _ _
  all_goals exact kernel_withQueue q s _ _ _ _

end Sys2Proof.Machine
end

section
/-! Commands that write no byte twice (spec/20_memory.md R69, R74): where the byte writes of a command go, and what replaying them leaves. -/

namespace Sys2Proof.Machine

open Sys2Proof.Claims

/-! ### Replaying byte writes -/

theorem read_replay_of_not_mem {log : List Host.Cell} {a : Nat} (m : Memory) (h : a ∉ log.map Prod.fst) :
    (replay m log).read a = m.read a :=
  (read_replay m log a).resolve_right fun hmem => h (List.mem_map_of_mem hmem)

/-- Where no address is written twice, each byte written is there at the end. -/
theorem read_replay_of_nodup {log : List Host.Cell} {a : Nat} {b : Byte} (m : Memory) (hnd : (log.map Prod.fst).Nodup)
    (h : (a, b) ∈ log) : (replay m log).read a = b := by
  induction log generalizing m with
  | nil => exact absurd h List.not_mem_nil
  | cons c log ih =>
    obtain ⟨hc, hnd⟩ := List.nodup_cons.1 hnd
    have hcons : replay m (c :: log) = replay (m.write c.1 c.2) log := rfl
    rw [hcons]
    rcases List.mem_cons.1 h with rfl | h
    · rw [read_replay_of_not_mem _ hc, Memory.read_write, if_pos rfl]
    · exact ih _ hnd h

/-! ### The addresses that are written -/

theorem fst_leCells (a n v : Nat) : (leCells a n v).map Prod.fst = List.range' a n := by
  induction n generalizing a v with
  | zero => rfl
  | succ n ih => rw [leCells, List.map_cons, ih, List.range'_succ]

/-- The bytes of a part of element i, ascending (20_memory.md R64). -/
def partAddrs (v : Vec) (i : Nat) (p : Part) : List Nat := List.range' (partAddr v i p) (bits v.ty / 8)

/-- The bytes of element i, re before im. -/
def elemAddrs (v : Vec) (i : Nat) : List Nat :=
  partAddrs v i .re ++ if isComplex v.ty then partAddrs v i .im else []

theorem fst_elemCells (v : Vec) (i : Nat) (e : Elem) : (elemCells v i e).map Prod.fst = elemAddrs v i := by
  simp only [elemCells, elemAddrs, partCells, partAddrs, List.map_append, fst_leCells]
  split <;> simp [fst_leCells]

/-- A kernel's loop writes its elements in order, wherever it reads. -/
theorem fst_kernelCells (out : Vec) (f : Memory → Nat → Elem) (n : Nat) (m : Memory) :
    (kernelCells out f n m).map Prod.fst = (List.range n).flatMap (elemAddrs out) := by
  induction n with
  | zero => rfl
  | succ n ih => rw [kernelCells, List.map_append, ih, fst_elemCells, List.range_succ, List.flatMap_append, List.flatMap_singleton]

theorem fst_vecCells (v : Vec) (i : Nat) (xs : List Elem) :
    (vecCells v i xs).map Prod.fst = (List.range' i xs.length).flatMap (elemAddrs v) := by
  induction xs generalizing i with
  | nil => rfl
  | cons e xs ih =>
    rw [vecCells, List.map_append, fst_elemCells, ih, List.length_cons, List.range'_succ, List.flatMap_cons]

theorem mem_elemAddrs {v : Vec} {i a : Nat} : a ∈ elemAddrs v i ↔
    ∃ p, (p = .re ∨ isComplex v.ty = true) ∧ partAddr v i p ≤ a ∧ a < partAddr v i p + bits v.ty / 8 := by
  constructor
  · intro h
    rcases List.mem_append.1 h with h | h
    · exact ⟨.re, .inl rfl, List.mem_range'_1.1 h⟩
    · split at h
      · next hc => exact ⟨.im, .inr hc, List.mem_range'_1.1 h⟩
      · exact absurd h List.not_mem_nil
  · rintro ⟨p, hp, h⟩
    cases p with
    | re => exact List.mem_append_left _ (List.mem_range'_1.2 h)
    | im =>
      have hc : isComplex v.ty = true := hp.resolve_left (by simp)
      exact List.mem_append_right _ (by rw [if_pos hc]; exact List.mem_range'_1.2 h)

/-- Two parts of a vector's elements that share a byte are the same part of the same element, where the two arrays of a c16 operand do not
overlap (20_memory.md R64). -/
theorem part_eq_of_shared_byte {v : Vec} {N i j a : Nat} {p q : Part} (hapart : PartsApart v N) (hi : i < N) (hj : j < N)
    (hp : p = .re ∨ isComplex v.ty = true) (hq : q = .re ∨ isComplex v.ty = true)
    (ha : partAddr v i p ≤ a ∧ a < partAddr v i p + bits v.ty / 8)
    (hb : partAddr v j q ≤ a ∧ a < partAddr v j q + bits v.ty / 8) : i = j ∧ p = q := by
  obtain ⟨ty, base, imBase⟩ := v
  cases ty <;> cases p <;> cases q <;>
    simp [partAddr, bits, isComplex, PartsApart] at hp hq ha hb hapart ⊢ <;> omega

theorem nodup_elemAddrs {v : Vec} {N i : Nat} (hapart : PartsApart v N) (hi : i < N) : (elemAddrs v i).Nodup := by
  refine List.nodup_append.2 ⟨List.nodup_range', ?_, fun a ha b hb hab => ?_⟩
  · split
    · exact List.nodup_range'
    · exact List.nodup_nil
  · split at hb
    · next hc =>
      subst hab
      have := part_eq_of_shared_byte hapart hi hi (.inl rfl) (.inr hc) (List.mem_range'_1.1 ha) (List.mem_range'_1.1 hb)
      simp at this
    · exact absurd hb List.not_mem_nil

theorem nodup_vecAddrs {v : Vec} {N : Nat} (hapart : PartsApart v N) : ((List.range N).flatMap (elemAddrs v)).Nodup := by
  refine List.nodup_flatMap.2 ⟨fun i hi => nodup_elemAddrs hapart (List.mem_range.1 hi), ?_⟩
  refine List.nodup_range.pairwise_of_forall_ne fun i hi j hj hij a hai haj => ?_
  obtain ⟨p, hp, ha⟩ := mem_elemAddrs.1 hai
  obtain ⟨q, hq, hb⟩ := mem_elemAddrs.1 haj
  exact hij (part_eq_of_shared_byte hapart (List.mem_range.1 hi) (List.mem_range.1 hj) hp hq ha hb).1

/-- An operand whose ranges, where there are two, do not overlap. -/
theorem partsApart_of_spans {v : Vec} {N : Nat}
    (h : ∀ p q, vecSpans v N = [p, q] → p.base + p.len ≤ q.base ∨ q.base + q.len ≤ p.base) : PartsApart v N := by
  intro hty
  exact h ⟨v.base, 2 * N⟩ ⟨v.imBase, 2 * N⟩ (by simp [vecSpans, Vec.arrays, hty])

theorem nodup_kernelCells {out : Vec} {f : Memory → Nat → Elem} {n : Nat} {m : Memory}
    (h : ∀ p q, vecSpans out n = [p, q] → p.base + p.len ≤ q.base ∨ q.base + q.len ≤ p.base) :
    ((kernelCells out f n m).map Prod.fst).Nodup := by
  rw [fst_kernelCells]
  exact nodup_vecAddrs (partsApart_of_spans h)

/-- A command that is said to write no byte twice lists no address twice in its byte writes. -/
theorem nodup_commandCells {i : Instr} {s : State} (h : WritesOnce i s) : ((commandCells i s).map Prod.fst).Nodup := by
  obtain ⟨hfft, hspans⟩ := h
  cases i
  case sw => rw [commandCells, fst_leCells]; exact List.nodup_range'
  case vbitrevC32 a =>
    rw [commandCells, fst_vecCells, length_bitReverse, length_vecIn, ← List.range_eq_range']
    exact nodup_vecAddrs (partsApart_of_spans hspans)
  case fftfC32 d a b => exact absurd rfl (hfft d a b).1
  case fftiC32 d a b => exact absurd rfl (hfft d a b).2
  case vshlS16 | vshlS32 | vshlC16 | vshlC32 | vaddS16 | vaddS32 | vaddC16 | vaddC32 | vsubS16 | vsubS32 | vsubC16 | vsubC32 | vmulS16 |
      vmulS32 | vcmulC16 | vcmulC32 | vcmulcC16 | vcmulcC32 | vscaleS16 | vscaleS32 | vscaleC16 | vscaleC32 | vmagC16 | vmagC32 |
      vsqmagC16 | vsqmagC32 => exact nodup_kernelCells hspans
  all_goals exact List.nodup_nil

end Sys2Proof.Machine
end

section
/-! The reset input (spec/70_reset_and_hazards.md R250; 10_state.md R54). -/

namespace Sys2Proof.Machine

open Sys2Proof.Claims

/-! ### What an abandoned command leaves -/

theorem abandon_of_illegal {s : State} (h : ∀ i, decode (fetchWord s) ≠ .ok i) : s.abandon = s := by
  rcases abandon_cases s with heq | ⟨i, -, hi, -⟩
  · exact heq
  · exact absurd (inProgress_eq_some hi).2.1 (h i)

/-- Where the command is abandoned it is the one at PC, and it would have completed. -/
theorem abandon_of_decodes {s : State} {i : Instr} (h : decode (fetchWord s) = .ok i) :
    s.abandon = s ∨ inProgress s = some i ∧
      s.abandon = s.oneOfWritesAt s.mem (commandCells i s) ((storeSpans i s).flatMap spanAddrs) := by
  refine (abandon_cases s).imp_right fun ⟨j, _, hj, heq⟩ => ?_
  obtain ⟨-, hdec, -⟩ := inProgress_eq_some hj
  obtain rfl : i = j := Except.ok.inj (h.symm.trans hdec)
  exact ⟨hj, heq⟩

theorem read_abandon_outside {s : State} {i : Instr} (h : decode (fetchWord s) = .ok i) (a : Nat)
    (ha : inSpans (storeSpans i s) a = false) : s.abandon.mem.read a = s.mem.read a := by
  rcases abandon_of_decodes h with heq | ⟨-, heq⟩ <;> rw [heq]
  exact read_oneOfWritesAt_outside _ _ _ _ _ fun hmem => by simp [mem_spanAddrs.1 hmem] at ha

theorem read_abandon {s : State} {i : Instr} (h : decode (fetchWord s) = .ok i) (a : Nat) :
    s.abandon.mem.read a = s.mem.read a ∨
      inProgress s = some i ∧ (a, s.abandon.mem.read a) ∈ commandCells i s := by
  rcases abandon_of_decodes h with heq | ⟨hi, heq⟩
  · exact .inl (by rw [heq])
  · by_cases ha : inSpans (storeSpans i s) a = true
    · rw [heq]
      exact (read_oneOfWritesAt s s.mem _ _ a (mem_spanAddrs.2 ha)).imp_right fun hmem => ⟨hi, hmem⟩
    · exact .inl (read_abandon_outside h a (by simpa using ha))

/-- A command in progress that writes no byte twice leaves each byte that it lists as it lists it. -/
theorem read_of_mem_commandCells {s u : State} {i : Instr} {a : Nat} {b : Byte} (hi : inProgress s = some i)
    (hw : WritesOnce i s) (he : exec i s = .next u) (h : (a, b) ∈ commandCells i s) : u.mem.read a = b := by
  obtain ⟨-, -, t, ht, hrun⟩ := inProgress_eq_some hi
  obtain rfl : t = u := Host.Outcome.next.inj (ht.symm.trans he)
  rcases replay_commandCells he hw.1 with ⟨x, rfl⟩ | hmem
  · simp at hrun
  · rw [hmem]; exact read_replay_of_nodup s.mem (nodup_commandCells hw) h

/-- A byte of a command abandoned that writes no byte twice is as before it or as after it (log entry 8). -/
theorem read_abandon_of_writesOnce {s u : State} {i : Instr} (h : decode (fetchWord s) = .ok i) (hw : WritesOnce i s)
    (he : exec i s = .next u) (a : Nat) :
    s.abandon.mem.read a = s.mem.read a ∨ s.abandon.mem.read a = u.mem.read a :=
  (read_abandon h a).imp_right fun ⟨hi, hmem⟩ => (read_of_mem_commandCells hi hw he hmem).symm

/-! ### The obligations -/

theorem hostReset_reg (s : State) (n : Reg) : s.hostReset.reg n = 0#32 := by
  simp [State.reg, State.hostReset, State.afterReset]

/-- Settles O56: while IDLE there is no command to abandon. -/
theorem idleResetGivesResetState : Obligations.IdleResetGivesResetState := by
  intro s rest hidle hq
  have hquiet : State.abandon (s.withQueue rest) = s.withQueue rest := abandon_idle _ hidle
  exact ⟨_, step_of_cons hq, hostReset_reg _, rfl, rfl, rfl, rfl, rfl, rfl, rfl, rfl, rfl, rfl, rfl, rfl,
    (congrArg State.mem hquiet :), abandon_cfg (s.withQueue rest)⟩

theorem storeSpans_withQueue (q : List HostAct) (i : Instr) (s : State) : storeSpans i (s.withQueue q) = storeSpans i s := by
  cases i <;> rfl

theorem writesOnce_withQueue {q : List HostAct} {i : Instr} {s : State} (h : WritesOnce i s) : WritesOnce i (s.withQueue q) :=
  ⟨h.1, fun p r hpr => h.2 p r (storeSpans_withQueue q i s ▸ hpr)⟩

theorem commandCells_withQueue (q : List HostAct) (i : Instr) (s : State) :
    commandCells i (s.withQueue q) = commandCells i s := by
  cases i <;> rfl

/-- Settles O57: the reset values, and memory as `State.abandon` leaves it. -/
theorem runningResetAbandonsOneCommand : Obligations.RunningResetAbandonsOneCommand := by
  intro s rest _ hq
  refine ⟨_, step_of_cons hq, hostReset_reg _, rfl, rfl, rfl, rfl, rfl, rfl, rfl, rfl, rfl, rfl, rfl, rfl,
    abandon_cfg (s.withQueue rest), fun hill => ?_, fun i hdec => ⟨fun a ha => ?_, fun a => ?_, fun hw u he a => ?_⟩⟩
  · exact (congrArg State.mem (abandon_of_illegal (s := s.withQueue rest) hill) :)
  · exact read_abandon_outside (s := s.withQueue rest) hdec a (by rwa [storeSpans_withQueue])
  · rw [← commandCells_withQueue rest i s]
    exact (read_abandon (s := s.withQueue rest) hdec a).imp_right And.right
  · have he' : exec i (s.withQueue rest) = .next (u.withQueue rest) := by rw [exec_withQueue, he]; rfl
    exact read_abandon_of_writesOnce (s := s.withQueue rest) hdec (writesOnce_withQueue hw) he' a

end Sys2Proof.Machine
end

section
/-! What a command leaves unchanged in memory (spec/20_memory.md R69), and that a kernel's checks fault in order before any access (42_kernels.md
R160; 60_exceptions.md R223). -/

namespace Sys2Proof.Machine

open Sys2Proof.Claims

/-! ### The bytes a command writes -/

/-- Settles O13: a command that completes writes its ranges alone, and the other ends write no memory. -/
theorem commandsWriteOnlyTheirBytes : Obligations.CommandsWriteOnlyTheirBytes := by
  intro i s t h a ha
  rcases exec_ends h with ⟨x, -, rfl⟩ | ⟨-, rfl⟩ | ⟨d, b, imm16, -, rfl⟩ | ⟨b, -, rfl⟩ | hc
  · rw [raise_mem]
  · rw [halt_mem]
  · rw [branch_mem]
  · rw [advance_mem]
  · exact hc.bytes a ha

/-! ### The checks of a kernel -/

/-- The first misaligned array is the one reported, whatever the ranges (60_exceptions.md R223). -/
theorem operandTrap_of_misaligned (c : Config) (N : Nat) {pre post : List OperandArray} {r : OperandArray}
    (hpre : ∀ q ∈ pre, q.start % q.align = 0) (hr : r.start % r.align ≠ 0) :
    operandTrap c N (pre ++ r :: post) = some ⟨.dataAlign, BitVec.ofNat 32 r.start⟩ := by
  have hfind : (pre ++ r :: post).find? (fun q => q.start % q.align != 0) = some r :=
    List.find?_eq_some_iff_append.2 ⟨by simpa using hr, pre, post, rfl, fun q hq => by simp [hpre q hq]⟩
  simp only [operandTrap, hfind]

/-- Where all arrays are aligned, the first whose range is not valid is the one reported (60_exceptions.md R223). -/
theorem operandTrap_of_invalid {c : Config} {N : Nat} {pre post : List OperandArray} {r : OperandArray}
    (haligned : ∀ q ∈ pre ++ r :: post, q.start % q.align = 0) (hpre : ∀ q ∈ pre, RangeOk c q.start (q.elemBytes * N))
    (hr : ¬RangeOk c r.start (r.elemBytes * N)) :
    operandTrap c N (pre ++ r :: post) = some ⟨.dataBus, BitVec.ofNat 32 r.start⟩ := by
  have hnone : (pre ++ r :: post).find? (fun q => q.start % q.align != 0) = none :=
    List.find?_eq_none.2 fun q hq => by simp [haligned q hq]
  have hinvalid : rangeValid c r.start (r.elemBytes * N) = false :=
    Bool.eq_false_iff.2 fun hv => hr ((rangeValid_iff ..).1 hv)
  have hfind : (pre ++ r :: post).find? (fun q => !rangeValid c q.start (q.elemBytes * N)) = some r :=
    List.find?_eq_some_iff_append.2 ⟨by simp [hinvalid], pre, post, rfl,
      fun q hq => by simp [(rangeValid_iff ..).2 (hpre q hq)]⟩
  simp only [operandTrap, hnone, hfind]

/-- A kernel command is the checks of its operands in field order, and then some effect (42_kernels.md R160). -/
theorem exec_kernel_eq_orTrap {i : Instr} {s : State} {vs : List Vec} (h : kernelOperands i s = some vs) :
    ∃ e, exec i s = orTrap (operandTrap s.cfg (u32 s.vl) (vs.flatMap Vec.arrays)) s e := by
  cases i
  case vhrS16 | vhrS32 | vhrC16 | vhrC32 => cases h; rw [List.flatMap_singleton]; exact ⟨_, rfl⟩
  case vshlS16 | vshlS32 | vshlC16 | vshlC32 | vaddS16 | vaddS32 | vaddC16 | vaddC32 | vsubS16 | vsubS32 | vsubC16 | vsubC32 | vmulS16 |
      vmulS32 | vcmulC16 | vcmulC32 | vcmulcC16 | vcmulcC32 | vscaleS16 | vscaleS32 | vscaleC16 | vscaleC32 | vmagC16 | vmagC32 |
      vsqmagC16 | vsqmagC32 => cases h; exact ⟨_, rfl⟩
  all_goals cases h

/-- A kernel command whose checks fail enters the fault and does nothing else. -/
theorem exec_kernel_of_operandTrap {i : Instr} {s : State} {vs : List Vec} {x : Trap} (h : kernelOperands i s = some vs)
    (hx : operandTrap s.cfg (u32 s.vl) (vs.flatMap Vec.arrays) = some x) : exec i s = .next (s.raise x) := by
  obtain ⟨e, he⟩ := exec_kernel_eq_orTrap h
  rw [he, hx, orTrap_some]

/-- Settles O37: the checks look for the first misaligned array, then for the first invalid range. -/
theorem kernelChecksFaultInOrder : Obligations.KernelChecksFaultInOrder := by
  intro i s vs pre post r hvs harrays
  refine ⟨fun hpre hr => ?_, fun haligned hpre hr => ?_⟩
  · exact exec_kernel_of_operandTrap hvs (harrays ▸ operandTrap_of_misaligned s.cfg (u32 s.vl) hpre hr)
  · exact exec_kernel_of_operandTrap hvs (harrays ▸ operandTrap_of_invalid haligned hpre hr)

end Sys2Proof.Machine
end

section
/-! Kernels in place and beside disjoint inputs (spec/20_memory.md R74, R75): an element read is not written before it is read, and an element
written is not written again. -/

namespace Sys2Proof.Machine

open Sys2Proof.Claims

/-! ### Elements and their bytes -/

/-- An element depends on its own bytes alone. -/
theorem elemRead_congr {m m' : Memory} {v : Vec} {i : Nat} (h : ∀ a ∈ elemAddrs v i, m.read a = m'.read a) :
    elemRead m v i = elemRead m' v i := by
  have hpart (p : Part) (hp : p = .re ∨ isComplex v.ty = true) : partRead m v i p = partRead m' v i p := by
    unfold partRead
    rw [Memory.readLE_congr m m' _ _ fun a hlo hhi => h a (mem_elemAddrs.2 ⟨p, hp, hlo, hhi⟩)]
  unfold elemRead
  rw [hpart .re (.inl rfl)]
  split
  · next hc => rw [hpart .im (.inr hc)]
  · rfl

theorem read_elemWrite_of_not_mem (m : Memory) {v : Vec} {i a : Nat} (e : Elem) (h : a ∉ elemAddrs v i) :
    (elemWrite m v i e).read a = m.read a := by
  rw [← replay_elemCells]
  exact read_replay_of_not_mem m (fst_elemCells v i e ▸ h)

/-- Different elements of a vector share no byte. -/
theorem not_mem_elemAddrs_of_ne {v : Vec} {N i j a : Nat} (hapart : PartsApart v N) (hi : i < N) (hj : j < N) (hij : i ≠ j)
    (ha : a ∈ elemAddrs v i) : a ∉ elemAddrs v j := by
  intro hb
  obtain ⟨p, hp, ha⟩ := mem_elemAddrs.1 ha
  obtain ⟨q, hq, hb⟩ := mem_elemAddrs.1 hb
  exact hij (part_eq_of_shared_byte hapart hi hj hp hq ha hb).1

/-- The element is in the vector, so its bytes are in the vector's ranges. -/
theorem inSpans_of_mem_elemAddrs {v : Vec} {N i a : Nat} (hi : i < N) (ha : a ∈ elemAddrs v i) :
    inSpans (vecSpans v N) a = true := by
  obtain ⟨p, hp, hlo, hhi⟩ := mem_elemAddrs.1 ha
  exact part_mem_vecSpans v N i p a hi hp hlo hhi

/-- The parts of one element share no byte. -/
theorem re_im_apart {v : Vec} {N i : Nat} (hapart : PartsApart v N) (hi : i < N) (hc : isComplex v.ty = true) :
    partAddr v i .re + bits v.ty / 8 ≤ partAddr v i .im ∨ partAddr v i .im + bits v.ty / 8 ≤ partAddr v i .re := by
  obtain ⟨ty, base, imBase⟩ := v
  cases ty <;> simp [partAddr, bits, isComplex, PartsApart] at hc hapart ⊢
  omega

/-- Each part of an element written within its bounds reads back. -/
theorem partRead_elemWrite (m : Memory) {v : Vec} {N i : Nat} {e : Elem} {p : Part} (hapart : PartsApart v N) (hi : i < N)
    (he : InBounds (bits v.ty) e) (hp : p = .re ∨ isComplex v.ty = true) :
    partRead (elemWrite m v i e) v i p = part e p := by
  obtain ⟨hre, hre', him, him'⟩ := he
  simp only [elemWrite]
  by_cases hc : isComplex v.ty = true
  · rw [if_pos hc]
    cases p with
    | re =>
      rw [partRead_partWrite_disjoint _ v v i i .im .re _ (re_im_apart hapart hi hc)]
      exact partRead_partWrite m v i .re e.re hre hre'
    | im => exact partRead_partWrite _ v i .im e.im him him'
  · obtain rfl : p = .re := hp.resolve_right hc
    rw [if_neg hc]
    exact partRead_partWrite m v i .re e.re hre hre'

/-- An element is not changed by writing another element of its vector. -/
theorem elemRead_elemWrite_of_ne (m : Memory) {v : Vec} {N i j : Nat} (e : Elem) (hapart : PartsApart v N) (hi : i < N) (hj : j < N)
    (hij : i ≠ j) : elemRead (elemWrite m v j e) v i = elemRead m v i :=
  elemRead_congr fun _ ha => read_elemWrite_of_not_mem m e (not_mem_elemAddrs_of_ne hapart hi hj hij ha)

theorem part_elemRead (m : Memory) (v : Vec) (i : Nat) {p : Part} (hp : p = .re ∨ isComplex v.ty = true) :
    part (elemRead m v i) p = partRead m v i p := by
  cases p with
  | re => rfl
  | im => exact if_pos (hp.resolve_left (by simp))

/-- Two operands that name the same vector have the same elements (20_memory.md R75). -/
theorem elemRead_of_sameVec {v w : Vec} (h : SameVec v w) (m : Memory) (i : Nat) : elemRead m v i = elemRead m w i := by
  obtain ⟨vty, vbase, vimBase⟩ := v
  obtain ⟨wty, wbase, wimBase⟩ := w
  obtain ⟨rfl, rfl, him⟩ : vty = wty ∧ vbase = wbase ∧ (vty = .c16 → vimBase = wimBase) := h
  cases vty
  case c16 => rw [him rfl]
  case s16 | s32 | c32 => rfl

/-! ### The loop -/

/-- An input that is the output vector, or shares no byte with it, is at element k as it was before the command until element k is written. -/
theorem elemRead_kernelLoop {out v : Vec} {f : Memory → Nat → Elem} {m : Memory} {N n k : Nat} (hapart : PartsApart out N)
    (hv : SameVec v out ∨ Apart out v N) (hnk : n ≤ k) (hk : k < N) :
    elemRead (kernelLoop out f n m) v k = elemRead m v k := by
  rcases hv with hsame | hdisj
  · rw [elemRead_of_sameVec hsame, elemRead_of_sameVec hsame]
    induction n with
    | zero => rfl
    | succ n ih => rw [kernelLoop_succ, elemRead_elemWrite_of_ne _ _ hapart hk (by omega) (by omega), ih (by omega)]
  · refine elemRead_congr fun a ha => read_kernelLoop_outside out f N n m a (by omega) (Bool.eq_false_iff.2 fun hout => ?_)
    exact absurd (inSpans_of_mem_elemAddrs hk ha) (by simp [hdisj a hout])

/-- Each part that a kernel stores stays as it was computed, from memory as the earlier elements left it. -/
theorem partRead_kernelLoop {out : Vec} {f : Memory → Nat → Elem} {m : Memory} {N n k : Nat} {p : Part} (hapart : PartsApart out N)
    (hf : ∀ m k, InBounds (bits out.ty) (f m k)) (hp : p = .re ∨ isComplex out.ty = true) (hkn : k < n) (hn : n ≤ N) :
    partRead (kernelLoop out f n m) out k p = part (f (kernelLoop out f k m) k) p := by
  induction n with
  | zero => omega
  | succ n ih =>
    rw [kernelLoop_succ]
    by_cases hk : k = n
    · subst hk
      exact partRead_elemWrite _ hapart (by omega) (hf _ _) hp
    · rw [← part_elemRead _ _ _ hp, elemRead_elemWrite_of_ne _ _ hapart (by omega) (by omega) hk, part_elemRead _ _ _ hp,
        ih (by omega) (by omega)]

/-- Settles O45: each element is stored once, computed from input elements that no earlier element of the output has touched. -/
theorem aliasedKernelEqualsDisjointCopy : Obligations.AliasedKernelEqualsDisjointCopy := by
  intro out ins g m N hapart hins hg k hk p hp
  rw [partRead_kernelLoop hapart (fun _ _ => hg _) hp hk le_rfl]
  refine congrArg (fun xs => part (g xs) p) (List.map_congr_left fun v hv => ?_)
  exact elemRead_kernelLoop hapart (hins v hv) le_rfl hk

end Sys2Proof.Machine
end

section
/-! What a race opens (spec/20_memory.md R78): the CORE's reads of its bytes, and what the bytes hold after a command. -/

namespace Sys2Proof.Machine

open Sys2Proof.Claims

/-! ### The bytes that are open -/

theorem mem_clouded (s : State) (a : Nat) : a ∈ s.clouded ↔
    a ∈ s.race.foretold ∨ a ∈ s.race.hostStored ∨ (a ∈ s.race.hostLoaded ∧ inSpans s.race.runWrote a = true) := by
  simp [State.clouded]

/-! ### What is foretold -/

/-- Widening stops where reading the bytes as free values brings no race but theirs. -/
theorem widen_of_subset {acts : List HostAct} {s : State} {l : List Nat} (h : ∀ a ∈ racesWith acts s l, a ∈ l) (fuel : Nat) :
    widen acts s fuel l = l := by
  cases fuel with
  | zero => rfl
  | succ fuel =>
    have hnew : (racesWith acts s l).filter (fun a => !decide (a ∈ l)) = [] :=
      List.filter_eq_nil_iff.2 fun a ha => by simp [h a ha]
    simp only [widen, hnew, if_true]

/-- Widening from nothing takes up all the races of the run whose reads are exact, in its first round. -/
theorem widen_nil_succ (acts : List HostAct) (s : State) (fuel : Nat) :
    widen acts s (fuel + 1) [] = widen acts s fuel (racesWith acts s []) := by
  have hnew : (racesWith acts s []).filter (fun a => !decide (a ∈ ([] : List Nat))) = racesWith acts s [] :=
    List.filter_eq_self.2 fun a _ => by simp
  simp only [widen, hnew, List.append_nil]
  split
  · next hnone => rw [hnone, widen_of_subset (by simp [hnone])]
  · rfl

/-- Narrowing keeps bytes all of which race where just they are read as free values. -/
theorem narrow_of_subset {acts : List HostAct} {s : State} {l : List Nat} (h : ∀ a ∈ l, a ∈ racesWith acts s l) (fuel : Nat) :
    narrow acts s (fuel + 1) l = l := by
  have hkept : l.filter (fun a => decide (a ∈ racesWith acts s l)) = l := List.filter_eq_self.2 fun a ha => by simp [h a ha]
  simp only [narrow, hkept, if_true]
  split
  · next hnil => exact hnil.symm
  · rfl

/-- Where no byte is named and the races of the run with every read exact are those of the run with just them read as free values, they are
what is found (log entry 6). -/
theorem racesAhead_of_stable {acts : List HostAct} {s : State}
    (hstable : ∀ a, a ∈ racesWith acts s (racesWith acts s []) ↔ a ∈ racesWith acts s []) (hnamed : s.race.named = [])
    (hacts : namedBytes acts = []) (haccess : hostAccesses acts s.race ≠ 0) : racesAhead acts s = racesWith acts s [] := by
  obtain ⟨n, hn⟩ := Nat.exists_eq_succ_of_ne_zero haccess
  simp only [racesAhead, hn, hnamed, hacts, List.append_nil]
  rw [widen_nil_succ, widen_of_subset fun a => (hstable a).1, narrow_of_subset fun a => (hstable a).2]

/-- Foreseeing while RUN, once in the run, foretells the races ahead. -/
theorem foresee_of_not_foreseen {s : State} (act : HostAct) (hrun : s.run = .run) (hf : s.race.foreseen = false) :
    s.foresee act = s.opened (racesAhead (act :: s.hostQueue) s) := if_pos ⟨hrun, hf⟩

/-! ### What a command leaves -/

/-- The end of a command that stops the run writes no memory (60_exceptions.md R222; 40_sequencer.md R111). -/
theorem exec_mem_of_stops {i : Instr} {s t : State} (h : exec i s = .next t) (hrun : s.run = .run) (hstop : t.run ≠ .run) :
    t.mem = s.mem := by
  rcases exec_ends h with ⟨x, -, rfl⟩ | ⟨-, rfl⟩ | ⟨d, b, imm16, -, rfl⟩ | ⟨b, -, rfl⟩ | hc
  · exact raise_mem s x
  · exact halt_mem s
  · exact branch_mem s imm16
  · exact advance_mem _
  · exact absurd (by rw [hc.frame]; exact hrun) hstop

/-- The present command writes no byte but those on its record, be it fetched or not, a fault or a stop (20_memory.md R68, R69). -/
theorem read_command_outside {s u : State} {a : Nat} (hrun : s.run = .run) (hc : command s = .next u)
    (ha : inSpans (written s) a = false) : u.mem.read a = s.mem.read a := by
  unfold command at hc
  split at hc
  · cases hc; rw [raise_mem]
  · next hfetch =>
    split at hc
    · cases hc; rw [raise_mem]
    · next i hdec =>
      by_cases hgoes : u.run = .run
      · have hwritten : written s = storeSpans i s := by simp only [written, inProgress_eq hfetch hdec hc hgoes]
        exact commandsWriteOnlyTheirBytes i s u hc a (hwritten ▸ ha)
      · rw [exec_mem_of_stops hc hrun hgoes]

/-- A byte after what follows a command: as the command leaves it, or as memory held it before (log entry 19). -/
theorem read_after (s u : State) (a : Nat) :
    (s.after u).mem.read a = u.mem.read a ∨ (s.after u).mem.read a = s.mem.read a :=
  read_settle u s.mem _ a

/-- Settles O60: the reads of a command, what is foretold, and memory after a command. -/
theorem racesOpenOnlyTheirBytes : Obligations.RacesOpenOnlyTheirBytes := by
  intro s
  refine ⟨mem_clouded s, read_view s, fun m n v k p hexact => ?_, fun act hrun hf => ?_, fun t u a hq hrun hc hstep => ?_⟩
  · exact ⟨partIn_of_exact s m n v k p hexact, fun r x => partAgain_of_exact s v r k p x hexact⟩
  · refine ⟨_, foresee_of_not_foreseen act hrun hf, racesAhead_sound _ s, ?_⟩
    rintro m rfl hstable hnamed hacts haccess
    exact racesAhead_of_stable hstable hnamed hacts haccess
  · rw [step_of_nil hq, sequencer_run hrun hc] at hstep
    cases hstep
    rw [boundary_mem]
    refine ⟨fun ha => ?_, fun ha => read_after_outside s u a (.inl ha), read_after s u a⟩
    rw [read_after_outside s u a (.inr ha), read_command_outside hrun hc ha]

end Sys2Proof.Machine
end

section
/-! The decoder and the encoder are inverse on legal commands (spec/30_encoding.md R86, R91, R92). -/

namespace Sys2Proof

/-! ### The fields of a command's word (R86) -/

@[simp] theorem Reg.toField_zero : Reg.toField 0 = 0#4 := rfl

theorem Reg.toNat_toField (r : Reg) : r.toField.toNat = r.val := rfl

@[simp] theorem fieldsOf_encode (i : Instr) : fieldsOf (encode i) = encodeFields i := fieldsOf_wordOf _

/-- imm16 is bits 15:0 of the word. -/
theorem imm16_fieldsOf (w : Word) : (fieldsOf w).imm16 = w.extractLsb' 0 16 := by
  simp only [Fields.imm16, fieldsOf]
  rw [BitVec.extractLsb'_append_extractLsb'_eq_extractLsb' (rfl : 12 = 8 + 4),
    BitVec.extractLsb'_append_extractLsb'_eq_extractLsb' (rfl : 8 = 4 + 4),
    BitVec.extractLsb'_append_extractLsb'_eq_extractLsb' (rfl : 4 = 0 + 4)]

/-- imm20 is bits 19:0 of the word: a, and below it imm16. -/
theorem imm20_fieldsOf (w : Word) : (fieldsOf w).imm20 = w.extractLsb' 0 20 := by
  simp only [Fields.imm20, fieldsOf]
  rw [BitVec.extractLsb'_append_extractLsb'_eq_extractLsb' (rfl : 16 = 12 + 4),
    BitVec.extractLsb'_append_extractLsb'_eq_extractLsb' (rfl : 12 = 8 + 4),
    BitVec.extractLsb'_append_extractLsb'_eq_extractLsb' (rfl : 8 = 4 + 4),
    BitVec.extractLsb'_append_extractLsb'_eq_extractLsb' (rfl : 4 = 0 + 4)]

/-- The fields of format I, rebuilt from the registers and the immediate that they hold. -/
theorem rowI_imm16 (op : BitVec 6) (d a b c s t : BitVec 4) :
    Fields.rowI op (Reg.ofField d) (Reg.ofField a) (Fields.imm16 ⟨op, 0#2, d, a, b, c, s, t⟩) =
      ⟨op, 0#2, d, a, b, c, s, t⟩ := by
  obtain ⟨w, hw⟩ : ∃ w, fieldsOf w = ⟨op, 0#2, d, a, b, c, s, t⟩ := ⟨_, fieldsOf_wordOf _⟩
  rw [← hw, imm16_fieldsOf]
  simp only [fieldsOf, Fields.mk.injEq] at hw ⊢
  simp [Fields.rowI, BitVec.extractLsb'_extractLsb'_of_le, hw]

/-- The fields of format U, rebuilt from the register and the immediate that they hold. -/
theorem rowU_imm20 (op : BitVec 6) (d a b c s t : BitVec 4) :
    Fields.rowU op (Reg.ofField d) (Fields.imm20 ⟨op, 0#2, d, a, b, c, s, t⟩) = ⟨op, 0#2, d, a, b, c, s, t⟩ := by
  obtain ⟨w, hw⟩ : ∃ w, fieldsOf w = ⟨op, 0#2, d, a, b, c, s, t⟩ := ⟨_, fieldsOf_wordOf _⟩
  rw [← hw, imm20_fieldsOf]
  simp only [fieldsOf, Fields.mk.injEq] at hw ⊢
  simp [Fields.rowU, BitVec.extractLsb'_extractLsb'_of_le, hw]

/-! ### Decoding and encoding (R91, R92) -/

/-- The fields of a legal command lead the opcode map to that command's row, where they pass the last checks. -/
theorem decodeFields_encodeFields {i : Instr} (h : i.wellFormed = true) : decodeFields (encodeFields i) = .ok i := by
  cases i with
  | lui => exact (legalRow_eq_ok _ _ _).2 ⟨by simp, h, congrArg _ (imm20_rowU ..)⟩
  | addi | lw | sw | beq | bne => exact (legalRow_eq_ok _ _ _).2 ⟨by simp, h, congrArg _ (imm16_rowI ..)⟩
  | _ => exact (legalRow_eq_ok _ _ _).2 ⟨by simp [encodeFields, Fields.rowR], h, rfl⟩

/-- A row of the opcode map drops no field: the command has the used ones, and the row's checks say that the others are zero. -/
theorem encodeFields_of_decodeFields {f : Fields} {i : Instr} (h : decodeFields f = .ok i) :
    encodeFields i = f ∧ i.wellFormed = true := by
  obtain ⟨op, ty, d, a, b, c, s, t⟩ := f
  obtain ⟨e, rfl⟩ : ∃ e, ty = ElemTy.toField e := ⟨ElemTy.ofField ty, (ElemTy.toField_ofField ty).symm⟩
  simp only [decodeFields, ElemTy.ofField_toField] at h
  split at h <;> cases e <;> simp only [reduceCtorEq, legalRow_eq_ok, List.forall_mem_cons] at h
  all_goals
    next hop =>
    obtain ⟨hunused, hwf, rfl⟩ := h
    obtain ⟨-, rfl⟩ := (BitVec.toNat_eq_nat ..).1 hop
    refine ⟨?_, hwf⟩
    simp [encodeFields, Fields.rowR, rowI_imm16, rowU_imm20, hunused, ElemTy.toField]

/-- A word decodes to a command exactly when it is the word of that command and the command is legal. -/
theorem decode_eq_ok_iff (w : Word) (i : Instr) : decode w = .ok i ↔ encode i = w ∧ i.wellFormed = true := by
  constructor
  · intro h
    obtain ⟨hfields, hwf⟩ := encodeFields_of_decodeFields h
    exact ⟨by rw [encode, hfields, wordOf_fieldsOf], hwf⟩
  · rintro ⟨rfl, hwf⟩
    rw [decode, fieldsOf_encode]
    exact decodeFields_encodeFields hwf

/-- Settles O1: the round trip from commands. -/
theorem decodeOfEncodeIsIdentity : Obligations.DecodeOfEncodeIsIdentity :=
  fun i hwf => (decode_eq_ok_iff _ i).2 ⟨rfl, hwf⟩

/-- Settles O2: the round trip from words. -/
theorem encodeOfDecodeIsIdentity : Obligations.EncodeOfDecodeIsIdentity :=
  fun w i => (decode_eq_ok_iff w i).1

/-- Settles O4: each word is the word of its command, and the command is legal. -/
theorem workedWordsDecode : Obligations.WorkedWordsDecode := by
  simp only [Obligations.WorkedWordsDecode, decode_eq_ok_iff]
  decide

end Sys2Proof
end

section
/-! Decoding follows the opcode table (spec/30_encoding.md R93; spec/opcode_table.json). -/

namespace Sys2Proof

open Sys2Proof.Claims

/-! ### Operands -/

/-- The word of a command holds each of its operands in the bits of R86. -/
theorem operandFields_encode (i : Instr) : ∀ p ∈ operandFields i, ((encode i).extractLsb' p.1 p.2.1).toNat = p.2.2 := by
  have hw := fieldsOf_encode i
  have hd : (encode i).extractLsb' 20 4 = (encodeFields i).d := congrArg Fields.d hw
  have ha : (encode i).extractLsb' 16 4 = (encodeFields i).a := congrArg Fields.a hw
  have hb : (encode i).extractLsb' 12 4 = (encodeFields i).b := congrArg Fields.b hw
  have hc : (encode i).extractLsb' 8 4 = (encodeFields i).c := congrArg Fields.c hw
  have hs : (encode i).extractLsb' 4 4 = (encodeFields i).s := congrArg Fields.s hw
  have ht : (encode i).extractLsb' 0 4 = (encodeFields i).t := congrArg Fields.t hw
  have himm16 : (encode i).extractLsb' 0 16 = (encodeFields i).imm16 := by rw [← hw, imm16_fieldsOf]
  have himm20 : (encode i).extractLsb' 0 20 = (encodeFields i).imm20 := by rw [← hw, imm20_fieldsOf]
  cases i with
  | lui =>
    simp only [operandFields, List.forall_mem_cons, hd, himm20, encodeFields, imm20_rowU]
    simp [Fields.rowU, Reg.toNat_toField]
  | addi | lw | sw | beq | bne =>
    simp only [operandFields, List.forall_mem_cons, hd, ha, himm16, encodeFields, imm16_rowI]
    simp [Fields.rowI, Reg.toNat_toField]
  | _ =>
    simp only [operandFields, List.forall_mem_cons, hd, ha, hb, hc, hs, ht]
    simp [encodeFields, Fields.rowR, Reg.toNat_toField]

/-! ### Words under a mask, field by field -/

/-- The fields of a word under the fields of a mask. -/
def Fields.and (f m : Fields) : Fields :=
  ⟨f.op &&& m.op, f.ty &&& m.ty, f.d &&& m.d, f.a &&& m.a, f.b &&& m.b, f.c &&& m.c, f.s &&& m.s, f.t &&& m.t⟩

theorem fieldsOf_and (w m : Word) : fieldsOf (w &&& m) = (fieldsOf w).and (fieldsOf m) := by
  simp [fieldsOf, Fields.and, BitVec.extractLsb'_and]

theorem and_eq_iff_fields (w m b : Word) : w &&& m = b ↔ (fieldsOf w).and (fieldsOf m) = fieldsOf b := by
  rw [← fieldsOf_and]
  exact ⟨congrArg fieldsOf, fun h => by rw [← wordOf_fieldsOf (w &&& m), h, wordOf_fieldsOf]⟩

theorem rowMatches_iff_fields (r : OpcodeRow) (w : Word) :
    RowMatches r w ↔ (fieldsOf w).and (fieldsOf r.mask) = fieldsOf r.bits ∧ (fieldsOf w).d.toNat ≤ r.dMax := by
  rw [RowMatches, and_eq_iff_fields, fieldsOf]

@[simp] theorem op_and_63 (op : BitVec 6) : op &&& 63#6 = op := BitVec.and_allOnes

@[simp] theorem ty_and_3 (ty : BitVec 2) : ty &&& 3#2 = ty := BitVec.and_allOnes

@[simp] theorem field_and_15 (x : BitVec 4) : x &&& 15#4 = x := BitVec.and_allOnes

/-- Where a mask has bit 0 of a c16 operand's field, the row asks for an even register (R92 item 4). -/
@[simp] theorem toField_and_1_eq_zero (r : Reg) : r.toField &&& 1#4 = 0#4 ↔ r.pairEven = true := by
  revert r; decide

/-- The constraint on d of a row with three results (R92 item 5). -/
@[simp] theorem toNat_toField_le_13 (d : Reg) : d.toField.toNat ≤ 13 ↔ d.groupFits 3 = true := by
  revert d; decide

/-- The constraint on d of a row with two results (R92 item 5). -/
@[simp] theorem toNat_toField_le_14 (d : Reg) : d.toField.toNat ≤ 14 ↔ d.groupFits 2 = true := by
  revert d; decide

/-- On the other rows d is free. -/
@[simp] theorem toNat_toField_le_15 (d : Reg) : d.toField.toNat ≤ 15 := by
  revert d; decide

/-! ### The row of a command, and the command of a row -/

/-- The row of a command: the table has the rows in the order of the constructors. -/
def rowOf (i : Instr) : OpcodeRow := opcodeRows[i.ctorIdx]'(by cases i <;> exact of_decide_eq_true rfl)

theorem rowOf_mem (i : Instr) : rowOf i ∈ opcodeRows := List.getElem_mem _

theorem mnemonic_rowOf (i : Instr) : (rowOf i).mnemonic = mnemonic i := by cases i <;> rfl

/-- The word of a command matches the command's row exactly when the command is legal: what mask and constraint ask beyond op, ty
and zeros is that pairs are even and that the group fits. -/
theorem rowMatches_rowOf_encode (i : Instr) : RowMatches (rowOf i) (encode i) ↔ i.wellFormed = true := by
  rw [rowMatches_iff_fields, fieldsOf_encode]
  cases i
  all_goals
    simp only [rowOf, Instr.ctorIdx, opcodeRows, scalarRows, calcRows, kernelRows, fftRows, List.cons_append,
      List.nil_append, List.getElem_cons_succ, List.getElem_cons_zero]
    simp [encodeFields, Fields.rowR, Fields.rowI, Fields.rowU, Fields.and, fieldsOf, ElemTy.toField, Instr.wellFormed,
      Instr.pairsEven, Instr.groupFits, and_assoc]

/-- Every field below ty as the field of a register. -/
theorem exists_regs_of_fields (f : Fields) : ∃ op ty, ∃ d a b c s t : Reg,
    f = ⟨op, ty, d.toField, a.toField, b.toField, c.toField, s.toField, t.toField⟩ :=
  ⟨f.op, f.ty, .ofField f.d, .ofField f.a, .ofField f.b, .ofField f.c, .ofField f.s, .ofField f.t, rfl⟩

/-- A row's mask fixes op and ty, which lead the opcode map to a command of the row; what mask and constraint ask of the other
fields is what the last checks ask. -/
theorem exists_decodeFields_of_row {r : OpcodeRow} (hr : r ∈ opcodeRows) {f : Fields}
    (hmask : f.and (fieldsOf r.mask) = fieldsOf r.bits) (hgroup : f.d.toNat ≤ r.dMax) :
    ∃ i, decodeFields f = .ok i ∧ mnemonic i = r.mnemonic := by
  obtain ⟨op, ty, d, a, b, c, s, t, rfl⟩ := exists_regs_of_fields f
  simp only [Fields.and, fieldsOf, Fields.mk.injEq] at hmask
  obtain ⟨hop, hty, hd, ha, hb, hc, hs, ht⟩ := hmask
  fin_cases hr
  all_goals
    simp only [BitVec.reduceExtractLsb', op_and_63, ty_and_3] at hop hty
    subst hop hty
    refine ⟨_, (legalRow_eq_ok _ _ _).2 ⟨?unused, ?legal, rfl⟩, rfl⟩
    case unused => simp_all
    case legal => simp_all [Instr.wellFormed, Instr.pairsEven, Instr.groupFits]

theorem exists_decode_of_rowMatches {r : OpcodeRow} (hr : r ∈ opcodeRows) {w : Word} (h : RowMatches r w) :
    ∃ i, decode w = .ok i ∧ mnemonic i = r.mnemonic := by
  obtain ⟨hmask, hgroup⟩ := (rowMatches_iff_fields r w).1 h
  exact exists_decodeFields_of_row hr hmask hgroup

/-! ### Rows are told apart by bits 31:24 -/

theorem mask_high {r : OpcodeRow} (hr : r ∈ opcodeRows) : r.mask.extractLsb' 24 8 = BitVec.allOnes 8 := by
  revert r; decide

theorem nodup_bits_high : (opcodeRows.map fun r => r.bits.extractLsb' 24 8).Nodup := by decide

theorem bits_high_of_and_mask {r : OpcodeRow} (hr : r ∈ opcodeRows) {w : Word} (h : w &&& r.mask = r.bits) :
    r.bits.extractLsb' 24 8 = w.extractLsb' 24 8 := by
  rw [← h, BitVec.extractLsb'_and, mask_high hr, BitVec.and_allOnes]

/-- Settles O3: a word that decodes is the word of a legal command, which its own row matches; a word that a row matches decodes to
a command of that row; and bits 31:24 of the word name the row. -/
theorem decodeFollowsOpcodeTable : Obligations.DecodeFollowsOpcodeTable := by
  refine ⟨fun w i h => ?_, fun w i h => ?_, fun w r hr h => exists_decode_of_rowMatches hr h, fun w r hr q hq hwr hwq => ?_⟩
  · obtain ⟨rfl, hwf⟩ := (decode_eq_ok_iff w i).1 h
    exact ⟨rowOf i, rowOf_mem i, (rowMatches_rowOf_encode i).2 hwf, mnemonic_rowOf i⟩
  · obtain ⟨rfl, -⟩ := (decode_eq_ok_iff w i).1 h
    exact operandFields_encode i
  · exact List.inj_on_of_nodup_map nodup_bits_high hr hq
      ((bits_high_of_and_mask hr hwr).trans (bits_high_of_and_mask hq hwq).symm)

end Sys2Proof
end

section
/-! The scalar commands (spec/40_sequencer.md R111-R122): what they write, where they go and how LW and SW fault. -/

namespace Sys2Proof.Machine

open Sys2Proof.Claims

/-! ### wrap32 (00_scope.md R12) -/

theorem wrap32_add (u v : Int) : wrap32 (u + v) = wrap32 u + wrap32 v := BitVec.ofInt_add u v

theorem wrap32_sub (u v : Int) : wrap32 (u - v) = wrap32 u - wrap32 v := by
  rw [sub_eq_add_neg, wrap32_add, BitVec.sub_eq_add_neg]
  exact congrArg _ (BitVec.ofInt_neg ..)

@[simp] theorem wrap32_u32 (w : Word) : wrap32 (u32 w) = w := by simp [wrap32, u32]

/-- A word is the pattern of its value (00_scope.md R12). -/
@[simp] theorem ofNat_u32 (w : Word) : BitVec.ofNat 32 (u32 w) = w := by simp [u32]

theorem u32_lt (w : Word) : u32 w < 2 ^ 32 := w.isLt

@[simp] theorem wrap32_toInt (imm16 : BitVec 16) : wrap32 imm16.toInt = imm16.signExtend 32 := rfl

@[simp] theorem wrap32_four : wrap32 4 = 4#32 := rfl

/-- An address plus an offset, wrapped (40_sequencer.md R116). -/
theorem wrap32_u32_add (w : Word) (v : Int) : wrap32 ((u32 w : Int) + v) = w + wrap32 v := by rw [wrap32_add, wrap32_u32]

/-- LUI's result: imm20 stands in bits 31:12 (40_sequencer.md R112). -/
theorem wrap32_upper (imm20 : BitVec 20) : wrap32 (imm20.toNat * 2 ^ 12 : Nat) = imm20 ++ 0#12 := by
  have hlt := imm20.isLt
  apply BitVec.eq_of_toNat_eq
  simp only [wrap32, BitVec.ofInt_natCast, BitVec.toNat_ofNat, BitVec.toNat_append, Nat.shiftLeft_eq, Nat.zero_mod, Nat.or_zero]
  omega

/-- Settles O24: each command ends in `State.finish` with its result, which is the wrapped integer of its rule. -/
theorem arithmeticCommandsWriteTheirResult : Obligations.ArithmeticCommandsWriteTheirResult := by
  intro d a b imm20 imm16 s
  refine ⟨⟨_, rfl, ?_⟩, ⟨_, rfl, ?_⟩, ⟨_, rfl, ?_⟩, ⟨_, rfl, ?_⟩⟩
  · rw [wrap32_upper]; exact regWritten_finish s d _
  · rw [wrap32_u32_add, wrap32_toInt]; exact regWritten_finish s d _
  · rw [wrap32_u32_add, wrap32_u32]; exact regWritten_finish s d _
  · rw [wrap32_sub, wrap32_u32, wrap32_u32]; exact regWritten_finish s d _

/-! ### LW and SW: the checks -/

theorem effectiveAddr_eq (s : State) (a : Reg) (imm16 : BitVec 16) :
    effectiveAddr s a imm16 = wrap32 ((u32 (s.reg a) : Int) + imm16.toInt) := by
  rw [wrap32_u32_add, wrap32_toInt, effectiveAddr]

/-- The entry of a fault is that of 60_exceptions.md R222. -/
theorem raise_eq_faulted (s : State) (c : Cause) (info : Word) : s.raise ⟨c, info⟩ = faulted s c info := rfl

theorem accessTrap_of_misaligned (s : State) {ea : Word} (h : u32 ea % 4 ≠ 0) : accessTrap s ea = some ⟨.dataAlign, ea⟩ := by
  have htrap := operandTrap_of_misaligned s.cfg 1 (pre := []) (post := []) (r := wordArray ea) (by simp) h
  rwa [wordArray, ofNat_u32] at htrap

theorem accessTrap_of_invalid {s : State} {ea : Word} (h4 : u32 ea % 4 = 0) (h : ¬RangeOk s.cfg (u32 ea) 4) :
    accessTrap s ea = some ⟨.dataBus, ea⟩ := by
  have htrap := operandTrap_of_invalid (c := s.cfg) (N := 1) (pre := []) (post := []) (r := wordArray ea)
    (by simpa [wordArray] using h4) (by simp) h
  rwa [wordArray, ofNat_u32] at htrap

theorem accessTrap_of_valid {s : State} {ea : Word} (h4 : u32 ea % 4 = 0) (h : RangeOk s.cfg (u32 ea) 4) :
    accessTrap s ea = none := by
  refine (operandTrap_eq_none _ _ _).2 ⟨fun r hr => ?_, fun r hr => ?_⟩ <;> cases List.mem_singleton.1 hr
  · exact h4
  · exact (rangeValid_iff ..).2 h

/-- LW and SW alike: DATA_ALIGN, then DATA_BUS, and else the effect (40_sequencer.md R116, R117). -/
theorem orTrap_accessTrap (s e : State) (ea : Word) :
    (u32 ea % 4 ≠ 0 → orTrap (accessTrap s ea) s e = .next (faulted s .dataAlign ea)) ∧
    (u32 ea % 4 = 0 → ¬RangeOk s.cfg (u32 ea) 4 → orTrap (accessTrap s ea) s e = .next (faulted s .dataBus ea)) ∧
    (u32 ea % 4 = 0 → RangeOk s.cfg (u32 ea) 4 → orTrap (accessTrap s ea) s e = .next e) := by
  refine ⟨fun h4 => ?_, fun h4 hbus => ?_, fun h4 hok => ?_⟩
  · rw [accessTrap_of_misaligned s h4, orTrap_some, raise_eq_faulted]
  · rw [accessTrap_of_invalid h4 hbus, orTrap_some, raise_eq_faulted]
  · rw [accessTrap_of_valid h4 hok, orTrap_none]

theorem exec_lw_eq (d a : Reg) (imm16 : BitVec 16) (s : State) {ea : Word} (hea : ea = wrap32 ((u32 (s.reg a) : Int) + imm16.toInt)) :
    exec (.lw d a imm16) s = orTrap (accessTrap s ea) s (s.finish d ((s.view s.mem 1).readWord (u32 ea))) := by
  rw [hea, ← effectiveAddr_eq]; rfl

theorem exec_sw_eq (d a : Reg) (imm16 : BitVec 16) (s : State) {ea : Word} (hea : ea = wrap32 ((u32 (s.reg a) : Int) + imm16.toInt)) :
    exec (.sw d a imm16) s =
      orTrap (accessTrap s ea) s (s.setMem (s.mem.writeLE (u32 ea) 4 (u32 (s.reg d)))).advance := by
  rw [hea, ← effectiveAddr_eq]; rfl

/-! ### LW and SW: the bytes (20_memory.md R62) -/

theorem toNat_append_byte {n : Nat} (x : BitVec n) (b : Byte) : (x ++ b).toNat = b.toNat + 2 ^ 8 * x.toNat := by
  rw [BitVec.toNat_append, ← Nat.shiftLeft_add_eq_or_of_lt b.isLt, Nat.shiftLeft_eq]
  omega

/-- The word at an address, its highest byte first. -/
theorem readWord_eq_append (m : Memory) (a : Nat) :
    m.readWord a = m.read (a + 3) ++ m.read (a + 2) ++ m.read (a + 1) ++ m.read a := by
  have hle : m.readLE a 4 = (m.read (a + 3) ++ m.read (a + 2) ++ m.read (a + 1) ++ m.read a).toNat := by
    simp only [toNat_append_byte, Memory.readLE, add_assoc, Nat.reduceAdd]; omega
  rw [Memory.readWord, hle]
  exact ofNat_u32 _

/-- A byte of a word that was stored. -/
theorem read_writeLE_word (m : Memory) (a : Nat) (w : Word) {k : Nat} (hk : k < 4) :
    (m.writeLE a 4 (u32 w)).read (a + k) = w.extractLsb' (8 * k) 8 := by
  rw [Memory.read_writeLE, if_pos (by omega), Nat.add_sub_cancel_left, ← Nat.shiftRight_eq_div_pow]
  rfl

/-- Settles O25: where the checks pass, LW ends in `State.finish` with the four bytes the CORE reads. -/
theorem loadWordLoadsOrFaults : Obligations.LoadWordLoadsOrFaults := by
  intro d a imm16 s ea hea
  rw [exec_lw_eq d a imm16 s hea]
  obtain ⟨halign, hbus, hload⟩ := orTrap_accessTrap s (s.finish d ((s.view s.mem 1).readWord (u32 ea))) ea
  refine ⟨halign, hbus, fun h4 hok => ⟨_, hload h4 hok, ?_⟩⟩
  rintro m rfl
  rw [← readWord_eq_append]
  exact regWritten_finish s d _

/-- Settles O26: where the checks pass, SW's four bytes are those of the register, and a store leaves the bytes outside its range. -/
theorem storeWordStoresOrFaults : Obligations.StoreWordStoresOrFaults := by
  intro d a imm16 s ea hea
  rw [exec_sw_eq d a imm16 s hea]
  obtain ⟨halign, hbus, hstore⟩ := orTrap_accessTrap s (s.setMem (s.mem.writeLE (u32 ea) 4 (u32 (s.reg d)))).advance ea
  refine ⟨halign, hbus, fun h4 hok => ⟨_, hstore h4 hok, rfl, fun k hk => ?_, fun x hx => ?_⟩⟩
  · exact read_writeLE_word s.mem (u32 ea) (s.reg d) hk
  · exact Memory.read_writeLE_outside _ _ _ _ _ hx

/-! ### Branches, HALT, SETVL -/

/-- The next command's address, as the spec writes it (40_sequencer.md R110). -/
theorem wrap32_pc_add_four (pc : Word) : wrap32 ((u32 pc : Int) + 4) = pc + 4#32 := by rw [wrap32_u32_add, wrap32_four]

/-- Settles O27: both commands compare the same registers, and each way of the comparison goes to its address. -/
theorem branchesGoWhereTheyShould : Obligations.BranchesGoWhereTheyShould := by
  intro d a imm16 s
  rw [wrap32_u32_add, wrap32_pc_add_four]
  by_cases heq : s.reg d = s.reg a
  · rw [if_pos heq, if_neg (not_not.2 heq)]
    exact ⟨congrArg _ (if_pos heq), congrArg _ (if_pos heq)⟩
  · rw [if_neg heq, if_pos heq]
    exact ⟨congrArg _ (if_neg heq), congrArg _ (if_neg heq)⟩

/-- Settles O28: each is its rule as the model has it, PC + 4 taken on words. -/
theorem haltStopsAndSetvlSetsLength : Obligations.HaltStopsAndSetvlSetsLength := by
  intro a s
  rw [wrap32_pc_add_four]
  exact ⟨rfl, rfl⟩

/-! ### HRS -/

/-- The low N bits of a word as a signed number (00_scope.md R12). -/
theorem sext_eq_toInt_setWidth (N : Nat) (w : Word) : sext N w = (w.setWidth N).toInt := by rw [sext, BitVec.ofNat_toNat]

/-- The two rows of HRS write the headroom for their element type. -/
theorem exec_hrs (d a : Reg) (s : State) {i : Instr} {ty : ElemTy}
    (h : (i, ty) ∈ [(Instr.hrsS16 d a, ElemTy.s16), (Instr.hrsS32 d a, ElemTy.s32)]) :
    exec i s = .next (s.finish d (scalarHeadroom ty s a)) := by
  simp only [List.mem_cons, Prod.mk.injEq, List.not_mem_nil, or_false] at h
  rcases h with ⟨rfl, rfl⟩ | ⟨rfl, rfl⟩ <;> rfl

/-- Settles O29: HRS ends in `State.finish` with the headroom of the low bits. -/
theorem scalarHeadroomIsWritten : Obligations.ScalarHeadroomIsWritten := by
  intro d a s i ty hi
  refine ⟨_, _, exec_hrs d a s hi, ?_, rfl, hr_le _ _⟩
  rw [← sext_eq_toInt_setWidth]
  exact regWritten_finish s d _

end Sys2Proof.Machine
end

section
/-! The sequencer's cycle (spec/40_sequencer.md R110): the ways in which a command ends, the faults before execution, and the step that runs
the command of the word at PC. -/

namespace Sys2Proof.Machine

open Sys2Proof.Claims

/-! ### How a command ends -/

/-- Settles O9: the ends that `exec_ends` tells apart, SETVL among those that go on at pc + 4. -/
theorem everyCommandEndsInOneOfFourWays : Obligations.EveryCommandEndsInOneOfFourWays := by
  intro i s
  obtain ⟨t, ht⟩ := exec_answers i s
  refine ⟨t, ht, ?_⟩
  rcases exec_ends ht with ⟨x, hx, rfl⟩ | ⟨hi, rfl⟩ | ⟨d, a, imm16, hi, rfl⟩ | ⟨a, -, rfl⟩ | hc
  · exact .inr (.inr (.inr ⟨x.cause, x.info, hx, rfl⟩))
  · exact .inr (.inr (.inl ⟨hi, rfl⟩))
  · exact .inr (.inl ⟨d, a, imm16, hi, rfl⟩)
  · exact .inl ⟨rfl, rfl, rfl, rfl, rfl, rfl, rfl, rfl⟩
  · rw [hc.frame]
    exact .inl ⟨rfl, rfl, rfl, rfl, rfl, rfl, rfl, rfl⟩

/-! ### The checks of a fetch -/

theorem fetchTrap_of_misaligned {s : State} (h : u32 s.pc % 4 ≠ 0) : fetchTrap s = some ⟨.fetchAlign, s.pc⟩ := if_pos h

theorem fetchTrap_of_aligned {s : State} (h : u32 s.pc % 4 = 0) :
    fetchTrap s = if rangeValid s.cfg (u32 s.pc) 4 = true then none else some ⟨.fetchBus, s.pc⟩ := by
  rw [fetchTrap, if_neg (not_not.2 h)]
  cases rangeValid s.cfg (u32 s.pc) 4 <;> rfl

theorem fetchTrap_of_invalid {s : State} (h4 : u32 s.pc % 4 = 0) (h : ¬RangeOk s.cfg (u32 s.pc) 4) :
    fetchTrap s = some ⟨.fetchBus, s.pc⟩ := by
  rw [fetchTrap_of_aligned h4, if_neg fun hv => h ((rangeValid_iff ..).1 hv)]

theorem fetchTrap_of_valid {s : State} (h4 : u32 s.pc % 4 = 0) (h : RangeOk s.cfg (u32 s.pc) 4) : fetchTrap s = none := by
  rw [fetchTrap_of_aligned h4, if_pos ((rangeValid_iff ..).2 h)]

theorem command_of_fetchTrap {s : State} {x : Trap} (h : fetchTrap s = some x) : command s = .next (s.raise x) := by
  simp [command, h]

theorem command_of_illegal {s : State} (hf : fetchTrap s = none) (hd : ∀ i, decode (fetchWord s) ≠ .ok i) :
    command s = .next (s.raise ⟨.illegal, fetchWord s⟩) := by
  cases h : decode (fetchWord s) with
  | ok i => exact absurd h (hd i)
  | error e => simp [command, hf, h]

/-! ### A command that stops the run -/

/-- A command that stops the run is not one in progress: it accesses no memory but its own word (20_memory.md R68). -/
theorem inProgress_of_stops {s t : State} (hc : command s = .next t) (ht : t.run = .idle) : inProgress s = none := by
  cases h : inProgress s with
  | none => rfl
  | some i =>
    obtain ⟨hf, hd, u, hu, hrun⟩ := inProgress_eq_some h
    rw [command_eq hf hd, hu] at hc
    cases hc
    simp [ht] at hrun

theorem after_of_stops {s t : State} (hc : command s = .next t) (ht : t.run = .idle) :
    s.after t = { t with race := t.race.record s, freeCount := t.freeCount + 1 } := by
  have hnone : s.race.hostStored.filter (inSpans (written s)) = [] := by
    simp [written, inProgress_of_stops hc ht, inSpans]
  simp [State.after, hnone]

theorem boundary_of_idle {s : State} (h : s.run = .idle) : s.boundary = { s with race := .none } := by
  simp [State.boundary, h]

/-- The sequencer's move where the command stops the run: the command's end, with no race on record any more (log entry 6). -/
theorem sequencer_of_stops {s t : State} (hrun : s.run = .run) (hc : command s = .next t) (ht : t.run = .idle) :
    sequencer s = .next { t with race := .none, freeCount := t.freeCount + 1 } := by
  have hafter : (s.after t).run = .idle := (after_run s t).trans ht
  rw [sequencer_run hrun hc, boundary_of_idle hafter, after_of_stops hc ht]

/-- A fault before execution is all that the step does. -/
theorem step_of_command_raises {s : State} {c : Cause} {info : Word} (hq : s.hostQueue = []) (hrun : s.run = .run)
    (hc : command s = .next (s.raise ⟨c, info⟩)) :
    step s = .next (faulted { s with race := .none, freeCount := s.freeCount + 1 } c info) :=
  (step_of_nil hq).trans (sequencer_of_stops hrun hc rfl)

/-- Settles O7: each of the three faults is the command's end, and stops the run. -/
theorem fetchFaultsAreRaised : Obligations.FetchFaultsAreRaised := by
  rintro s _ hq hrun rfl
  refine ⟨fun h4 => ?_, fun h4 hbus => ?_, fun h4 hok hill => ?_⟩
  · exact step_of_command_raises hq hrun (command_of_fetchTrap (fetchTrap_of_misaligned h4))
  · exact step_of_command_raises hq hrun (command_of_fetchTrap (fetchTrap_of_invalid h4 hbus))
  · exact step_of_command_raises hq hrun (command_of_illegal (fetchTrap_of_valid h4 hok) hill)

/-! ### The step that runs a command -/

/-- With no host move pending, while RUN, a step runs the command of the word that it fetches. -/
theorem step_of_decodes {s t : State} {i : Instr} (hq : s.hostQueue = []) (hrun : s.run = .run) (hf : fetchTrap s = none)
    (hd : decode (fetchWord s) = .ok i) (he : exec i s = .next t) : step s = .next (s.after t).boundary :=
  (step_of_nil hq).trans (sequencer_run hrun ((command_eq hf hd).trans he))

/-- With no byte open to a race the host has stored nothing in the run. -/
theorem hostStored_of_clear {s : State} (h : s.clouded = []) : s.race.hostStored = [] := by
  simp only [State.clouded, List.append_eq_nil_iff] at h
  exact h.2.1

/-- Settles O5: the sequencer's move after a fetch that passes; the move `pass` is that move too, the races foreseen. -/
theorem stepRunsDecodedCommand : Obligations.StepRunsDecodedCommand := by
  intro s t i hq hrun h4 hok hd he
  refine ⟨step_of_decodes hq hrun (fetchTrap_of_valid h4 hok) hd he, fun hclear => ?_, ?_⟩
  · exact ⟨_, after_of_quiet s t (hostStored_of_clear hclear)⟩
  · rintro rest u rfl
    obtain ⟨l, b, hforesee, -, -⟩ := foresee_sound { s with hostQueue := rest } .pass
    have hstep : step { s with hostQueue := .pass :: rest } = hostMove .pass { s with hostQueue := rest } := step_of_cons rfl
    exact ⟨hstep, l, b, hforesee⟩

/-! ### A word placed from outside (log entry 11) -/

theorem withFetchWord_eq_placeWord (s : State) (w : Word) : s.withFetchWord 32 (u32 w) = s.placeWord w := by
  rw [State.withFetchWord, Nat.mod_eq_of_lt (u32_lt w), ofNat_u32]

@[simp] theorem placeWord_hostQueue (s : State) (w : Word) : (s.placeWord w).hostQueue = [] := by
  unfold State.placeWord; split <;> rfl

@[simp] theorem placeWord_race (s : State) (w : Word) : (s.placeWord w).race = .none := by
  unfold State.placeWord; split <;> rfl

@[simp] theorem placeWord_run (s : State) (w : Word) : (s.placeWord w).run = .run := by
  unfold State.placeWord
  split
  · rfl
  · next hrun => exact hrun

/-- The word boundary at or below PC. -/
theorem u32_placeWord_pc (s : State) (w : Word) : u32 (s.placeWord w).pc = u32 s.pc / 4 * 4 := by
  have hpc : (s.placeWord w).pc = BitVec.ofNat 32 (u32 s.pc / 4 * 4) := by
    unfold State.placeWord; split <;> rfl
  have hlt := u32_lt s.pc
  rw [hpc, u32, BitVec.toNat_ofNat, Nat.mod_eq_of_lt (by omega)]

theorem placeWord_mem (s : State) (w : Word) :
    (s.placeWord w).mem = s.mem.writeLE (u32 (s.placeWord w).pc) 4 (u32 w) := by
  unfold State.placeWord; split <;> rfl

theorem placeWord_cfg (s : State) (w : Word) :
    (s.placeWord w).cfg = if rangeValid s.cfg (u32 (s.placeWord w).pc) 4 then s.cfg
      else { s.cfg with memMap := ⟨u32 (s.placeWord w).pc, 4⟩ :: s.cfg.memMap } := by
  unfold State.placeWord; split <;> rfl

/-- The placed word lies in valid memory: it did before, or its four bytes are named so. -/
theorem rangeOk_placeWord (s : State) (w : Word) : RangeOk (s.placeWord w).cfg (u32 (s.placeWord w).pc) 4 := by
  rw [placeWord_cfg]
  split
  · next hvalid => exact (rangeValid_iff ..).1 hvalid
  · have hlt := u32_lt s.pc
    refine .inr ⟨by rw [u32_placeWord_pc]; omega, fun a hlo hhi => ?_⟩
    simp [memValid, inSpans, hlo, hhi]

theorem fetchTrap_placeWord (s : State) (w : Word) : fetchTrap (s.placeWord w) = none :=
  fetchTrap_of_valid (by rw [u32_placeWord_pc]; omega) (rangeOk_placeWord s w)

/-- The word that is fetched is the one placed: it was stored at PC, and no byte of it races. -/
theorem fetchWord_placeWord (s : State) (w : Word) : fetchWord (s.placeWord w) = w := by
  rw [fetchWord, view_of_clear _ _ _ (clouded_of_none _ (placeWord_race s w)), placeWord_mem, Memory.readWord,
    Memory.readLE_writeLE, Nat.mod_eq_of_lt (u32_lt w), ofNat_u32]

/-- Settles O15: the placed word can be fetched and is what is fetched. -/
theorem placedWordRunsNext : Obligations.PlacedWordRunsNext := by
  intro s t w i hd he
  rw [withFetchWord_eq_placeWord] at he ⊢
  exact step_of_decodes (placeWord_hostQueue s w) (placeWord_run s w) (fetchTrap_placeWord s w)
    (by rw [fetchWord_placeWord, hd]) he

end Sys2Proof.Machine
end

section
/-! The calculator commands (spec/41_calculators.md R135-R142): each ends in `calculate` with the outputs of its rule, which writes them all to
its register group or, where one does not fit, none. -/

namespace Sys2Proof.Machine

open Sys2Proof.Claims

/-! ### Outputs -/

theorem headroomOf_eq (B : Nat) (hB : 0 < B) (s : State) (n : Reg) : headroomOf B s n = headroomIn B s n := by
  unfold headroomOf headroomIn; omega

theorem addOutputs_eq (B : Nat) (hB : 0 < B) (s : State) (b c sh t : Reg) : addOutputs B s b c sh t =
    calcAddOut B (satPolicy s) (exponentIn s b) (exponentIn s c) (headroomIn B s sh) (headroomIn B s t) := by
  rw [addOutputs, headroomOf_eq B hB, headroomOf_eq B hB]; rfl

theorem mulOutputs_eq (B : Nat) (hB : 0 < B) (s : State) (b c sh t : Reg) : mulOutputs B s b c sh t =
    calcMulOut B (satPolicy s) (exponentIn s b) (exponentIn s c) (headroomIn B s sh) (headroomIn B s t) := by
  rw [mulOutputs, headroomOf_eq B hB, headroomOf_eq B hB]; rfl

theorem cmulOutputs_eq (B : Nat) (hB : 0 < B) (s : State) (b c sh t : Reg) : cmulOutputs B s b c sh t =
    calcCmulOut B (satPolicy s) (exponentIn s b) (exponentIn s c) (headroomIn B s sh) (headroomIn B s t) := by
  rw [cmulOutputs, headroomOf_eq B hB, headroomOf_eq B hB]; rfl

theorem scaleOutputs_eq (B : Nat) (hB : 0 < B) (s : State) (b c sh t : Reg) : scaleOutputs B s b c sh t =
    calcMulOut B (satPolicy s) (exponentIn s b) (exponentIn s c) (headroomIn B s sh) (alphaHr B s t) := by
  rw [scaleOutputs, headroomOf_eq B hB]; rfl

theorem magOutputs_eq (B : Nat) (hB : 0 < B) (s : State) (b sh : Reg) :
    magOutputs B s b sh = calcMagOut (exponentIn s b) (headroomIn B s sh) := by
  rw [magOutputs, headroomOf_eq B hB]; rfl

theorem sqmagOutputs_eq (B : Nat) (hB : 0 < B) (s : State) (b sh : Reg) :
    sqmagOutputs B s b sh = calcSqmagOut B (satPolicy s) (exponentIn s b) (headroomIn B s sh) := by
  rw [sqmagOutputs, headroomOf_eq B hB]; rfl

/-- The command is a calculator whose rule gives the outputs `outs`, and its register group begins at x[d]. -/
def Calculates (i : Instr) (s : State) (d : Reg) (outs : List Int) : Prop :=
  calcOutputs i s = some outs ∧ (destinations i).head? = some d

theorem exists_calculates {i : Instr} {s : State} {outs : List Int} (h : calcOutputs i s = some outs) :
    ∃ d, Calculates i s d outs := by
  cases i
  case calcAddS16 | calcAddS32 | calcAddC16 | calcAddC32 | calcMulS16 | calcMulS32 | calcCmulC16 | calcCmulC32 | calcScaleS16 |
      calcScaleS32 | calcScaleC16 | calcScaleC32 | calcMagC16 | calcMagC32 | calcSqmagC16 | calcSqmagC32 => exact ⟨_, h, rfl⟩
  all_goals cases h

/-- All sixteen calculators end in `calculate`, with the outputs of their rules. -/
theorem exec_calculator {i : Instr} {s : State} {d : Reg} {outs : List Int} (h : Calculates i s d outs) :
    exec i s = calculate s (encode i) d outs := by
  obtain ⟨hout, hd⟩ := h
  cases i
  case calcAddS16 | calcAddS32 | calcAddC16 | calcAddC32 => cases hout; cases hd; rw [addOutputs_eq _ (by omega)]; rfl
  case calcMulS16 | calcMulS32 => cases hout; cases hd; rw [mulOutputs_eq _ (by omega)]; rfl
  case calcCmulC16 | calcCmulC32 => cases hout; cases hd; rw [cmulOutputs_eq _ (by omega)]; rfl
  case calcScaleS16 | calcScaleS32 | calcScaleC16 | calcScaleC32 =>
    cases hout; cases hd; rw [scaleOutputs_eq _ (by omega)]; rfl
  case calcMagC16 | calcMagC32 => cases hout; cases hd; rw [magOutputs_eq _ (by omega)]; rfl
  case calcSqmagC16 | calcSqmagC32 => cases hout; cases hd; rw [sqmagOutputs_eq _ (by omega)]; rfl
  all_goals cases hout

/-! ### The end of a calculator (41_calculators.md R135) -/

theorem outOfRange_iff (o : Int) : outOfRange o = true ↔ ¬Fits o := by
  simp only [outOfRange, Fits, decide_eq_true_eq]; omega

/-- Where every output fits, all are written. -/
theorem calculate_of_fits {s : State} {w : Word} {d : Reg} {outs : List Int} (h : ∀ o ∈ outs, Fits o) :
    calculate s w d outs = .next (s.setGroup d (outs.map wrap32)).advance := by
  have hany : ¬outs.any outOfRange = true := by
    simp only [List.any_eq_true, outOfRange_iff, not_exists, not_and, not_not]; exact h
  rw [calculate_eq, if_neg hany]

/-- Where one output does not fit, none is written. -/
theorem calculate_of_not_fits {s : State} {w : Word} {d : Reg} {outs : List Int} (h : ∃ o ∈ outs, ¬Fits o) :
    calculate s w d outs = .next (faulted s .expOverflow w) := by
  have hany : outs.any outOfRange = true := by simpa only [List.any_eq_true, outOfRange_iff] using h
  rw [calculate_eq, if_pos hany, raise_eq_faulted]

theorem s32_wrap32_of_fits {o : Int} (h : Fits o) : s32 (wrap32 o) = o := s32_wrap32 o h.1 h.2

/-! ### Register groups (30_encoding.md R89) -/

/-- A register group changes registers alone, and PC moves on. -/
theorem setGroup_advance_frame (s : State) (d : Reg) (vs : List Word) : (s.setGroup d vs).advance =
    { s with regs := (s.setGroup d vs).advance.regs, pc := s.pc + 4#32 } := by
  rw [setGroup_frame]; rfl

/-- The registers of a group of two that ends at or below x[15] are two. -/
theorem group_two_distinct : ∀ d : Reg, d.val ≤ 14 → d + 1 ≠ 0 ∧ d ≠ d + 1 := by decide

/-- The registers of a group of three that ends at or below x[15] are three. -/
theorem group_three_distinct : ∀ d : Reg, d.val ≤ 13 → d + 2 ≠ 0 ∧ d ≠ d + 2 ∧ d + 1 ≠ d + 2 := by decide

/-- Two outputs that fit go to their group. -/
theorem pairWritten_of_fits {s : State} {d : Reg} {u v : Int} (hd : d.val ≤ 14) (hu : Fits u) (hv : Fits v) :
    PairWritten s (s.setGroup d [wrap32 u, wrap32 v]).advance d u v := by
  obtain ⟨hz, hne⟩ := group_two_distinct d hd
  refine ⟨setGroup_advance_frame s d _, fun h0 => ?_, ?_, fun n hn hn1 => ?_⟩
  · rw [advance_reg, reg_setGroup_two, if_neg (by simp [hne]), if_pos ⟨rfl, h0⟩, s32_wrap32_of_fits hu]
  · rw [advance_reg, reg_setGroup_two, if_pos ⟨rfl, hz⟩, s32_wrap32_of_fits hv]
  · rw [advance_reg, reg_setGroup_two_other _ _ _ _ _ (by simp [hn, hn1])]

/-- A calculator with two outputs that fit. -/
theorem exec_calculator_pair {i : Instr} {s : State} {d : Reg} {u v : Int} (h : Calculates i s d [u, v]) (hd : d.val ≤ 14)
    (hu : Fits u) (hv : Fits v) : ∃ t, exec i s = .next t ∧ PairWritten s t d u v := by
  refine ⟨_, ?_, pairWritten_of_fits hd hu hv⟩
  rw [exec_calculator h, calculate_of_fits (by simp [hu, hv]), List.map_cons, List.map_cons, List.map_nil]

/-! ### The obligations -/

/-- Settles O30: the three outputs fit, so `calculate` writes them, each to a register of its own. -/
theorem calcAddWritesItsGroup : Obligations.CalcAddWritesItsGroup := by
  intro d b c sh t s i ty aExp bShr cShr hi hd hout ha hb hc
  have hcalc : Calculates i s d [aExp, bShr, cShr] := by
    rw [← hout]
    simp only [List.mem_cons, Prod.mk.injEq, List.not_mem_nil, or_false] at hi
    rcases hi with ⟨rfl, rfl⟩ | ⟨rfl, rfl⟩ | ⟨rfl, rfl⟩ | ⟨rfl, rfl⟩ <;> exact ⟨rfl, rfl⟩
  obtain ⟨hz1, hne1⟩ := group_two_distinct d (by omega)
  obtain ⟨hz2, hne2, hne12⟩ := group_three_distinct d hd
  have hadd : d + 1 + 1 = d + 2 := add_assoc d 1 1
  refine ⟨_, (exec_calculator hcalc).trans (calculate_of_fits (by simp [ha, hb, hc])), setGroup_advance_frame s d _,
    fun h0 => ?_, ?_, ?_, fun n hn hn1 hn2 => ?_⟩ <;> rw [advance_reg]
  · simp [reg_setGroup_three, hadd, hne2, hne1, h0, s32_wrap32_of_fits ha]
  · simp [reg_setGroup_three, hadd, hne12, hz1, s32_wrap32_of_fits hb]
  · simp [reg_setGroup_three, hadd, hz2, s32_wrap32_of_fits hc]
  · exact reg_setGroup_three_other s d _ _ _ n (by simp [hn, hn1, hn2])

/-- Settles O31: `exec_calculator_pair` for the eight rows. -/
theorem productCalculatorsWriteTheirGroup : Obligations.ProductCalculatorsWriteTheirGroup := by
  intro d b c sh t s i ty aExp satShr hd ha hs h
  refine exec_calculator_pair ?_ hd ha hs
  simp only [List.mem_cons, Prod.mk.injEq, List.not_mem_nil, or_false] at h
  rcases h with ⟨hi, hout⟩ | ⟨hi, hout⟩ | ⟨hi, hout⟩ <;> rw [← hout]
  · rcases hi with ⟨rfl, rfl⟩ | ⟨rfl, rfl⟩ <;> exact ⟨rfl, rfl⟩
  · rcases hi with ⟨rfl, rfl⟩ | ⟨rfl, rfl⟩ <;> exact ⟨rfl, rfl⟩
  · rcases hi with ⟨rfl, rfl⟩ | ⟨rfl, rfl⟩ | ⟨rfl, rfl⟩ | ⟨rfl, rfl⟩ <;> exact ⟨rfl, rfl⟩

/-- Settles O32: `exec_calculator_pair` for the four rows. -/
theorem magnitudeCalculatorsWriteTheirGroup : Obligations.MagnitudeCalculatorsWriteTheirGroup := by
  intro d b sh s i ty aExp shift hd ha hs h
  refine exec_calculator_pair ?_ hd ha hs
  simp only [List.mem_cons, Prod.mk.injEq, List.not_mem_nil, or_false] at h
  rcases h with ⟨hi, hout⟩ | ⟨hi, hout⟩ <;> rw [← hout]
  · rcases hi with ⟨rfl, rfl⟩ | ⟨rfl, rfl⟩ <;> exact ⟨rfl, rfl⟩
  · rcases hi with ⟨rfl, rfl⟩ | ⟨rfl, rfl⟩ <;> exact ⟨rfl, rfl⟩

/-- Settles O33: whatever the calculator's group, `calculate` ends in the fault's entry. -/
theorem calculatorOverflowFaults : Obligations.CalculatorOverflowFaults := by
  intro i s outs hout hbad
  obtain ⟨d, hcalc⟩ := exists_calculates hout
  rw [exec_calculator hcalc, calculate_of_not_fits hbad]

end Sys2Proof.Machine
end

section
/-! What the calculators promise (spec/41_calculators.md R137-R143): no more headroom, no greater exponent; and mantissas with the headroom that
a calculator was given, shifted as it says, stay within the bounds through every kernel (42_kernels.md R173). -/

namespace Sys2Proof.Machine

open Sys2Proof.Claims

/-! ### Monotonicity (41_calculators.md R143) -/

/-- Settles O35: in each exponent a headroom stands under a minus sign, below the maxima. -/
theorem calculatorsAreMonotoneInHeadroom : Obligations.CalculatorsAreMonotoneInHeadroom := by
  intro B S eb ec hb hc hb' hc' hle hle'
  simp only [calcAddOut, calcMulOut, calcCmulOut, calcMagOut, calcSqmagOut, List.head?_cons, Option.mem_some_iff, forall_eq']
  refine ⟨?_, ?_, ?_, ?_, ?_⟩ <;> omega

/-! ### Values of n + 1 signed bits -/

/-- The value fits n + 1 signed bits. -/
def Within (n : Nat) (v : Int) : Prop := -2 ^ n ≤ v ∧ v ≤ 2 ^ n - 1

theorem within_mono {n m : Nat} {v : Int} (hnm : n ≤ m) (h : Within n v) : Within m v := by
  have hpow : (2 : Int) ^ n ≤ 2 ^ m := pow_le_pow_right₀ (by norm_num) hnm
  unfold Within at *; omega

/-- Headroom at least h leaves B − h bits (00_scope.md R17). -/
theorem headroomAtLeast_iff (B h : Nat) (hB : 0 < B) (hh : h ≤ B - 1) (m : Int) :
    HeadroomAtLeast B h m ↔ Within (B - 1 - h) m := by
  constructor
  · rintro ⟨hlo, hhi, hhr⟩
    exact (le_hr_iff B hB m hlo hhi h hh).1 hhr
  · intro hw
    obtain ⟨hlo, hhi⟩ := within_mono (Nat.sub_le (B - 1) h) hw
    exact ⟨hlo, hhi, (le_hr_iff B hB m hlo hhi h hh).2 hw⟩

/-- B signed bits need no saturation (00_scope.md R15). -/
theorem sat_of_within {B : Nat} {v : Int} (h : Within (B - 1) v) : sat B v = v := sat_of_mem B v h.1 h.2

theorem within_add {n : Nat} {u v : Int} (hu : Within n u) (hv : Within n v) : Within (n + 1) (u + v) := by
  unfold Within at *; rw [pow_succ]; omega

theorem within_sub {n : Nat} {u v : Int} (hu : Within n u) (hv : Within n v) : Within (n + 1) (u - v) := by
  unfold Within at *; rw [pow_succ]; omega

theorem abs_le_of_within {n : Nat} {v : Int} (h : Within n v) : |v| ≤ 2 ^ n := abs_le.2 ⟨h.1, by have := h.2; omega⟩

/-- The one product that needs the last bit is that of the two most negative values. -/
theorem within_mul {n m : Nat} {u v : Int} (hu : Within n u) (hv : Within m v) : Within (n + m + 1) (u * v) := by
  have hprod : |u * v| ≤ 2 ^ (n + m) :=
    calc |u * v| = |u| * |v| := abs_mul u v
      _ ≤ 2 ^ n * 2 ^ m := mul_le_mul (abs_le_of_within hu) (abs_le_of_within hv) (abs_nonneg v) (by positivity)
      _ = 2 ^ (n + m) := (pow_add 2 n m).symm
  have hpos : (0 : Int) < 2 ^ (n + m) := by positivity
  obtain ⟨hlo, hhi⟩ := abs_le.1 hprod
  unfold Within; rw [pow_succ]; omega

/-- A shift by k takes k bits away, or adds −k (00_scope.md R16). -/
theorem within_shr {n p : Nat} {v k : Int} (hk : n - k ≤ p) (h : Within n v) : Within p (shr v k) := by
  obtain ⟨hlo, hhi⟩ := h
  by_cases hneg : k < 0
  · have hpow : (2 : Int) ^ n * 2 ^ (-k).toNat ≤ 2 ^ p := by
      rw [← pow_add]; exact pow_le_pow_right₀ (by norm_num) (by omega)
    have hpos : (0 : Int) < 2 ^ (-k).toNat := by positivity
    rw [shr_of_neg v k hneg]
    constructor <;> nlinarith
  · have hpow : (2 : Int) ^ n ≤ 2 ^ p * 2 ^ k.toNat := by
      rw [← pow_add]; exact pow_le_pow_right₀ (by norm_num) (by omega)
    have hpos : (0 : Int) < 2 ^ k.toNat := by positivity
    have hlt : v / 2 ^ k.toNat < 2 ^ p := (Int.ediv_lt_iff_lt_mul hpos).2 (by omega)
    rw [shr_of_nonneg v k (by omega)]
    exact ⟨(Int.le_ediv_iff_mul_le hpos).2 (by rw [neg_mul]; omega), by omega⟩

/-! ### CALC.ADD (41_calculators.md R136, R137) -/

/-- The shifts of CALC.ADD leave the operands' parts B − 1 + S bits: S = 0 rules saturation out, S = 1 keeps the parts in range. -/
theorem calcAdd_within {B S hb hc : Nat} {eb ec aExp bShr cShr b c : Int} (hB : 2 ≤ B) (hhb : hb ≤ B - 1) (hhc : hc ≤ B - 1)
    (h : calcAddOut B S eb ec hb hc = [aExp, bShr, cShr]) (hb' : HeadroomAtLeast B hb b) (hc' : HeadroomAtLeast B hc c) :
    Within (B - 2 + S) (shr b bShr) ∧ Within (B - 2 + S) (shr c cShr) := by
  rw [headroomAtLeast_iff B _ (by omega) (by omega)] at hb' hc'
  simp only [calcAddOut, List.cons.injEq, and_true] at h
  exact ⟨within_shr (by omega) hb', within_shr (by omega) hc'⟩

/-- The most negative value with headroom at least h. -/
theorem headroomAtLeast_neg_two_pow {B h : Nat} (hB : 0 < B) (hh : h ≤ B - 1) : HeadroomAtLeast B h (-2 ^ (B - 1 - h)) := by
  have hpos : (0 : Int) < 2 ^ (B - 1 - h) := by positivity
  exact (headroomAtLeast_iff B h hB hh _).2 ⟨le_rfl, by omega⟩

/-- Shifted left by all its headroom, the most negative value is MINB. -/
theorem shr_neg_two_pow {B h : Nat} (hh : h ≤ B - 1) : shr (-2 ^ (B - 1 - h)) (-h) = minB B := by
  have hmul : -2 ^ (B - 1 - h) * 2 ^ h = minB B := by
    rw [neg_mul, ← pow_add, Nat.sub_add_cancel hh, minB]
  rcases Nat.eq_zero_or_pos h with rfl | hpos
  · simpa using hmul
  · rw [shr_of_neg _ _ (by omega), neg_neg, Int.toNat_natCast, hmul]

/-- No shift takes the sign away. -/
theorem shr_neg_of_neg {v : Int} (hv : v < 0) (k : Int) : shr v k < 0 := by
  by_cases hk : k < 0
  · rw [shr_of_neg v k hk]; exact mul_neg_of_neg_of_pos hv (by positivity)
  · rw [shr_of_nonneg v k (by omega)]; exact Int.ediv_neg_of_neg_of_pos hv (by positivity)

theorem sat_ne_of_lt {B : Nat} {v : Int} (h : v < minB B) : sat B v ≠ v := by
  have := minB_le_sat B v
  omega

/-- With an exponent one lower, the operand that decides it is shifted left by all its headroom; the most negative operands then have a
sum below MINB. -/
theorem calcAdd_saturates_one_lower {B hb hc : Nat} {eb ec aExp bShr cShr : Int} (hhb : hb ≤ B - 1)
    (hhc : hc ≤ B - 1) (h : calcAddOut B 0 eb ec hb hc = [aExp, bShr, cShr]) :
    shr (-2 ^ (B - 1 - hb)) (aExp - 1 - eb) + shr (-2 ^ (B - 1 - hc)) (aExp - 1 - ec) < minB B := by
  have hnegb := shr_neg_of_neg (neg_lt_zero.2 (by positivity : (0 : Int) < 2 ^ (B - 1 - hb))) (aExp - 1 - eb)
  have hnegc := shr_neg_of_neg (neg_lt_zero.2 (by positivity : (0 : Int) < 2 ^ (B - 1 - hc))) (aExp - 1 - ec)
  simp only [calcAddOut, List.cons.injEq, and_true] at h
  have hdecides : aExp - 1 - eb = -hb ∨ aExp - 1 - ec = -hc := by omega
  rcases hdecides with hk | hk
  · rw [hk, shr_neg_two_pow hhb]; omega
  · rw [hk, shr_neg_two_pow hhc]; omega

/-- Settles O34: the parts' bounds are `calcAdd_within` for S = 0 and S = 1, and one bit more holds every sum and difference. -/
theorem calcAddRulesOutSaturation : Obligations.CalcAddRulesOutSaturation := by
  intro B eb ec hb hc aExp bShr cShr aExp1 bShr1 cShr1 hB hhb hhc h0 h1
  have hsucc : B - 2 + 1 = B - 1 := by omega
  refine ⟨fun b c hb' hc' => ?_, _, _, headroomAtLeast_neg_two_pow (by omega) hhb, headroomAtLeast_neg_two_pow (by omega) hhc,
    sat_ne_of_lt (calcAdd_saturates_one_lower hhb hhc h0)⟩
  obtain ⟨hwb, hwc⟩ := calcAdd_within (S := 0) (by omega) hhb hhc h0 hb' hc'
  obtain ⟨hwb1, hwc1⟩ := calcAdd_within (S := 1) (by omega) hhb hhc h1 hb' hc'
  have hsum := within_add hwb hwc
  have hdiff := within_sub hwb hwc
  rw [Nat.add_zero, hsucc] at hsum hdiff
  rw [hsucc] at hwb1 hwc1
  exact ⟨⟨hwb.1, hwb.2, hwc.1, hwc.2⟩, sat_of_within hsum, sat_of_within hdiff, hwb1.1, hwb1.2, hwc1.1, hwc1.2⟩

/-! ### The other calculators (41_calculators.md R138-R142) -/

/-- CALC.MUL's shift leaves a product of two parts B bits. -/
theorem calcMul_within {B hb hc : Nat} {eb ec e sh v : Int} (hB : 0 < B) (hhb : hb ≤ B - 1) (hhc : hc ≤ B - 1)
    (h : calcMulOut B 0 eb ec hb hc = [e, sh]) (hv : Within (B - 1 - hb + (B - 1 - hc) + 1) v) :
    Within (B - 1) (shr v sh) := by
  simp only [calcMulOut, List.cons.injEq, and_true] at h
  exact within_shr (by omega) hv

/-- CALC.CMUL's shift leaves a sum of two such products B bits. -/
theorem calcCmul_within {B hb hc : Nat} {eb ec e sh v : Int} (hB : 0 < B) (hhb : hb ≤ B - 1) (hhc : hc ≤ B - 1)
    (h : calcCmulOut B 0 eb ec hb hc = [e, sh]) (hv : Within (B - 1 - hb + (B - 1 - hc) + 1 + 1) v) :
    Within (B - 1) (shr v sh) := by
  simp only [calcCmulOut, List.cons.injEq, and_true] at h
  exact within_shr (by omega) hv

/-- CALC.SQMAG's shift leaves a sum of two squares B bits. -/
theorem calcSqmag_within {B hb : Nat} {eb e sh v : Int} (hB : 0 < B) (hhb : hb ≤ B - 1)
    (h : calcSqmagOut B 0 eb hb = [e, sh]) (hv : Within (B - 1 - hb + (B - 1 - hb) + 1 + 1) v) :
    Within (B - 1) (shr v sh) := by
  simp only [calcSqmagOut, List.cons.injEq, and_true] at h
  exact within_shr (by omega) hv

/-- CALC.MAG's shift leaves each part B − 1 bits. -/
theorem calcMag_within {B hb : Nat} {eb e sh v : Int} (hB : 2 ≤ B) (hhb : hb ≤ B - 1) (h : calcMagOut eb hb = [e, sh])
    (hv : Within (B - 1 - hb) v) : Within (B - 2) (shr v sh) := by
  simp only [calcMagOut, List.cons.injEq, and_true] at h
  exact within_shr (by omega) hv

/-- The magnitude of parts of n + 1 bits is below 2^(n+1) − 1, whatever the build's mag_fn: √2 · 2^n leaves room for MAG_TOL. -/
theorem magReference_add_one_lt {n : Nat} {x y : Int} (hn : 1 ≤ n) (hx : Within n x) (hy : Within n y) :
    magReference x y + 1 < 2 ^ (n + 1) := by
  have hP : 2 ≤ 2 ^ n := by simpa using Nat.pow_le_pow_right (n := 2) (by omega) hn
  have hxn : x.natAbs ≤ 2 ^ n := by exact_mod_cast (Int.natCast_natAbs x).trans_le (abs_le_of_within hx)
  have hyn : y.natAbs ≤ 2 ^ n := by exact_mod_cast (Int.natCast_natAbs y).trans_le (abs_le_of_within hy)
  have hroot : magReference x y < 2 * 2 ^ n - 1 := by
    obtain ⟨q, hq⟩ : ∃ q, 2 ^ n = q + 2 := ⟨2 ^ n - 2, by omega⟩
    rw [magReference, isqrt_eq_sqrt, Nat.sqrt_lt]
    have hxx := Nat.mul_le_mul hxn hxn
    have hyy := Nat.mul_le_mul hyn hyn
    rw [hq] at hxx hyy ⊢
    rw [show 2 * (q + 2) - 1 = 2 * q + 3 by omega]
    nlinarith
  rw [pow_succ]; omega

/-- VMAG never saturates after CALC.MAG's shift (00_scope.md R6). -/
theorem magFn_within {n : Nat} {x y : Int} (g : MagInstance) (hn : 1 ≤ n) (hx : Within n x) (hy : Within n y) :
    Within (n + 1) (magFn g x y) := by
  obtain ⟨hnonneg, -, hle⟩ := magFn_within_one g x y
  have hlt : (magReference x y : Int) + 1 < 2 ^ (n + 1) := by exact_mod_cast magReference_add_one_lt hn hx hy
  constructor <;> omega

/-! ### Pairing (41_calculators.md R144; 42_kernels.md R173) -/

/-- Settles O36: for each kernel the values it saturates have B bits. -/
theorem pairedKernelsNeverSaturate : Obligations.PairedKernelsNeverSaturate := by
  intro B eb ec hb hc x y g hB hhb hhc hxr hxi hyr hyi
  have hpos : 0 < B := by omega
  have hsucc : B - 2 + 1 = B - 1 := by omega
  have wxr := (headroomAtLeast_iff B hb hpos hhb _).1 hxr
  have wxi := (headroomAtLeast_iff B hb hpos hhb _).1 hxi
  have wyr := (headroomAtLeast_iff B hc hpos hhc _).1 hyr
  have wyi := (headroomAtLeast_iff B hc hpos hhc _).1 hyi
  refine ⟨fun e bs cs h => ?_, fun e sh h => ?_, fun e sh h => ?_, fun e sh h => ?_, fun e sh h => ?_⟩
  · obtain ⟨hbr, hcr⟩ := calcAdd_within (S := 0) (by omega) hhb hhc h hxr hyr
    obtain ⟨hbi, hci⟩ := calcAdd_within (S := 0) (by omega) hhb hhc h hxi hyi
    rw [Nat.add_zero] at hbr hcr hbi hci
    rw [addElem, subElem, sat_of_within (hsucc ▸ within_add hbr hcr), sat_of_within (hsucc ▸ within_add hbi hci),
      sat_of_within (hsucc ▸ within_sub hbr hcr), sat_of_within (hsucc ▸ within_sub hbi hci)]
    exact ⟨rfl, rfl⟩
  · rw [mulElem, scaleElem, sat_of_within (calcMul_within hpos hhb hhc h (within_mul wxr wyr)),
      sat_of_within (calcMul_within hpos hhb hhc h (within_mul wxi wyr))]
    exact ⟨rfl, rfl⟩
  · have hrr := within_mul wxr wyr
    have hii := within_mul wxi wyi
    have hri := within_mul wxr wyi
    have hir := within_mul wxi wyr
    have hsat {v : Int} hv : sat B (shr v sh) = shr v sh := sat_of_within (calcCmul_within hpos hhb hhc h hv)
    rw [cmulElem, cmulcElem, hsat (within_sub hrr hii), hsat (within_add hri hir), hsat (within_add hrr hii),
      hsat (within_sub hir hri)]
    exact ⟨rfl, rfl⟩
  · have hmag := magFn_within g (by omega) (calcMag_within (by omega) hhb h wxr) (calcMag_within (by omega) hhb h wxi)
    rw [magElem, sat_of_within (hsucc ▸ hmag)]
  · have hsum := within_add (within_mul wxr wxr) (within_mul wxi wxi)
    rw [sqmagElem, sat_of_within (calcSqmag_within hpos hhb h hsum)]

end Sys2Proof.Machine
end

section
/-! The kernels that write a vector (spec/42_kernels.md R160-R170): with operands that pass their checks each runs its loop to the end, and what
tells the kernels apart is their element function. -/

namespace Sys2Proof.Machine

open Sys2Proof.Claims

/-! ### A kernel whose checks pass (42_kernels.md R160, R161) -/

theorem exists_kernel_eq_next {s : State} {out : Vec} {ins : List Vec} (hok : OperandsOk s (out :: ins)) (d : Reg)
    (f : Memory → Nat → Elem) : ∃ t, kernel s d out ins f = .next t := by
  simp only [kernel, operandTrap_of_operandsOk hok, orTrap_none]
  exact ⟨_, rfl⟩

/-- A kernel whose checks pass is a run of its loop: memory after element i is that of the loop cut off there (20_memory.md R74). -/
theorem kernelRan_of_eq_next {s t : State} {d : Reg} {out : Vec} {ins : List Vec} {f : Memory → Nat → Elem}
    (hok : OperandsOk s (out :: ins)) (h : kernel s d out ins f = .next t) : KernelRan s t d out f := by
  rcases kernel_eq_next h with ⟨x, hx, -⟩ | ⟨-, rfl⟩
  · rw [operandTrap_of_operandsOk hok] at hx
    cases hx
  · refine ⟨⟨fun i => kernelLoop out f i s.mem, rfl, fun i _ => kernelLoop_succ out f i s.mem, ?_⟩, fun a ha => ?_, fun n => ?_,
      advance_frame (setReg_frame _ d _)⟩
    · rw [advance_mem, setReg_mem, setMem_mem]
    · rw [advance_mem, setReg_mem, setMem_mem]
      exact read_kernelLoop_outside out f (u32 s.vl) (u32 s.vl) s.mem a le_rfl ha
    · rw [advance_reg, reg_setReg, setMem_reg, advance_mem, setReg_mem, setMem_mem]

/-- A command that is a kernel, with operands that meet 20_memory.md R65 and R67, runs to its end. -/
theorem exists_kernelRan {i : Instr} {s : State} {d : Reg} {out : Vec} {ins : List Vec} {f : Memory → Nat → Elem}
    (hexec : exec i s = kernel s d out ins f) (hok : OperandsOk s (out :: ins)) :
    ∃ t, exec i s = .next t ∧ KernelRan s t d out f := by
  obtain ⟨t, ht⟩ := exists_kernel_eq_next hok d f
  exact ⟨t, hexec.trans ht, kernelRan_of_eq_next hok ht⟩

/-- The rows of one mnemonic run the one command of their element type. -/
theorem exec_of_mem_rows {rows : List (Instr × ElemTy)} {i : Instr} {ty : ElemTy} {s : State}
    (command : ElemTy → Host.Outcome State Fault Refusal) (hi : (i, ty) ∈ rows)
    (hrows : rows.map (fun r => exec r.1 s) = rows.map (fun r => command r.2)) : exec i s = command ty :=
  List.map_inj_left.1 hrows (i, ty) hi

/-! ### The obligations

Each statement writes out the model's element function of its kernel (`vshlElems`, `vaddElems`, …), so `exists_kernelRan` is what it says. -/

/-- Settles O38: the four rows are `vshl`. -/
theorem vshlShiftsEveryPart : Obligations.VshlShiftsEveryPart := by
  intro d a b sh s i ty hi hok
  have hexec : exec i s = vshl ty d a b sh s := exec_of_mem_rows (vshl · d a b sh s) hi rfl
  exact exists_kernelRan hexec hok

/-- Settles O39: the rows are `vadd` and `vsub`, whose element functions differ in the sign of the second operand. -/
theorem sumKernelsAddAndSubtract : Obligations.SumKernelsAddAndSubtract := by
  intro d a b c sh u s i j ty hi hj hok
  have hadd : exec i s = vadd ty d a b c sh u s := exec_of_mem_rows (vadd · d a b c sh u s) hi rfl
  have hsub : exec j s = vsub ty d a b c sh u s := exec_of_mem_rows (vsub · d a b c sh u s) hj rfl
  exact ⟨exists_kernelRan hadd hok, exists_kernelRan hsub hok⟩

/-- Settles O40: the two rows are `vmul`. -/
theorem vmulMultipliesThenShifts : Obligations.VmulMultipliesThenShifts := by
  intro d a b c sh s i ty hi hok
  have hexec : exec i s = vmul ty d a b c sh s := exec_of_mem_rows (vmul · d a b c sh s) hi rfl
  exact exists_kernelRan hexec hok

/-- Settles O41: the rows are `vcmul` and, with the conjugate of the second operand, `vcmulc`. -/
theorem complexProductsAreExact : Obligations.ComplexProductsAreExact := by
  intro d a b c sh s i j ty hi hj hok
  have hmul : exec i s = vcmul ty d a b c sh s := exec_of_mem_rows (vcmul · d a b c sh s) hi rfl
  have hmulc : exec j s = vcmulc ty d a b c sh s := exec_of_mem_rows (vcmulc · d a b c sh s) hj rfl
  exact ⟨exists_kernelRan hmul hok, exists_kernelRan hmulc hok⟩

/-- Settles O42: the four rows are `vscale`, whose scalar is the sign-extended low B bits of x[c]. -/
theorem vscaleMultipliesByTheScalar : Obligations.VscaleMultipliesByTheScalar := by
  intro d a b c sh s i ty hi hok
  have hexec : exec i s = vscale ty d a b c sh s := exec_of_mem_rows (vscale · d a b c sh s) hi rfl
  rw [← sext_eq_toInt_setWidth]
  exact exists_kernelRan hexec hok

/-- Settles O43: the rows are `vmag` and `vsqmag`, which check and write an output of the real type. -/
theorem magnitudeKernelsWriteRealVectors : Obligations.MagnitudeKernelsWriteRealVectors := by
  intro d a b sh s i j ty hi hj hok
  have hmag : exec i s = vmag ty d a b sh s := exec_of_mem_rows (vmag · d a b sh s) hi rfl
  have hsqmag : exec j s = vsqmag ty d a b sh s := exec_of_mem_rows (vsqmag · d a b sh s) hj rfl
  exact ⟨exists_kernelRan hmag hok, exists_kernelRan hsqmag hok⟩

end Sys2Proof.Machine
end

section
/-! The FFT commands (spec/43_fft.md R195, R197-R203): their checks in order, the exponent, bit reversal, and that a transform is L scaled passes
over its buffer. -/

namespace Sys2Proof.Machine

open Sys2Proof.Claims

/-! ### The checks (43_fft.md R195, R203) -/

theorem log2_two_pow (L : Nat) : log2 (2 ^ L) = L := Nat.log2_two_pow

theorem isPow2_iff (N : Nat) : isPow2 N = true ↔ ∃ L, N = 2 ^ L := by
  rw [isPow2, beq_iff_eq]
  refine ⟨fun h => ⟨_, h⟩, ?_⟩
  rintro ⟨L, rfl⟩
  rw [Nat.log2_two_pow]

theorem fftLengthOk_iff (c : Config) (N : Nat) : fftLengthOk c N = true ↔ ∃ L, N = 2 ^ L ∧ 2 ≤ L ∧ L ≤ c.maxFftLog2 := by
  simp only [fftLengthOk, Bool.and_eq_true, decide_eq_true_eq, isPow2_iff]
  constructor
  · rintro ⟨⟨⟨L, rfl⟩, hmin⟩, hmax⟩
    exact ⟨L, rfl, (Nat.pow_le_pow_iff_right (n := 2) one_lt_two).1 hmin, (Nat.pow_le_pow_iff_right one_lt_two).1 hmax⟩
  · rintro ⟨L, rfl, hmin, hmax⟩
    exact ⟨⟨⟨L, rfl⟩, Nat.pow_le_pow_right two_pos hmin⟩, Nat.pow_le_pow_right two_pos hmax⟩

/-- A length that is no power of two, or is too short or too long for the build, is BAD_LENGTH, whatever the buffer. -/
theorem fftTrap_of_badLength {s : State} (a : Reg) (h : ∀ L, u32 s.vl = 2 ^ L → L < 2 ∨ s.cfg.maxFftLog2 < L) :
    fftTrap s a = some ⟨.badLength, s.vl⟩ := by
  refine if_neg fun hok => ?_
  obtain ⟨L, hN, hmin, hmax⟩ := (fftLengthOk_iff ..).1 hok
  have := h L hN
  omega

/-- With a legal length the checks are those of the buffer's one array. -/
theorem fftTrap_of_length {s : State} {L : Nat} (a : Reg) (hN : u32 s.vl = 2 ^ L) (hmin : 2 ≤ L) (hmax : L ≤ s.cfg.maxFftLog2) :
    fftTrap s a = operandTrap s.cfg (2 ^ L) [⟨u32 (s.reg a), 8, 4⟩] := by
  rw [← hN]
  exact if_pos ((fftLengthOk_iff ..).2 ⟨L, hN, hmin, hmax⟩)

theorem fftTrap_of_bufferOk {s : State} {a : Reg} {L : Nat} (h : FftBufferOk s a L) : fftTrap s a = none := by
  obtain ⟨hN, hmin, hmax, halign, hrange⟩ := h
  rw [fftTrap_of_length a hN hmin hmax, operandTrap_eq_none]
  exact ⟨by simpa using halign, by simpa using (rangeValid_iff ..).2 hrange⟩

theorem fftExpTrap_of_ok {s : State} {b : Reg} {L : Nat} (hN : u32 s.vl = 2 ^ L) (h : FftExponentOk s b L) : fftExpTrap s b = none := by
  obtain ⟨hlo, hhi⟩ := h
  refine if_neg ?_
  rw [hN, log2_two_pow]
  omega

theorem fftExpTrap_of_not_ok {s : State} {b : Reg} {L : Nat} (hN : u32 s.vl = 2 ^ L) (h : ¬FftExponentOk s b L) :
    fftExpTrap s b = some ⟨.expOverflow, s.reg b⟩ := by
  refine if_pos ?_
  rw [hN, log2_two_pow]
  unfold FftExponentOk at h
  omega

/-- Every FFT command is the checks of its length and buffer, then for a transform that of the exponent, and then some effect. -/
theorem exec_fft_eq_orTrap {i : Instr} {d a b : Reg} (s : State) (hi : i ∈ [Instr.vbitrevC32 a, .fftfC32 d a b, .fftiC32 d a b]) :
    ∃ x e, exec i s = orTrap ((fftTrap s a).or x) s e ∧ (i ≠ .vbitrevC32 a → x = fftExpTrap s b) := by
  simp only [List.mem_cons, List.not_mem_nil, or_false] at hi
  rcases hi with rfl | rfl | rfl
  · exact ⟨none, _, by rw [Option.or_none]; rfl, fun h => absurd rfl h⟩
  · exact ⟨_, _, rfl, fun _ => rfl⟩
  · exact ⟨_, _, rfl, fun _ => rfl⟩

theorem exec_fft_of_fftTrap {i : Instr} {d a b : Reg} {s : State} {c : Cause} {info : Word}
    (hi : i ∈ [Instr.vbitrevC32 a, .fftfC32 d a b, .fftiC32 d a b]) (hx : fftTrap s a = some ⟨c, info⟩) :
    exec i s = .next (faulted s c info) := by
  obtain ⟨x, e, he, -⟩ := exec_fft_eq_orTrap s hi
  rw [he, hx, Option.some_or, orTrap_some, raise_eq_faulted]

theorem exec_fft_of_fftExpTrap {i : Instr} {d a b : Reg} {s : State} {c : Cause} {info : Word}
    (hi : i ∈ [Instr.vbitrevC32 a, .fftfC32 d a b, .fftiC32 d a b]) (hne : i ≠ .vbitrevC32 a) (hbuf : fftTrap s a = none)
    (hx : fftExpTrap s b = some ⟨c, info⟩) : exec i s = .next (faulted s c info) := by
  obtain ⟨x, e, he, hexp⟩ := exec_fft_eq_orTrap s hi
  rw [he, hbuf, hexp hne, hx, Option.none_or, orTrap_some, raise_eq_faulted]

/-- Settles O46: one lemma for each of the four checks, the earlier ones passed. -/
theorem fftChecksFaultInOrder : Obligations.FftChecksFaultInOrder := by
  intro d a b s i hi
  refine ⟨fun hlen => exec_fft_of_fftTrap hi (fftTrap_of_badLength a hlen), fun L hN hmin hmax => ⟨fun hmis => ?_, fun halign hinv => ?_,
    fun hbuf hexp hne => exec_fft_of_fftExpTrap hi hne (fftTrap_of_bufferOk hbuf) (fftExpTrap_of_not_ok hN hexp)⟩⟩
  · have htrap := operandTrap_of_misaligned s.cfg (2 ^ L) (pre := []) (post := []) (r := ⟨u32 (s.reg a), 8, 4⟩) (by simp) hmis
    exact exec_fft_of_fftTrap hi (by simpa [fftTrap_of_length a hN hmin hmax, u32] using htrap)
  · have htrap := operandTrap_of_invalid (pre := []) (post := []) (r := ⟨u32 (s.reg a), 8, 4⟩) (by simpa using halign) (by simp) hinv
    exact exec_fft_of_fftTrap hi (by simpa [fftTrap_of_length a hN hmin hmax, u32] using htrap)

/-! ### The exponent (43_fft.md R199, R202, R203) -/

/-- The scaling before a pass shifts by at most its headroom target. -/
theorem scaleShift_le (k : Nat) (xs : List Elem) : scaleShift k xs ≤ if k ≤ 1 then 1 else 2 := Nat.sub_le ..

/-- Each pass raises the exponent by at most two, the passes 0 and 1 by at most one. -/
theorem fftPasses_exponent (M : Nat) (conj : Bool) (rd : Nat → List Elem → List Elem) (k : Nat) (x : List Elem × Int) :
    x.2 ≤ (fftPasses M conj rd k x).2 ∧ (fftPasses M conj rd k x).2 + min 2 k ≤ x.2 + 2 * k := by
  induction k with
  | zero => simp [fftPasses]
  | succ k ih =>
    have hsh := scaleShift_le k (rd (3 * k + 1) (fftPasses M conj rd k x).1)
    simp only [fftPasses]
    split at hsh <;> omega

/-- Settles O50: the bound on the passes, with the range that the check of the exponent leaves (43_fft.md R203). -/
theorem fftExponentStaysInRange : Obligations.FftExponentStaysInRange := by
  intro M L conj rd xs e hL
  obtain ⟨hlo, hhi⟩ := fftPasses_exponent M conj rd L (bitReverse L xs, e)
  change e ≤ (fft M conj rd L (xs, e)).2 at hlo
  change (fft M conj rd L (xs, e)).2 + min 2 L ≤ e + 2 * L at hhi
  refine ⟨hlo, by omega, fun hmin hmax => ?_⟩
  unfold Fits
  omega

end Sys2Proof.Machine
end

section
/-! VBITREV, FFTF and FFTI over their buffer (spec/43_fft.md R197-R201): a list of elements written to the buffer reads back, and pass k of the
model's list is a scaled pass, butterfly by butterfly. -/

namespace Sys2Proof.Machine

open Sys2Proof.Claims

/-! ### Elements of a list -/

theorem elemAt_map_range {N i : Nat} (f : Nat → Elem) (hi : i < N) : elemAt ((List.range N).map f) i = f i := by
  simp [elemAt, hi]

theorem elemAt_of_lt {xs : List Elem} {i : Nat} (hi : i < xs.length) : elemAt xs i = xs[i] := by
  simp [elemAt, hi]

theorem elemAt_vecIn {s : State} {m : Memory} {v : Vec} {N i : Nat} (hi : i < N) : elemAt (s.vecIn m v N) i = s.elemIn m 0 v i :=
  elemAt_map_range _ hi

theorem elemAt_bitReverse {xs : List Elem} {L i : Nat} (hi : i < xs.length) : elemAt (bitReverse L xs) i = elemAt xs (rev L i) :=
  elemAt_map_range _ hi

theorem elemAt_scaleBy {xs : List Elem} {sh i : Nat} (hi : i < xs.length) :
    elemAt (scaleBy sh xs) i = ⟨shr (elemAt xs i).re sh, shr (elemAt xs i).im sh⟩ := by
  simp [elemAt, scaleBy, hi]

theorem elemAt_pass {M k i : Nat} {conj : Bool} {xs : List Elem} (hi : i < xs.length) :
    elemAt (pass M conj k xs) i = butterfly M conj k xs i := elemAt_map_range _ hi

/-- A sweep over N elements reads element i in read number n·N + i (20_memory.md R61). -/
theorem vecAgain_eq_map (s : State) (v : Vec) (n : Nat) {xs : List Elem} {N : Nat} (hN : xs.length = N) :
    s.vecAgain v n xs = (List.range N).map fun i => s.elemAgain v (n * N + i) i (elemAt xs i) := by
  subst hN; rfl

theorem elemAt_vecAgain {s : State} {v : Vec} {n N i : Nat} {xs : List Elem} (hN : xs.length = N) (hi : i < N) :
    elemAt (s.vecAgain v n xs) i = s.elemAgain v (n * N + i) i (elemAt xs i) := by
  rw [vecAgain_eq_map s v n hN, elemAt_map_range _ hi]

/-! ### Values that an element can store -/

/-- What is read of a part is within its bounds (20_memory.md R64). -/
theorem partRead_within (m : Memory) (v : Vec) (i : Nat) (p : Part) :
    minB (bits v.ty) ≤ partRead m v i p ∧ partRead m v i p ≤ maxB (bits v.ty) :=
  ⟨BitVec.le_toInt _, Int.le_sub_one_of_lt BitVec.toInt_lt⟩

theorem elemIn_inBounds (s : State) (m : Memory) (slot : Nat) {v : Vec} (i : Nat) (hc : isComplex v.ty = true) :
    InBounds (bits v.ty) (s.elemIn m slot v i) := by
  obtain ⟨hre, hre'⟩ := partRead_within (s.view m (readNumber slot i .re)) v i .re
  obtain ⟨him, him'⟩ := partRead_within (s.view m (readNumber slot i .im)) v i .im
  refine ⟨hre, hre', ?_⟩
  simp only [State.elemIn, if_pos hc]
  exact ⟨him, him'⟩

theorem sat_inBounds (B : Nat) (x y : Int) : InBounds B ⟨sat B x, sat B y⟩ :=
  ⟨minB_le_sat B x, sat_le_maxB B x, minB_le_sat B y, sat_le_maxB B y⟩

theorem butterfly_inBounds (M : Nat) (conj : Bool) (k : Nat) (xs : List Elem) (i : Nat) : InBounds 32 (butterfly M conj k xs i) := by
  simp only [butterfly]
  split <;> exact sat_inBounds ..

theorem pass_inBounds (M : Nat) (conj : Bool) (k : Nat) (xs : List Elem) : ∀ x ∈ pass M conj k xs, InBounds 32 x := by
  intro x hx
  obtain ⟨i, -, rfl⟩ := List.mem_map.1 hx
  exact butterfly_inBounds M conj k xs i

/-- After a pass the buffer holds what its butterflies have saturated. -/
theorem fftPasses_inBounds (M : Nat) (conj : Bool) (rd : Nat → List Elem → List Elem) {L : Nat} (hL : L ≠ 0) (x : List Elem × Int) :
    ∀ e ∈ (fftPasses M conj rd L x).1, InBounds 32 e := by
  cases L with
  | zero => exact absurd rfl hL
  | succ k => exact pass_inBounds M conj k _

/-! ### A vector written reads back (20_memory.md R64) -/

theorem elemRead_elemWrite_self (m : Memory) {v : Vec} {N i : Nat} {e : Elem} (hapart : PartsApart v N) (hi : i < N)
    (hc : isComplex v.ty = true) (he : InBounds (bits v.ty) e) : elemRead (elemWrite m v i e) v i = e := by
  have hre : (elemRead (elemWrite m v i e) v i).re = e.re := partRead_elemWrite m hapart hi he (.inl rfl)
  have him : (elemRead (elemWrite m v i e) v i).im = e.im := by
    rw [← show partRead (elemWrite m v i e) v i .im = e.im from partRead_elemWrite m hapart hi he (.inr hc)]
    exact if_pos hc
  exact congrArg₂ Elem.mk hre him

/-- An element before those that are written stays. -/
theorem elemRead_vecWrite_before {v : Vec} {N i j : Nat} (xs : List Elem) (m : Memory) (hapart : PartsApart v N) (hj : j < i)
    (hi : i + xs.length ≤ N) : elemRead (vecWrite m v i xs) v j = elemRead m v j := by
  induction xs generalizing m i with
  | nil => rfl
  | cons e xs ih =>
    rw [List.length_cons] at hi
    rw [vecWrite, ih _ (by omega) (by omega), elemRead_elemWrite_of_ne m e hapart (by omega) (by omega) (by omega)]

theorem elemRead_vecWrite {v : Vec} {N i j : Nat} (xs : List Elem) (m : Memory) (hapart : PartsApart v N) (hc : isComplex v.ty = true)
    (hxs : ∀ e ∈ xs, InBounds (bits v.ty) e) (hi : i + xs.length ≤ N) (hj : j < xs.length) :
    elemRead (vecWrite m v i xs) v (i + j) = elemAt xs j := by
  induction xs generalizing m i j with
  | nil => cases hj
  | cons e xs ih =>
    rw [List.forall_mem_cons] at hxs
    rw [List.length_cons] at hi hj
    cases j with
    | zero =>
      rw [vecWrite, Nat.add_zero, elemRead_vecWrite_before xs _ hapart (by omega) (by omega)]
      exact elemRead_elemWrite_self m hapart (by omega) hc hxs.1
    | succ j =>
      have hnext := ih (elemWrite m v i e) hxs.2 (i := i + 1) (j := j) (by omega) (by omega)
      rwa [show i + 1 + j = i + (j + 1) by omega] at hnext

/-! ### The buffer (43_fft.md R195)

Of a c32 operand only the base counts, so the operand that field a names is the buffer at x[a]. -/

theorem vecIn_fftVec (s : State) (a : Reg) (N : Nat) : s.vecIn s.mem (fftVec s a) N = s.vecIn s.mem (buffer (u32 (s.reg a))) N := rfl

theorem vecAgain_fftVec (s : State) (a : Reg) : s.vecAgain (fftVec s a) = s.vecAgain (buffer (u32 (s.reg a))) := rfl

theorem vecWrite_fftVec (s : State) (a : Reg) (m : Memory) (i : Nat) (xs : List Elem) :
    vecWrite m (fftVec s a) i xs = vecWrite m (buffer (u32 (s.reg a))) i xs := by
  induction xs generalizing m i with
  | nil => rfl
  | cons e xs ih =>
    have helem : elemWrite m (fftVec s a) i e = elemWrite m (buffer (u32 (s.reg a))) i e := rfl
    rw [vecWrite, vecWrite, ih, helem]

theorem partsApart_buffer (base N : Nat) : PartsApart (buffer base) N := fun h => nomatch h

theorem inSpans_buffer_eq_false {base N x : Nat} (h : x < base ∨ base + 8 * N ≤ x) : inSpans (vecSpans (buffer base) N) x = false := by
  simp only [inSpans, vecSpans, Vec.arrays, buffer, List.map_cons, List.map_nil, List.any_cons, List.any_nil, Bool.or_false,
    decide_eq_false_iff_not]
  omega

/-- N elements written over the buffer of N elements: they read back, and no other byte changes. -/
theorem elemRead_vecWrite_buffer {base i : Nat} {xs : List Elem} (m : Memory) (hxs : ∀ e ∈ xs, InBounds 32 e) (hi : i < xs.length) :
    elemRead (vecWrite m (buffer base) 0 xs) (buffer base) i = elemAt xs i := by
  have h := elemRead_vecWrite (i := 0) xs m (partsApart_buffer base xs.length) rfl hxs (by omega) hi
  rwa [Nat.zero_add] at h

theorem read_vecWrite_buffer {base x : Nat} {xs : List Elem} (m : Memory) (h : x < base ∨ base + 8 * xs.length ≤ x) :
    (vecWrite m (buffer base) 0 xs).read x = m.read x :=
  read_vecWrite_outside _ xs.length xs m 0 x (by omega) (inSpans_buffer_eq_false h)

/-! ### VBITREV (43_fft.md R197) -/

theorem vecIn_inBounds (s : State) (m : Memory) {v : Vec} (N : Nat) (hc : isComplex v.ty = true) :
    ∀ e ∈ s.vecIn m v N, InBounds (bits v.ty) e := by
  intro e he
  obtain ⟨k, -, rfl⟩ := mem_vecIn.1 he
  exact elemIn_inBounds s m 0 k hc

theorem bitReverse_inBounds {B L : Nat} {xs : List Elem} (hlen : xs.length = 2 ^ L) (hxs : ∀ e ∈ xs, InBounds B e) :
    ∀ e ∈ bitReverse L xs, InBounds B e := by
  intro e he
  obtain ⟨i, -, rfl⟩ := List.mem_map.1 he
  have hrev : rev L i < xs.length := hlen ▸ rev_lt L i
  rw [elemAt_of_lt hrev]
  exact hxs _ (List.getElem_mem hrev)

theorem elemAt_bitReverse_vecIn {s : State} {m : Memory} {v : Vec} {L i : Nat} (hi : i < 2 ^ L) :
    elemAt (bitReverse L (s.vecIn m v (2 ^ L))) i = s.elemIn m 0 v (rev L i) :=
  (elemAt_bitReverse (by rwa [length_vecIn])).trans (elemAt_vecIn (rev_lt L i))

/-- VBITREV with its checks passed writes the bit-reversed list over its buffer. -/
theorem execVbitrevC32_of_checks {s : State} {a : Reg} {L : Nat} (hbuf : FftBufferOk s a L) :
    execVbitrevC32 a s = .next (s.setMem (vecWrite s.mem (buffer (u32 (s.reg a))) 0
      (bitReverse L (s.vecIn s.mem (buffer (u32 (s.reg a))) (2 ^ L))))).advance := by
  have ⟨hN, _⟩ := hbuf
  rw [execVbitrevC32, fftTrap_of_bufferOk hbuf, orTrap_none, hN, log2_two_pow, vecWrite_fftVec, vecIn_fftVec]

/-- Settles O47: the list written reads back, and element i of it is what was read at rev_L(i). -/
theorem vbitrevPermutesTheBuffer : Obligations.VbitrevPermutesTheBuffer := by
  intro a s L hbuf
  have hlen : (bitReverse L (s.vecIn s.mem (buffer (u32 (s.reg a))) (2 ^ L))).length = 2 ^ L := by simp
  have hin := bitReverse_inBounds (length_vecIn ..) (vecIn_inBounds s s.mem (v := buffer (u32 (s.reg a))) (2 ^ L) rfl)
  refine ⟨_, execVbitrevC32_of_checks hbuf, rfl, fun i hi => ?_, fun x hx => ?_⟩
  · exact (elemRead_vecWrite_buffer s.mem hin (by rwa [hlen])).trans (elemAt_bitReverse_vecIn hi)
  · exact read_vecWrite_buffer s.mem (by rwa [hlen])

/-! ### One scaled pass (43_fft.md R198, R199) -/

/-- The twiddle of R198: of the inverse, the conjugate. -/
theorem twiddle_im (M : Nat) (conj : Bool) (k j : Nat) :
    (twiddle M conj k j).im = (if conj then -1 else 1) * twiddleIm M (j * (2 ^ M >>> (k + 1))) := by
  cases conj <;> simp [twiddle]

theorem twiddleProduct_re (w y : Elem) : (twiddleProduct w y).re = ⌊((w.re * y.re - w.im * y.im : Int) : ℚ) / 2 ^ 30⌋ :=
  shr_eq_floor _ 30 (by norm_num)

theorem twiddleProduct_im (w y : Elem) : (twiddleProduct w y).im = ⌊((w.re * y.im + w.im * y.re : Int) : ℚ) / 2 ^ 30⌋ :=
  shr_eq_floor _ 30 (by norm_num)

/-- The first output of butterfly j of the group at g. -/
theorem butterfly_first {M k g j : Nat} {conj : Bool} {xs : List Elem} (hg : g % 2 ^ (k + 1) = 0) (hj : j < 2 ^ k) :
    butterfly M conj k xs (g + j) =
      let u := elemAt xs (g + j)
      let t := twiddleProduct (twiddle M conj k j) (elemAt xs (g + j + 2 ^ k))
      ⟨sat 32 (u.re + t.re), sat 32 (u.im + t.im)⟩ := by
  have hr : (g + j) % (2 * 2 ^ k) = j := by
    rw [pow_succ'] at hg
    rw [Nat.add_mod, hg, Nat.zero_add, Nat.mod_mod, Nat.mod_eq_of_lt (by omega)]
  simp only [butterfly, hr, if_pos hj]

/-- The second output of butterfly j of the group at g. -/
theorem butterfly_second {M k g j : Nat} {conj : Bool} {xs : List Elem} (hg : g % 2 ^ (k + 1) = 0) (hj : j < 2 ^ k) :
    butterfly M conj k xs (g + j + 2 ^ k) =
      let u := elemAt xs (g + j)
      let t := twiddleProduct (twiddle M conj k j) (elemAt xs (g + j + 2 ^ k))
      ⟨sat 32 (u.re - t.re), sat 32 (u.im - t.im)⟩ := by
  have hr : (g + j + 2 ^ k) % (2 * 2 ^ k) = j + 2 ^ k := by
    rw [pow_succ'] at hg
    rw [Nat.add_assoc, Nat.add_mod, hg, Nat.zero_add, Nat.mod_mod, Nat.mod_eq_of_lt (by omega)]
  simp only [butterfly, hr, if_neg (show ¬j + 2 ^ k < 2 ^ k by omega), Nat.add_sub_cancel]

/-- A group that starts inside the buffer ends inside it. -/
theorem group_end_le {L k g : Nat} (hk : k < L) (hg : g % 2 ^ (k + 1) = 0) (hlt : g < 2 ^ L) : g + 2 ^ (k + 1) ≤ 2 ^ L := by
  obtain ⟨q, rfl⟩ := Nat.dvd_of_mod_eq_zero hg
  obtain ⟨n, rfl⟩ := Nat.exists_eq_add_of_le (show k + 1 ≤ L from hk)
  have hq : q < 2 ^ n := Nat.lt_of_mul_lt_mul_left (a := 2 ^ (k + 1)) (by rwa [pow_add _ (k + 1)] at hlt)
  calc 2 ^ (k + 1) * q + 2 ^ (k + 1) = 2 ^ (k + 1) * (q + 1) := by ring
    _ ≤ 2 ^ (k + 1) * 2 ^ n := Nat.mul_le_mul_left _ hq
    _ = 2 ^ (k + 1 + n) := (pow_add ..).symm

/-- The model's pass k, with its scaling, is a scaled pass over the buffer. -/
theorem scaledPass_of_list (s : State) (v : Vec) (conj : Bool) {L k : Nat} {xs : List Elem} (e : Int) (hk : k < L)
    (hlen : xs.length = 2 ^ L) {sh : Nat} {z : List Elem} (hsh : sh = scaleShift k (s.vecAgain v (3 * k + 1) xs))
    (hz : z = scaleBy sh (s.vecAgain v (3 * k + 2) xs)) :
    ScaledPass s v conj (2 ^ L) k (elemAt xs) (elemAt (pass s.cfg.maxFftLog2 conj k (s.vecAgain v (3 * k + 3) z))) e (e + sh) := by
  have hzlen : z.length = 2 ^ L := by rw [hz, length_scaleBy, length_vecAgain, hlen]
  refine ⟨sh, elemAt z, ?_, rfl, fun i hi => ⟨_, rfl, ?_⟩, fun g j hg hgN hj => ?_⟩
  · rw [← vecAgain_eq_map s v (3 * k + 1) hlen, hsh, scaleShift]
    split <;> omega
  · rw [hz, elemAt_scaleBy (by rwa [length_vecAgain, hlen]), elemAt_vecAgain hlen hi]
  · have hend := group_end_le hk hg hgN
    rw [pow_succ'] at hend
    have hwlen : (s.vecAgain v (3 * k + 3) z).length = 2 ^ L := by rw [length_vecAgain, hzlen]
    refine ⟨twiddle s.cfg.maxFftLog2 conj k j, _, _, _, rfl, twiddle_im .., rfl, rfl, twiddleProduct_re .., twiddleProduct_im .., ?_, ?_⟩
    · rw [elemAt_pass (by omega), butterfly_first hg hj, elemAt_vecAgain hzlen (by omega), elemAt_vecAgain hzlen (by omega)]
    · rw [elemAt_pass (by omega), butterfly_second hg hj, elemAt_vecAgain hzlen (by omega), elemAt_vecAgain hzlen (by omega)]

/-! ### FFTF and FFTI (43_fft.md R200, R201) -/

/-- The elements and the exponent of a transform over the buffer at x[a] after k of its L passes. -/
def afterPasses (s : State) (conj : Bool) (a b : Reg) (L k : Nat) : List Elem × Int :=
  fftPasses s.cfg.maxFftLog2 conj (s.vecAgain (buffer (u32 (s.reg a)))) k
    (bitReverse L (s.vecIn s.mem (buffer (u32 (s.reg a))) (2 ^ L)), s32 (s.reg b))

theorem length_afterPasses (s : State) (conj : Bool) (a b : Reg) (L k : Nat) : (afterPasses s conj a b L k).1.length = 2 ^ L := by
  simp [afterPasses, length_fftPasses]

/-- A transform whose checks pass writes the elements and the exponent that its L passes leave. -/
theorem fftCommand_of_checks {s : State} {a b : Reg} {L : Nat} (hbuf : FftBufferOk s a L) (hexp : FftExponentOk s b L) (conj : Bool)
    (sub : Int) (d : Reg) : fftCommand conj sub d a b s =
      .next ((s.setMem (vecWrite s.mem (buffer (u32 (s.reg a))) 0 (afterPasses s conj a b L L).1)).setGroup d
        [wrap32 ((afterPasses s conj a b L L).2 - sub), BitVec.ofNat 32 (elemsHr .c32
          (s.vecAgain (buffer (u32 (s.reg a))) (3 * L + 1) (afterPasses s conj a b L L).1))]).advance := by
  have ⟨hN, _⟩ := hbuf
  rw [fftCommand, fftTrap_of_bufferOk hbuf, fftExpTrap_of_ok hN hexp, Option.or_none, orTrap_none, hN, log2_two_pow,
    vecWrite_fftVec, vecIn_fftVec, vecAgain_fftVec]
  rfl

/-- A transform whose checks pass runs to its end, buffer and exponent going through `afterPasses`. -/
theorem exists_fftRan {s : State} {d a b : Reg} {L : Nat} (hd : d.val ≤ 14) (hbuf : FftBufferOk s a L) (hexp : FftExponentOk s b L)
    (conj : Bool) (sub : Int) : ∃ t, fftCommand conj sub d a b s = .next t ∧ FftRan s t conj sub d a b L := by
  have ⟨_, hL, _⟩ := hbuf
  have hlen := length_afterPasses s conj a b L
  obtain ⟨hz, hne⟩ := group_two_distinct d hd
  refine ⟨_, fftCommand_of_checks hbuf hexp conj sub d, ⟨_, fun k => elemAt (afterPasses s conj a b L k).1,
    fun k => (afterPasses s conj a b L k).2, rfl, fun i hi => elemAt_bitReverse_vecIn hi, rfl,
    fun k hk => scaledPass_of_list s _ conj _ hk (hlen k) rfl rfl, fun i hi => ?_, fun h0 => ?_, ?_⟩,
    fun x hx => ?_, fun n hn hn1 => ?_, advance_frame (setGroup_frame _ d _)⟩
  · rw [advance_mem, setGroup_mem, setMem_mem]
    exact elemRead_vecWrite_buffer s.mem (fftPasses_inBounds _ _ _ (by omega) _) (by rwa [hlen])
  · rw [advance_reg, reg_setGroup_two, if_neg (by simp [hne]), if_pos ⟨rfl, h0⟩]
  · rw [advance_reg, reg_setGroup_two, if_pos ⟨rfl, hz⟩, vecAgain_eq_map s _ _ (hlen L)]
  · rw [advance_mem, setGroup_mem, setMem_mem]
    exact read_vecWrite_buffer s.mem (by rwa [hlen])
  · rw [advance_reg, reg_setGroup_two_other _ _ _ _ _ (by simp [hn, hn1]), setMem_reg]

/-- Settles O48: FFTF and FFTI are one command, with the conjugate and log2(N) off the exponent for the inverse. -/
theorem transformsRunScaledPasses : Obligations.TransformsRunScaledPasses := by
  intro d a b s L hd hbuf hexp
  have ⟨hN, _⟩ := hbuf
  have hlog : log2 (u32 s.vl) = L := by rw [hN, log2_two_pow]
  have hffti : exec (.fftiC32 d a b) s = fftCommand true L d a b s := by rw [← hlog]; rfl
  exact ⟨exists_fftRan hd hbuf hexp false 0, hffti ▸ exists_fftRan hd hbuf hexp true L⟩

end Sys2Proof.Machine
end

section
/-! The twiddle ROM (spec/43_fft.md R196) is the real cosine and sine, rounded to nearest: the comparison by angle doubling is exact. -/

namespace Sys2Proof.Machine

/-! ### Cosines of fractions of a right angle -/

/-- cos((π/2)·(k/2^d)). -/
noncomputable def quarterCos (d k : Nat) : ℝ := Real.cos (Real.pi / 2 * (k / 2 ^ d))

theorem quarterCos_zero (d : Nat) : quarterCos d 0 = 1 := by simp [quarterCos]

theorem quarterCos_right (d : Nat) : quarterCos d (2 ^ d) = 0 := by simp [quarterCos]

theorem quarterCos_le_one (d k : Nat) : quarterCos d k ≤ 1 := Real.cos_le_one _

theorem quarterCos_nonneg {d k : Nat} (hk : k ≤ 2 ^ d) : 0 ≤ quarterCos d k := by
  have hpi := Real.pi_pos
  have hfrac : (k : ℝ) / 2 ^ d ≤ 1 := by
    rw [div_le_one (by positivity)]
    exact_mod_cast hk
  have hfrac0 : (0 : ℝ) ≤ k / 2 ^ d := by positivity
  exact Real.cos_nonneg_of_mem_Icc ⟨by nlinarith, by nlinarith⟩

/-- The double angle. -/
theorem quarterCos_double (d k : Nat) : 2 * quarterCos (d + 1) k ^ 2 - 1 = quarterCos d k := by
  rw [quarterCos, ← Real.cos_two_mul, quarterCos, pow_succ]
  congr 1
  field_simp

/-- Reflection at the right angle negates the cosine. -/
theorem quarterCos_reflect {d k : Nat} (hk : k ≤ 2 * 2 ^ d) : quarterCos d (2 * 2 ^ d - k) = -quarterCos d k := by
  rw [quarterCos, quarterCos, ← Real.cos_pi_sub, Nat.cast_sub hk]
  congr 1
  push_cast
  field_simp

/-- The sine is the cosine of the complement. -/
theorem quarterCos_complement {d k : Nat} (hk : k ≤ 2 ^ d) : quarterCos d (2 ^ d - k) = Real.sin (Real.pi / 2 * (k / 2 ^ d)) := by
  rw [quarterCos, ← Real.cos_pi_div_two_sub, Nat.cast_sub hk]
  congr 1
  push_cast
  field_simp

theorem quarterCos_sub_right {d k : Nat} (hk : 2 ^ d ≤ k) : quarterCos d (k - 2 ^ d) = Real.sin (Real.pi / 2 * (k / 2 ^ d)) := by
  rw [quarterCos, ← Real.cos_sub_pi_div_two, Nat.cast_sub hk]
  congr 1
  push_cast
  field_simp

/-! ### The comparison is exact -/

/-- Fractions of one denominator compare as their numerators. -/
theorem compare_eq_cmp_div (a b : Int) (q : Nat) : compare a b = cmp ((a : ℝ) / 2 ^ q) (b / 2 ^ q) := by
  rw [div_eq_mul_inv, div_eq_mul_inv, cmp_mul_pos_right (by positivity), Int.cast_strictMono.cmp_map_eq, cmp_eq_compare]

/-- Values that are not negative compare as the double-angle formula's values of them. -/
theorem cmp_double {x y : ℝ} (hx : 0 ≤ x) (hy : 0 ≤ y) : cmp (2 * x ^ 2 - 1) (2 * y ^ 2 - 1) = cmp x y := by
  have hmono : StrictMonoOn (fun z : ℝ => 2 * z ^ 2 - 1) (Set.Ici 0) := by
    intro a ha b _ hab
    have ha : 0 ≤ a := ha
    have hsq : a ^ 2 < b ^ 2 := pow_lt_pow_left₀ hab ha two_ne_zero
    simp only
    linarith
  exact hmono.cmp_map_eq hx hy

theorem cosCompare_succ_of_neg {d k q : Nat} {n : Int} (hn : n < 0) : cosCompare (d + 1) k n q = .gt := if_pos hn

theorem cosCompare_succ_of_le {d k q : Nat} {n : Int} (hn : 0 ≤ n) (hk : k ≤ 2 ^ d) :
    cosCompare (d + 1) k n q = cosCompare d k (2 * n * n - 2 ^ (2 * q)) (2 * q) := by
  rw [cosCompare, if_neg (not_lt.2 hn), if_pos hk]

theorem cosCompare_succ_of_gt {d k q : Nat} {n : Int} (hn : 0 ≤ n) (hk : 2 ^ d < k) :
    cosCompare (d + 1) k n q = (cosCompare d (2 * 2 ^ d - k) (-(2 * n * n - 2 ^ (2 * q))) (2 * q)).swap := by
  rw [cosCompare, if_neg (not_lt.2 hn), if_neg (not_le.2 hk), pow_succ']

/-- `cosCompare` compares the cosine with the fraction, by induction on the halvings of the right angle. -/
theorem cosCompare_eq_cmp {d k : Nat} (hk : k ≤ 2 ^ d) (n : Int) (q : Nat) : cosCompare d k n q = cmp (quarterCos d k) (n / 2 ^ q) := by
  induction d generalizing k n q with
  | zero =>
    obtain rfl | rfl : k = 0 ∨ k = 1 := by omega
    · rw [cosCompare, if_pos rfl, compare_eq_cmp_div _ _ q, quarterCos_zero]
      simp
    · rw [cosCompare, if_neg one_ne_zero, compare_eq_cmp_div _ _ q, show quarterCos 0 1 = 0 from quarterCos_right 0]
      simp
  | succ d ih =>
    have hk' : k ≤ 2 * 2 ^ d := by rwa [pow_succ'] at hk
    have hcos := quarterCos_nonneg hk
    rcases lt_or_ge n 0 with hn | hn
    · have hfrac : (n : ℝ) / 2 ^ q < 0 := div_neg_of_neg_of_pos (by exact_mod_cast hn) (by positivity)
      rw [cosCompare_succ_of_neg hn, eq_comm, cmp_eq_gt_iff]
      exact hfrac.trans_le hcos
    · have hfrac : (0 : ℝ) ≤ n / 2 ^ q := div_nonneg (by exact_mod_cast hn) (by positivity)
      have hdouble : 2 * ((n : ℝ) / 2 ^ q) ^ 2 - 1 = (2 * n * n - 2 ^ (2 * q) : Int) / 2 ^ (2 * q) := by
        push_cast
        rw [pow_mul']
        field_simp
      rw [← cmp_double hcos hfrac, quarterCos_double, hdouble]
      rcases le_or_gt k (2 ^ d) with hle | hgt
      · rw [cosCompare_succ_of_le hn hle, ih hle]
      · rw [cosCompare_succ_of_gt hn hgt, ih (by omega), cmp_swap, quarterCos_reflect hk', Int.cast_neg, neg_div]
        exact StrictAnti.cmp_map_eq (f := fun x : ℝ => -x) (fun _ _ h => neg_lt_neg h) _ _

/-! ### Rounding to nearest -/

/-- The test of the search: r − 1/2 is below 2^30 times the cosine. -/
theorem cosCompare_half_iff {d k : Nat} (hk : k ≤ 2 ^ d) (r : Nat) :
    (cosCompare d k (2 * (r : Int) - 1) 31 == .gt) = true ↔ (r : ℝ) - 1 / 2 < 2 ^ 30 * quarterCos d k := by
  rw [beq_iff_eq, cosCompare_eq_cmp hk, cmp_eq_gt_iff, div_lt_iff₀ (by positivity)]
  push_cast
  constructor <;> intro h <;> linarith

/-- The search ends at the last r that passes its test, which is the nearest integer and at most 2^30. -/
theorem cosQ30_nearest {d k : Nat} (hk : k ≤ 2 ^ d) :
    |(cosQ30 d k : ℝ) - 2 ^ 30 * quarterCos d k| ≤ 1 / 2 ∧ 0 ≤ cosQ30 d k ∧ cosQ30 d k ≤ 2 ^ 30 := by
  have hnonneg := quarterCos_nonneg hk
  have hle_one := quarterCos_le_one d k
  have hsearch := bitSearch_spec (fun r => cosCompare d k (2 * (r : Int) - 1) 31 == .gt) 31 0
    ((cosCompare_half_iff hk 0).2 (by norm_num; linarith))
    (fun a b hab hb => (cosCompare_half_iff hk a).2 (by
      have hcast : (a : ℝ) ≤ b := by exact_mod_cast hab
      linarith [(cosCompare_half_iff hk b).1 hb]))
  rw [cosQ30]
  generalize bitSearch _ 31 0 = r at hsearch ⊢
  obtain ⟨-, -, hfound, hnext⟩ := hsearch
  have hlo : (r : ℝ) - 1 / 2 < 2 ^ 30 * quarterCos d k := (cosCompare_half_iff hk r).1 hfound
  have hmax : r ≤ 2 ^ 30 := by
    have hlt : (r : ℝ) < (2 ^ 30 + 1 : Nat) := by push_cast; linarith
    exact Nat.lt_succ_iff.1 (by exact_mod_cast hlt)
  have hhi : 2 ^ 30 * quarterCos d k ≤ (r : ℝ) + 1 / 2 := by
    have hfail := mt (cosCompare_half_iff hk (r + 1)).2 (Bool.eq_false_iff.1 (hnext (by omega)))
    push_cast at hfail
    linarith
  refine ⟨?_, Int.natCast_nonneg r, by exact_mod_cast hmax⟩
  rw [Int.cast_natCast, abs_le]
  constructor <;> linarith

/-- Where 2^30 times the cosine is an integer, it is the entry. -/
theorem cosQ30_eq_of_int {d k : Nat} {z : Int} (hk : k ≤ 2 ^ d) (hz : 2 ^ 30 * quarterCos d k = z) : cosQ30 d k = z := by
  have hnear := (cosQ30_nearest hk).1
  rw [hz] at hnear
  have hint : |cosQ30 d k - z| < 1 := by
    have : |(cosQ30 d k : ℝ) - z| < 1 := hnear.trans_lt (by norm_num)
    exact_mod_cast this
  rw [Int.abs_lt_one_iff] at hint
  omega

theorem cosQ30_zero (d : Nat) : cosQ30 d 0 = 2 ^ 30 := cosQ30_eq_of_int (Nat.zero_le _) (by rw [quarterCos_zero]; norm_num)

theorem cosQ30_right (d : Nat) : cosQ30 d (2 ^ d) = 0 := cosQ30_eq_of_int le_rfl (by rw [quarterCos_right]; norm_num)

/-! ### The ROM (43_fft.md R196) -/

/-- The entry is an integer nearest to 2^30·x, and of magnitude at most 2^30. -/
def Rounds (z : Int) (x : ℝ) : Prop := |(z : ℝ) - 2 ^ 30 * x| ≤ 1 / 2 ∧ |z| ≤ 2 ^ 30

theorem Rounds.neg {z : Int} {x : ℝ} (h : Rounds z x) : Rounds (-z) (-x) := by
  obtain ⟨hnear, habs⟩ := h
  refine ⟨?_, by rwa [abs_neg]⟩
  rw [abs_sub_comm] at hnear
  rw [Int.cast_neg, mul_neg, neg_sub_neg]
  exact hnear

theorem rounds_cosQ30 {d k : Nat} (hk : k ≤ 2 ^ d) : Rounds (cosQ30 d k) (quarterCos d k) := by
  obtain ⟨hnear, h0, hmax⟩ := cosQ30_nearest hk
  exact ⟨hnear, by rwa [abs_of_nonneg h0]⟩

/-- NMAX = 2^(d+2): the angle of entry k is k/2^d right angles. -/
theorem rounds_twiddleRe {d k : Nat} (hk : k ≤ 2 * 2 ^ d) : Rounds (twiddleRe (d + 2) k) (quarterCos d k) := by
  simp only [twiddleRe, Nat.add_sub_cancel]
  split
  · next hle => exact rounds_cosQ30 hle
  · next hgt =>
    rw [← neg_neg (quarterCos d k), ← quarterCos_reflect hk]
    exact (rounds_cosQ30 (by omega)).neg

theorem rounds_twiddleIm {d k : Nat} (hk : k ≤ 2 * 2 ^ d) :
    Rounds (twiddleIm (d + 2) k) (-Real.sin (Real.pi / 2 * (k / 2 ^ d))) := by
  simp only [twiddleIm, Nat.add_sub_cancel]
  split
  · next hle =>
    rw [← quarterCos_complement hle]
    exact (rounds_cosQ30 (by omega)).neg
  · next hgt =>
    rw [← quarterCos_sub_right (by omega)]
    exact (rounds_cosQ30 (by omega)).neg

/-- Settles O23: both parts of an entry are cosines of k/2^(m−2) right angles, up to sign and complement. -/
theorem twiddleRomIsNearest : Obligations.TwiddleRomIsNearest := by
  intro m k hm hk
  obtain ⟨d, rfl⟩ : ∃ d, m = d + 2 := ⟨m - 2, by omega⟩
  have hk' : k ≤ 2 * 2 ^ d := by rw [← pow_succ']; exact hk.le
  have hangle : 2 * Real.pi * k / 2 ^ (d + 2) = Real.pi / 2 * (k / 2 ^ d) := by rw [pow_add]; field_simp
  obtain ⟨hre, hre'⟩ := rounds_twiddleRe hk'
  obtain ⟨him, him'⟩ := rounds_twiddleIm hk'
  rw [hangle]
  exact ⟨hre, by rwa [mul_neg] at him, hre', him'⟩

end Sys2Proof.Machine
end

section
/-! No butterfly of an FFT saturates (spec/43_fft.md R202): what the scaling before a pass leaves, and what a twiddle can make of it. -/

namespace Sys2Proof.Machine

open Sys2Proof.Claims

/-! ### After the scaling (43_fft.md R199) -/

/-- The headroom target T of pass k. -/
def passTarget (k : Nat) : Nat := if k ≤ 1 then 1 else 2

theorem passTarget_eq (k : Nat) : passTarget k = 1 ∨ passTarget k = 2 := by
  unfold passTarget; split <;> simp

theorem scaleShift_eq (k : Nat) (xs : List Elem) : scaleShift k xs = passTarget k - elemsHr .c32 xs := rfl

/-- Every part of a buffer has at least the buffer's headroom. -/
theorem part_within_of_elemsHr {xs : List Elem} {x : Elem} (hx : x ∈ xs) (hb : InBounds 32 x) (p : Part) :
    Within (31 - elemsHr .c32 xs) (part x p) := by
  have hle : elemsHr .c32 xs ≤ hr 32 (part x p) := (elemsHr_le_elemHr .c32 xs x hx).trans (elemHr_le_part .c32 x p (.inr rfl))
  obtain ⟨hre, hre', him, him'⟩ := hb
  refine (headroomAtLeast_iff 32 _ (by norm_num) (elemsHr_le .c32 xs) _).1 ?_
  cases p
  · exact ⟨hre, hre', hle⟩
  · exact ⟨him, him', hle⟩

/-- The scaling before pass k leaves T bits of headroom in every part (43_fft.md R202). -/
theorem scaled_within {k : Nat} {xs : List Elem} {u : Elem} (hxs : ∀ x ∈ xs, InBounds 32 x) (hu : u ∈ scaleBy (scaleShift k xs) xs) :
    Within (31 - passTarget k) u.re ∧ Within (31 - passTarget k) u.im := by
  obtain ⟨x, hx, rfl⟩ := List.mem_map.1 hu
  have hH : elemsHr .c32 xs ≤ 31 := elemsHr_le .c32 xs
  have hshift : ((31 - elemsHr .c32 xs : Nat) : Int) - scaleShift k xs ≤ (31 - passTarget k : Nat) := by rw [scaleShift_eq]; omega
  exact ⟨within_shr hshift (part_within_of_elemsHr hx (hxs x hx) .re), within_shr hshift (part_within_of_elemsHr hx (hxs x hx) .im)⟩

/-! ### Twiddles (43_fft.md R196, R198) -/

/-- The step of the table in pass k ≤ M − 1. -/
theorem tableStep_eq {M k : Nat} (hk : k < M) : 2 ^ M >>> (k + 1) = 2 ^ (M - (k + 1)) := by
  rw [Nat.shiftRight_eq_div_pow, Nat.pow_div hk two_pos]

/-- Conjugation keeps the magnitudes of both parts. -/
theorem abs_twiddle (M : Nat) (conj : Bool) (k j : Nat) :
    |(twiddle M conj k j).re| = |twiddleRe M (j * (2 ^ M >>> (k + 1)))| ∧
      |(twiddle M conj k j).im| = |twiddleIm M (j * (2 ^ M >>> (k + 1)))| := by
  cases conj <;> simp [twiddle]

/-- Entry 0 is 1, entry NMAX/4 is −j. -/
theorem twiddle_entries (d : Nat) : twiddleRe (d + 2) 0 = 2 ^ 30 ∧ twiddleIm (d + 2) 0 = 0 ∧
    twiddleRe (d + 2) (2 ^ d) = 0 ∧ twiddleIm (d + 2) (2 ^ d) = -2 ^ 30 := by
  simp [twiddleRe, twiddleIm, cosQ30_zero, cosQ30_right]

/-- In the passes 0 and 1 a twiddle is ±1 or ±j, in a later one each part has magnitude at most 1, in units of 2^30. -/
theorem abs_twiddle_add_le {M k j : Nat} (conj : Bool) (hM : 2 ≤ M) (hk : k < M) (hj : j < 2 ^ k) :
    |(twiddle M conj k j).re| + |(twiddle M conj k j).im| ≤ passTarget k * 2 ^ 30 := by
  obtain ⟨hre, him⟩ := abs_twiddle M conj k j
  rw [hre, him]
  by_cases hfirst : k ≤ 1
  · obtain ⟨d, rfl⟩ : ∃ d, M = d + 2 := ⟨M - 2, by omega⟩
    obtain ⟨hre0, him0, hre1, him1⟩ := twiddle_entries d
    rw [passTarget, if_pos hfirst]
    obtain rfl | ⟨rfl, rfl⟩ : j = 0 ∨ k = 1 ∧ j = 1 := by interval_cases k <;> omega
    · rw [Nat.zero_mul, hre0, him0]; norm_num
    · rw [tableStep_eq hk, Nat.one_mul, Nat.add_sub_cancel, hre1, him1]; norm_num
  · have hindex : j * (2 ^ M >>> (k + 1)) < 2 ^ (M - 1) := by
      rw [tableStep_eq hk]
      calc j * 2 ^ (M - (k + 1)) < 2 ^ k * 2 ^ (M - (k + 1)) := Nat.mul_lt_mul_of_pos_right hj (by positivity)
        _ = 2 ^ (M - 1) := by rw [← pow_add]; congr 1; omega
    obtain ⟨-, -, hre, him⟩ := twiddleRomIsNearest M _ hM hindex
    rw [passTarget, if_neg hfirst]
    omega

/-! ### The butterfly (43_fft.md R198, R202) -/

/-- A sum of two products, floored by 2^30, is at most 2^30, where the factors of one side are within T·2^30 together and those of the other
within 2^(31−T). -/
theorem abs_shr_le {w w' y y' v : Int} {T : Nat} (hT : T = 1 ∨ T = 2) (hw : |w| + |w'| ≤ T * 2 ^ 30) (hy : Within (31 - T) y)
    (hy' : Within (31 - T) y') (hv : |v| ≤ |w| * |y| + |w'| * |y'|) : |shr v 30| ≤ 2 ^ 30 := by
  have hv60 : |v| ≤ 2 ^ 60 :=
    calc |v| ≤ |w| * |y| + |w'| * |y'| := hv
      _ ≤ |w| * 2 ^ (31 - T) + |w'| * 2 ^ (31 - T) :=
        add_le_add (mul_le_mul_of_nonneg_left (abs_le_of_within hy) (abs_nonneg w))
          (mul_le_mul_of_nonneg_left (abs_le_of_within hy') (abs_nonneg w'))
      _ ≤ 2 ^ 60 := by rcases hT with rfl | rfl <;> norm_num at hw ⊢ <;> omega
  rw [shr_of_nonneg v 30 (by norm_num), show (30 : Int).toNat = 30 from rfl]
  rw [abs_le] at hv60 ⊢
  omega

/-- The product of a pass's twiddle and a scaled element is at most 2^30 in both parts. -/
theorem abs_twiddleProduct_le {w y : Elem} {k : Nat} (hw : |w.re| + |w.im| ≤ passTarget k * 2 ^ 30)
    (hre : Within (31 - passTarget k) y.re) (him : Within (31 - passTarget k) y.im) :
    |(twiddleProduct w y).re| ≤ 2 ^ 30 ∧ |(twiddleProduct w y).im| ≤ 2 ^ 30 := by
  have hT := passTarget_eq k
  constructor
  · refine abs_shr_le hT hw hre him ((abs_sub _ _).trans_eq ?_)
    rw [abs_mul, abs_mul]
  · refine abs_shr_le hT hw him hre ((abs_add_le _ _).trans_eq ?_)
    rw [abs_mul, abs_mul]

/-- A part with one bit of headroom, and a product's part, add and subtract within 32 bits. -/
theorem add_sub_in_bounds {u t : Int} (hu : Within 30 u) (ht : |t| ≤ 2 ^ 30) :
    (minB 32 ≤ u + t ∧ u + t ≤ maxB 32) ∧ minB 32 ≤ u - t ∧ u - t ≤ maxB 32 := by
  obtain ⟨hlo, hhi⟩ := hu
  obtain ⟨htlo, hthi⟩ := abs_le.1 ht
  unfold minB maxB
  omega

/-- Settles O49: a scaled part has a bit of headroom and a twiddle's product is at most 2^30. -/
theorem fftNeverSaturates : Obligations.FftNeverSaturates := by
  rintro M k j conj xs u y t hM - hk hj hxs hu hy rfl
  have hT : 31 - passTarget k ≤ 30 := by have := passTarget_eq k; omega
  obtain ⟨hure, huim⟩ := scaled_within hxs hu
  obtain ⟨hyre, hyim⟩ := scaled_within hxs hy
  obtain ⟨htre, htim⟩ := abs_twiddleProduct_le (abs_twiddle_add_le conj hM hk hj) hyre hyim
  obtain ⟨⟨hre, hre'⟩, hre2, hre2'⟩ := add_sub_in_bounds (within_mono hT hure) htre
  obtain ⟨⟨him, him'⟩, him2, him2'⟩ := add_sub_in_bounds (within_mono hT huim) htim
  exact ⟨⟨hre, hre', him, him'⟩, hre2, hre2', him2, him2'⟩

end Sys2Proof.Machine
end

section
/-! Exceptions and the end of a run (spec/60_exceptions.md R222, R226, R230, R237): what a command leaves of the control side, the boundary that
takes an abort, and the three ways in which a run ends. -/

namespace Sys2Proof.Machine

/-! ### The control side (60_exceptions.md R230) -/

/-- The window's control side with the parameters, and the model's host side: all that no command writes. -/
def controlSide (s : State) : Bool × Bool × Config × List HostAct × Word × Race × Nat :=
  (s.allowSat, s.irqEn, s.cfg, s.hostQueue, s.hostData, s.race, s.freeCount)

theorem controlSide_eq_iff {s t : State} :
    controlSide t = controlSide s ↔
      t.allowSat = s.allowSat ∧ t.irqEn = s.irqEn ∧ t.cfg = s.cfg ∧ t.hostQueue = s.hostQueue ∧ t.hostData = s.hostData ∧
        t.race = s.race ∧ t.freeCount = s.freeCount := by
  simp only [controlSide, Prod.mk.injEq]

theorem controlSide_branch (s : State) (imm16 : BitVec 16) : controlSide (s.branch imm16) = controlSide s := rfl

theorem Completes.controlSide_eq {ds : List Reg} {sp : List Span} {s t : State} (h : Completes ds sp s t) :
    controlSide t = controlSide s := by rw [h.frame]; rfl

/-- Settles O10: none of the ends that `exec_ends` tells apart touches the control side. -/
theorem commandsLeaveControlAlone : Obligations.CommandsLeaveControlAlone := by
  intro i s t h
  rw [← controlSide_eq_iff]
  rcases exec_ends h with ⟨x, -, rfl⟩ | ⟨-, rfl⟩ | ⟨d, a, imm16, -, rfl⟩ | ⟨a, -, rfl⟩ | hc
  · rfl
  · rfl
  · exact controlSide_branch s imm16
  · rfl
  · exact hc.controlSide_eq

/-! ### The command boundary (60_exceptions.md R226) -/

theorem boundary_of_abort {s : State} (hrun : s.run = .run) (habort : s.abortReq = true) :
    s.boundary = { s.abort with race := .none } := by
  simp [State.boundary, hrun, habort]

/-- Settles O6: an abort is taken, there is none to take, or the run has ended. -/
theorem boundaryTakesAbort : Obligations.BoundaryTakesAbort :=
  fun s => ⟨boundary_of_abort, boundary_quiet s, boundary_of_idle⟩

/-! ### A command that stops the run (60_exceptions.md R221, R222) -/

/-- A fault of cause 1 to 7 was raised: any cause but none and the abort. -/
def Raised (s t : State) : Prop := ∃ x : Trap, x.cause ≠ .none ∧ x.cause ≠ .aborted ∧ t = s.raise x

theorem Faults.raised {s t : State} (h : Faults s t) : Raised s t := by
  obtain ⟨x, hx, rfl⟩ := h
  exact ⟨x, by rintro hn; simp [hn] at hx, by rintro ha; simp [ha] at hx, rfl⟩

theorem raised_of_fetchTrap {s : State} {x : Trap} (h : fetchTrap s = some x) : Raised s (s.raise x) := by
  refine ⟨x, fetchTrap_cause h, ?_, rfl⟩
  by_cases h4 : u32 s.pc % 4 = 0
  · rw [fetchTrap_of_aligned h4] at h
    split at h
    · cases h
    · cases h; simp
  · rw [fetchTrap_of_misaligned h4] at h
    cases h; simp

/-- A command faults before execution, or what it does is the execution of an instruction (40_sequencer.md R110). -/
theorem command_raises_or_executes {s t : State} (h : command s = .next t) : Raised s t ∨ ∃ i, exec i s = .next t := by
  cases hf : fetchTrap s with
  | some x =>
    rw [command_of_fetchTrap hf] at h
    cases h; exact .inl (raised_of_fetchTrap hf)
  | none =>
    by_cases hd : ∃ i, decode (fetchWord s) = .ok i
    · obtain ⟨i, hi⟩ := hd
      exact .inr ⟨i, command_eq hf hi ▸ h⟩
    · rw [command_of_illegal hf (not_exists.1 hd)] at h
      cases h; exact .inl ⟨_, by simp, by simp, rfl⟩

/-- Of the ends of an instruction only a fault and HALT's stop the run. -/
theorem exec_stops {i : Instr} {s t : State} (hrun : s.run = .run) (h : exec i s = .next t) (ht : t.run = .idle) :
    Raised s t ∨ t = s.halt := by
  have hstop : t.run ≠ s.run := by simp [hrun, ht]
  rcases exec_ends h with hf | ⟨-, hhalt⟩ | ⟨d, a, imm16, -, rfl⟩ | ⟨a, -, rfl⟩ | hc
  · exact .inl hf.raised
  · exact .inr hhalt
  · exact absurd (branch_run s imm16) hstop
  · exact absurd rfl hstop
  · exact absurd (by rw [hc.frame]) hstop

theorem command_stops {s t : State} (hrun : s.run = .run) (h : command s = .next t) (ht : t.run = .idle) :
    Raised s t ∨ t = s.halt := by
  rcases command_raises_or_executes h with hr | ⟨i, hi⟩
  · exact .inl hr
  · exact exec_stops hrun hi ht

/-! ### The end of a run (60_exceptions.md R237) -/

theorem runEnd_of_doneBit {s : State} (hrun : s.run = .idle) (hd : s.doneBit = true) : runEnd s = some .done := by
  simp [runEnd, hrun, hd]

theorem runEnd_of_fault {s : State} (hrun : s.run = .idle) (hd : s.doneBit = false) (hf : s.faultBit = true)
    (hc : s.cause ≠ .aborted) : runEnd s = some .fault := by
  simp [runEnd, hrun, hd, hf, hc]

theorem runEnd_of_abort {s : State} (hrun : s.run = .idle) (hd : s.doneBit = false) (hf : s.faultBit = true)
    (hc : s.cause = .aborted) : runEnd s = some .aborted := by
  simp [runEnd, hrun, hd, hf, hc]

/-- A step that ends a run is a command that stops it, or a command after which the run goes on and its boundary takes an abort. -/
theorem step_ends_run {s t : State} (hq : s.hostQueue = []) (hrun : s.run = .run) (hs : step s = .next t) (ht : t.run = .idle) :
    ∃ u, command s = .next u ∧
      ((u.run = .idle ∧ t = { u with race := .none, freeCount := u.freeCount + 1 }) ∨
        (u.run = .run ∧ t = { (s.after u).abort with race := .none })) := by
  obtain ⟨u, hu, hseq⟩ := sequencer_run_answers hrun
  rw [step_of_nil hq] at hs
  cases hur : u.run with
  | idle =>
    rw [sequencer_of_stops hrun hu hur] at hs
    cases hs; exact ⟨u, hu, .inl ⟨hur, rfl⟩⟩
  | run =>
    have hafter : (s.after u).run = .run := (after_run s u).trans hur
    rw [hseq] at hs
    cases hs
    cases habort : (s.after u).abortReq with
    | true => exact ⟨u, hu, .inr ⟨hur, boundary_of_abort hafter habort⟩⟩
    | false =>
      rw [boundary_quiet _ hafter habort, hafter] at ht
      cases ht

/-- Settles O14: a fault, HALT, or an abort at the boundary. DONE and FAULT are 0 while RUN, so the bit that the end sets stands alone. -/
theorem runsEndInOneOfThreeWays : Obligations.RunsEndInOneOfThreeWays := by
  intro s t hinv hrun hq hs ht
  obtain ⟨hdone, hfault⟩ := hinv.runClear hrun
  obtain ⟨u, hu, ⟨hur, rfl⟩ | ⟨hur, rfl⟩⟩ := step_ends_run hq hrun hs ht
  · rcases command_stops hrun hu hur with ⟨x, hne, hna, rfl⟩ | rfl
    · exact .inr (.inl ⟨runEnd_of_fault rfl hdone rfl hna, hdone, hne, hna, rfl⟩)
    · exact .inl ⟨runEnd_of_doneBit rfl rfl, hfault, hinv.causeIffFault.2 hfault, rfl, rfl⟩
  · have hdone' : (s.after u).doneBit = false := by
      rw [after_doneBit]
      exact ((command_atBoundary hinv hrun hu).apartFromRace.runClear hur).1
    exact .inr (.inr ⟨runEnd_of_abort rfl hdone' rfl rfl, hdone', rfl, rfl, rfl⟩)

end Sys2Proof.Machine
end
